-- ==== Sys2Proof/Word.lean ====
section
/-!
DEFINITION. The types that hold the MAE's quantities (00_scope.md R8, R9; 10_state.md R20), at the widths the spec takes. Every quantity is
unsigned. The widths themselves are arguments of the model (`Params`, R8); these types hold every value of up to the widths taken (log 14).
-/

namespace Sys2Proof

/-- A byte of `IN` (R9). -/
abbrev Byte := BitVec 8

/-- A 64-bit field of a message, `ctr`, a bound (`LEN_W`, `CTR_W`; R7, R8). -/
abbrev Word := BitVec 64

/-- A ring-buffer slot or Hamming-weight accumulator, `SAMPLE_W` = 67 bits (R8, R21). -/
abbrev Weight := BitVec 67

/-- `sum` and one output sample, `SUM_W` = 71 bits (R8, R27). -/
abbrev Total := BitVec 71

/-- The computed-length comparator, `COMP_W` = 68 bits (R8, R112). -/
abbrev Comp := BitVec 68

end Sys2Proof
end

