-- ==== Sys2Proof/Config.lean ====
section
/-!
DEFINITION. The parameters of the MAE: the constants the source fixes (00_scope.md R7) and the record of the parameters
the source leaves open (R8). The VALUES this spec takes for the latter are `params` in Decode.lean.
-/

namespace Sys2Proof

/-- The parameters of R8, each a named argument of the model: the five tag byte values (D1), the warm-up threshold (D2), and the widths in
bits of the slots and the Hamming-weight accumulator, of `sum` and a sample, of `cursor`, of `ctr` and the bounds, and of the computed-length
comparator (D3, D4, D5, D9). -/
structure Params where
  tagInfo   : Byte
  tagLib    : Byte
  tagExec   : Byte
  tagMemory : Byte
  tagThread : Byte
  warm      : Nat
  /-- `SAMPLE_W`. -/
  sampleW   : Nat
  /-- `SUM_W`. -/
  sumW      : Nat
  /-- `CURSOR_W`. -/
  cursorW   : Nat
  /-- `CTR_W`. -/
  ctrW      : Nat
  /-- `COMP_W`. -/
  compW     : Nat
  deriving DecidableEq, Repr

/-- The five tag values in the source's order (30_encoding.md R71). -/
def Params.tags (p : Params) : List Byte :=
  [p.tagInfo, p.tagLib, p.tagExec, p.tagMemory, p.tagThread]

/-- "the only property any rule relies on is that they are five distinct byte values" (R71). -/
abbrev Params.Distinct (p : Params) : Prop := p.tags.Nodup

/-- Ring-buffer capacity and divisor of the average (R7). -/
def Config.window : Nat := 10
/-- Bytes of tag plus length field (R7). -/
def Config.hdrLen : Nat := 9
/-- Header plus the four fixed fields of an Exec message (R7). -/
def Config.execFixed : Nat := 41
/-- Bytes of an Exec message per instruction (R7). -/
def Config.execPerIns : Nat := 9
/-- Header plus the fixed fields of a Memory message (R7). -/
def Config.memFixed : Nat := 42
/-- Capacity of the Info key (R7). -/
def Config.keyCap : Nat := 128
/-- Capacity of the Info value (R7). -/
def Config.valueCap : Nat := 2048
/-- Capacity of the Lib name (R7). -/
def Config.nameCap : Nat := 2048

end Sys2Proof
end

