-- ==== Sys2Proof/Syntax.lean ====
section
/-!
DEFINITION. The instructions of the MAE (one constructor per row of spec/opcode_table.json) and whole messages in the
notation of 30_encoding.md R84.
-/

namespace Sys2Proof

/-- What dispatch selects (40_framer.md R100): the message type, carrying the declared length `len` of the header, and for the
illegal tag space the tag byte too. The rest of a message is consumed from `IN` by the instruction's meaning, as the rules
`DoInfo(len)` .. `DoThread(len)` do. -/
inductive Instr where
  /-- INFO (R105): skip an Info message. -/
  | info (len : Word)
  /-- LIB (R108): skip a Lib message. -/
  | lib (len : Word)
  /-- EXEC (R111): validate and skip an Exec message. -/
  | exec (len : Word)
  /-- MEMORY (R115): validate a Memory message, fold its payload, observe it. -/
  | memory (len : Word)
  /-- THREAD (R119): skip a Thread message. -/
  | thread (len : Word)
  /-- UNKNOWN (R120): any tag byte outside the five. -/
  | unknown (tag : Byte) (len : Word)
  deriving DecidableEq, Repr

/-- A whole message, field by field, in the notation of R84 (layouts: R72 to R76). Strings are without their NUL. -/
inductive Message where
  /-- `Info(key, value)` (R72). -/
  | info (key value : List Byte)
  /-- `Lib(base, end, name)` (R73). -/
  | lib (base limit : Word) (name : List Byte)
  /-- `Exec(exec_id, thread_id, [a1..an], [l1..ln], [code bytes])` (R74); one pair (address, length) per instruction. -/
  | exec (execId threadId : Word) (instrs : List (Word × Byte)) (code : List Byte)
  /-- `Memory(exec_id, ins_address, access_mode, start_address, [data bytes])` (R75). -/
  | memory (execId insAddress : Word) (accessMode : Byte) (startAddress : Word) (data : List Byte)
  /-- `Thread(exec_id, thread_id, event_type)` (R76). -/
  | thread (execId threadId : Word) (eventType : Byte)
  deriving DecidableEq, Repr

end Sys2Proof
end

