-- ==== Sys2Proof/WellFormed.lean ====
section
/-!
DEFINITION. Which instructions and which messages are well-formed.
-/

namespace Sys2Proof

/-- An instruction as a decoder can produce it: `unknown` carries none of the five legal tags (30_encoding.md R81). -/
def Instr.wf (p : Params) : Instr → Bool
  | .info _ | .lib _ | .exec _ | .memory _ | .thread _ => true
  | .unknown tag _ => decide (tag ∉ p.tags)

/-- A string that keeps the stream aligned: no NUL inside, at most `cap − 2` bytes (30_encoding.md R79). -/
def stringFits (cap : Nat) (s : List Byte) : Bool :=
  decide (s.length + 2 ≤ cap) && s.all (· != 0)

/-- Total byte length of the entire message, header included: the declared length the format's invariant asks for
(30_encoding.md R70, R72 to R76). -/
def Message.size : Message → Nat
  | .info key value => 11 + key.length + value.length
  | .lib _ _ name => 26 + name.length
  | .exec _ _ instrs code => 41 + 9 * instrs.length + code.length
  | .memory _ _ _ _ data => 42 + data.length
  | .thread _ _ _ => 26

/-- A well-formed message (R83): its strings are within the limits of R79 and its length fits the 64-bit field. Legal tag,
declared length and completeness are the encoder's part. -/
def Message.wf : Message → Bool
  | .info key value => stringFits Config.keyCap key && stringFits Config.valueCap value
  | .lib _ _ name => stringFits Config.nameCap name
  | .exec i t instrs code => decide ((Message.exec i t instrs code).size < 2 ^ 64)
  | .memory i a m s data => decide ((Message.memory i a m s data).size < 2 ^ 64)
  | .thread _ _ _ => true

end Sys2Proof
end

