-- ==== Sys2Proof/Decode.lean ====
section
/-!
DEFINITION. The decided parameter values, byte order, the decoder of a message header, and the encoders of headers and of
whole messages (30_encoding.md R70 to R86, 20_memory.md R50, R51). The byte decoding of every constructor is shown in
Sys2Proof/Tests/Slice0.lean on words written out from the spec.
-/

namespace Sys2Proof

/-- The values this spec takes (R8): the tags 0x00 to 0x04 in the source's order (R71, D1), `WARM` = 9 (R146, D2), and the widths (D3, D4, D5,
D9). -/
def params : Params :=
  { tagInfo := 0x00, tagLib := 0x01, tagExec := 0x02, tagMemory := 0x03, tagThread := 0x04, warm := 9,
    sampleW := 67, sumW := 71, cursorW := 4, ctrW := 64, compW := 68 }

/-- The natural number a byte sequence stands for, little-endian: byte `k` supplies bits `8k+7 : 8k` (R51). -/
def leNat : List Byte → Nat
  | [] => 0
  | b :: bs => b.toNat + 256 * leNat bs

/-- Eight bytes assembled little-endian into an unsigned 64-bit field (R51, R77). -/
def le64 (bs : List Byte) : Word := BitVec.ofNat 64 (leNat bs)

/-- The `n` low bytes of `v`, least significant first. -/
def leBytes : Nat → Nat → List Byte
  | 0, _ => []
  | n + 1, v => BitVec.ofNat 8 v :: leBytes n (v / 256)

/-- `LE64(v)` (R84). -/
def encode64 (v : Word) : List Byte := leBytes 8 v.toNat

/-- Dispatch on the whole tag byte; total over bytes (R71, R86, R103). -/
def instrOf (p : Params) (tag : Byte) (len : Word) : Instr :=
  if tag = p.tagInfo then .info len
  else if tag = p.tagLib then .lib len
  else if tag = p.tagExec then .exec len
  else if tag = p.tagMemory then .memory len
  else if tag = p.tagThread then .thread len
  else .unknown tag len

/-- Why no instruction can be read from a byte sequence. -/
inductive DecodeError where
  /-- No byte where a tag is expected: the clean end (R101), not an encoding (R86). -/
  | endOfStream
  /-- A tag byte with fewer than 8 bytes after it: `Truncated` whatever the tag (R102, R198). -/
  | truncatedHeader (tag : Byte)
  deriving DecidableEq, Repr

/-- Read a header (R102): the tag, then the declared length in full, then dispatch. Answers the instruction and the bytes
after the header. -/
def decode (p : Params) : List Byte → Except DecodeError (Instr × List Byte)
  | [] => .error .endOfStream
  | tag :: rest =>
    if rest.length < 8 then .error (.truncatedHeader tag)
    else .ok (instrOf p tag (le64 (rest.take 8)), rest.drop 8)

/-- The tag byte of an instruction (R71). -/
def Instr.tag (p : Params) : Instr → Byte
  | .info _ => p.tagInfo
  | .lib _ => p.tagLib
  | .exec _ => p.tagExec
  | .memory _ => p.tagMemory
  | .thread _ => p.tagThread
  | .unknown tag _ => tag

/-- The declared length an instruction's header carries (R70). -/
def Instr.len : Instr → Word
  | .info len | .lib len | .exec len | .memory len | .thread len | .unknown _ len => len

/-- The 9 header bytes of an instruction (R70). -/
def encode (p : Params) (i : Instr) : List Byte := i.tag p :: encode64 i.len

/-- The tag byte a message is written with (R71, R84). -/
def Message.tag (p : Params) : Message → Byte
  | .info _ _ => p.tagInfo
  | .lib _ _ _ => p.tagLib
  | .exec _ _ _ _ => p.tagExec
  | .memory _ _ _ _ _ => p.tagMemory
  | .thread _ _ _ => p.tagThread

/-- The bytes after the header, field by field (R72 to R76); in an Exec message all addresses come before all lengths. -/
def Message.body : Message → List Byte
  | .info key value => key ++ 0 :: (value ++ [0])
  | .lib base limit name => encode64 base ++ encode64 limit ++ (name ++ [0])
  | .exec execId threadId instrs code =>
    encode64 execId ++ encode64 threadId ++ encode64 (BitVec.ofNat 64 instrs.length)
      ++ encode64 (BitVec.ofNat 64 code.length)
      ++ instrs.flatMap (fun x => encode64 x.1) ++ instrs.map Prod.snd ++ code
  | .memory execId insAddress accessMode startAddress data =>
    encode64 execId ++ encode64 insAddress ++ [accessMode] ++ encode64 startAddress
      ++ encode64 (BitVec.ofNat 64 data.length) ++ data
  | .thread execId threadId eventType => encode64 execId ++ encode64 threadId ++ [eventType]

/-- The message written with declared length `len`: the trailing `len=L` form of R84. -/
def Message.bytesWithLen (p : Params) (len : Word) (m : Message) : List Byte :=
  m.tag p :: (encode64 len ++ m.body)

/-- The message as R84 writes it, its declared length the total byte length of the entire message (R70). -/
def Message.bytes (p : Params) (m : Message) : List Byte :=
  m.bytesWithLen p (BitVec.ofNat 64 m.size)

/-- The stream of a list of messages: the concatenation of their forms in order (R84). -/
def streamOf (p : Params) (ms : List Message) : List Byte := ms.flatMap (Message.bytes p)

/-- The pseudo-form `Mem([data bytes])` (R85). -/
def Message.mem (data : List Byte) : Message := .memory 0 0 0 0 data

/-- A table word laid out as the stream holds it, zeros after it up to `total` bytes. -/
def tableBytes (total nbits w : Nat) : List Byte :=
  leBytes (nbits / 8) w ++ List.replicate (total - nbits / 8) 0

/-- The bytes of the longest fixed part of a message (Memory, R75): what a table word is filled up to with zeros. -/
def tableTotal : Nat := 42

/-- The instruction the decoder reads from a table word (the host's question). -/
def decodeTableWord (nbits w : Nat) : Option Instr :=
  match decode params (tableBytes tableTotal nbits w) with
  | .ok (i, _) => some i
  | .error _ => none

end Sys2Proof
end

