-- ==== Sys2Proof/Machine/State.lean ====
section
/-!
DEFINITION. The state of the MAE (10_state.md R20), plain data, its value after reset (R44), and the reasons a step can stop.
-/

namespace Sys2Proof.Machine

/-- `RUN_STATE` (R34). -/
inductive RunState where
  /-- Reset done, configuration writable, no byte consumed. -/
  | idle
  /-- Message steps are being taken. -/
  | run
  /-- Clean end. -/
  | done
  /-- Fatal end. -/
  | fatal
  deriving DecidableEq, Repr

/-- `ERR_CODE` (R35). The values 6 and 7 are never produced and not represented (U11). -/
inductive ErrCode where
  | none
  | unknownType
  | framingExec
  | framingMemory
  | truncated
  | ctrOverflow
  deriving DecidableEq, Repr

/-- The causes of a fatal end with what each of them records (60_exceptions.md R180). -/
inductive Cause where
  | unknownType (tag : Byte) (declared : Word)
  | framingExec (execId declared : Word) (computed : Comp)
  | framingMemory (execId declared : Word) (computed : Comp)
  /-- `declared` is the declared length if all 8 of its bytes were read, else 0. -/
  | truncated (tag : Byte) (declared : Word)
  | ctrOverflow (declared : Word)
  deriving DecidableEq, Repr

/-- What the parties outside the MAE do between two message steps (70_reset_and_hazards.md R216, R220, R222). -/
inductive HostEvent where
  /-- The host writes `data` to register number `addr` (R40). -/
  | write (addr : Byte) (data : Word)
  /-- Reset is asserted (R210). -/
  | reset
  /-- The sink takes one sample it is offered (R222). -/
  | accept
  /-- The sink drives `out_ready` to `level` and leaves it there (R220, R222). -/
  | sinkReady (level : Bool)
  /-- Nobody does anything: the MAE takes its next message step, if it has one. -/
  | quiet
  deriving DecidableEq, Repr

/-- The state of the MAE: R20's tuple, the streams `IN` and `OUT` (R11), the sink's readiness and its progress through
`OUT` (R43, R220, R222), and the model's own list of what the host will do. -/
structure State where
  /-- Ring buffer `buf[0]` .. `buf[9]` (R21). -/
  buf         : Vector Weight 10
  /-- Running sum (R27). -/
  sum         : Total
  /-- Write cursor, 0 .. 9 (R28). -/
  cursor      : Fin 10
  /-- Memory-event counter (R29). -/
  ctr         : Word
  /-- `BOUNDMIN` (R30). -/
  boundMin    : Word
  /-- `BOUNDMAX` (R30). -/
  boundMax    : Word
  /-- `BOUNDMAX_INF` (R30). -/
  boundMaxInf : Bool
  /-- `RUN_STATE` (R34). -/
  runState    : RunState
  /-- `ERR_CODE` (R35). -/
  errCode     : ErrCode
  /-- `ERR_TAG` (R36). -/
  errTag      : Byte
  /-- `ERR_EXEC_ID` (R36). -/
  errExecId   : Word
  /-- `ERR_DECLARED` (R36). -/
  errDeclared : Word
  /-- `ERR_COMPUTED` (R36). -/
  errComputed : Comp
  /-- `EXIT_STATUS` (R37). -/
  exitStatus  : BitVec 2
  /-- Offset in `IN` of the next unconsumed byte, a ghost natural (R24). -/
  pc          : Nat
  /-- `IN` (R11): the whole input stream of the run. -/
  input       : List Byte
  /-- `OUT` (R11, R59): the samples emitted, index 0 first. -/
  out         : List Total
  /-- `OUT_CLOSED` (R38). -/
  outClosed   : Bool
  /-- How many samples of `OUT` the sink has taken; the later ones are outstanding (R43, R222). DEDUCED, log 6. -/
  delivered   : Nat
  /-- The level of the input port `out_ready` (R220): the sink takes a sample as soon as it is offered. DESIGN CHOICE, log 16. -/
  outReady    : Bool
  /-- What the host and the sink will do, oldest first. DESIGN CHOICE, log 4: the model's own field. -/
  events      : List HostEvent
  deriving DecidableEq, Repr

/-- Reasons a step answers no next state: the three run states in which "there is no step" (40_framer.md R100), met when no
host event is left either. A fatal end of the MAE is NOT one of them: it is a next state with `RUN_STATE = FATAL` (R190). -/
inductive Fault where
  /-- Raised by `machineStepWith`: `RUN_STATE = IDLE`, the machine waits for `START`. Safe: the model stops where the hardware waits. -/
  | idle
  /-- Raised by `machineStepWith`: `RUN_STATE = DONE`, "no further step exists until reset" (R15). Safe. -/
  | done
  /-- Raised by `machineStepWith`: `RUN_STATE = FATAL`, "no further step exists until reset" (R15, R192). Safe. -/
  | fatal
  deriving DecidableEq, Repr

/-- Reasons an instruction has no meaning. -/
inductive Refusal where
  /-- Raised by an arm of `exec` whose instruction has no meaning yet; no arm does. Safe. -/
  | notModelled (mnemonic : String)
  deriving DecidableEq, Repr

/-- The machine right after reset (R44, R210). `IN` and the list of host events are empty, and the sink is ready: DESIGN CHOICE, logs 2, 4
and 16. -/
def State.reset : State :=
  { buf := Vector.replicate 10 0, sum := 0, cursor := 0, ctr := 0,
    boundMin := 0, boundMax := 0, boundMaxInf := true,
    runState := .idle, errCode := .none, errTag := 0, errExecId := 0, errDeclared := 0, errComputed := 0,
    exitStatus := 0, pc := 0, input := [], out := [], outClosed := false, delivered := 0, outReady := true, events := [] }

end Sys2Proof.Machine
end

