-- ==== Sys2Proof/Machine/Ops.lean ====
section
/-!
DEFINITION. The named operations over the two streams and the registers: `Take` and its kin (00_scope.md R12), `Emit`, the fatal
entry every error shares (60_exceptions.md R190), the clean end (40_framer.md R101), reset (70_reset_and_hazards.md R210). There
is no return from a fatal end (R192): only reset leaves it.
-/

namespace Sys2Proof.Machine

/-! ### Widths -/

/-- What a register of `w` bits holds of a value: the value if its type has no more bits, else its low `w` bits (R8; DESIGN CHOICE, log 14, for
widths below those the spec takes). -/
def narrow {n : Nat} (w : Nat) (v : BitVec n) : BitVec n :=
  if n ≤ w then v else BitVec.ofNat n (v.toNat % 2 ^ w)

/-! ### The input stream -/

/-- The bytes of `IN` not yet consumed. -/
def State.rest (s : State) : List Byte := s.input.drop s.pc

/-- Consume `n` bytes: nothing but `pc` changes. -/
def State.advance (n : Nat) (s : State) : State := { s with pc := s.pc + n }

/-- `Take(n)` (R12): the next `n` bytes and the state after consuming them; `none` where fewer remain (the caller raises
`Truncated`). `Take(0)` answers the empty sequence. -/
def State.take (n : Nat) (s : State) : Option (List Byte × State) :=
  if n ≤ s.rest.length then some (s.rest.take n, s.advance n) else none

/-- `Skip(n)` (R12). -/
def State.skip (n : Nat) (s : State) : Option State := (s.take n).map Prod.snd

/-- `TakeU64()` (R12, R51). -/
def State.takeU64 (s : State) : Option (Word × State) := (s.take 8).map fun r => (le64 r.1, r.2)

/-- How many bytes a bounded read consumes that may still consume `limit` of them: up to and including the first NUL, or
`limit` if none of that many is NUL; `none` where the stream ends first (30_encoding.md R78). -/
def boundedCount : (limit : Nat) → List Byte → Option Nat
  | 0, _ => some 0
  | _ + 1, [] => none
  | n + 1, b :: bs => if b = 0 then some 1 else (boundedCount n bs).map (· + 1)

/-- `BoundedRead(cap)` (R78): at most `cap − 1` bytes, the stopping NUL included. -/
def State.boundedRead (cap : Nat) (s : State) : Option State :=
  (boundedCount (cap - 1) s.rest).map fun n => s.advance n

/-! ### The output stream -/

/-- `Emit(v)` (R12, R135): the sample is appended and offered to the sink. A ready sink takes it at once, one that is not leaves it
outstanding (70_reset_and_hazards.md R222; log 6). -/
def State.emit (v : Total) (s : State) : State :=
  { s with out := s.out ++ [v], delivered := if s.outReady then s.out.length + 1 else s.delivered }

/-- A sample is outstanding: emitted and not yet taken by the sink (R43). -/
abbrev State.Outstanding (s : State) : Prop := s.delivered < s.out.length

/-- The MAE must not yet go from `s`, in `RUN`, to `t`: a sample is outstanding, the sink is not ready, and `t` holds a further sample or is an
end of the run. A further sample: "If the sink is not ready the MAE holds the sample and does not consume the byte that would complete the next
emitting message" (R222). An end: a sample is delivered only where `out_valid = out_ready = 1` (R222), the MAE must "deliver every emitted sample
before `OUT_CLOSED = 1`, on both kinds of end" and may "wait without bound for either party" (R216); an end is one transition (R101, R190), so it
is the whole of it that waits (DEDUCED, log 6). -/
abbrev State.MustWait (s t : State) : Prop :=
  s.outReady = false ∧ s.Outstanding ∧ (s.out.length < t.out.length ∨ t.runState ≠ .run)

/-- The sink takes the sample it is offered, if one is outstanding (R222). -/
def State.accept (s : State) : State :=
  if s.Outstanding then { s with delivered := s.delivered + 1 } else s

/-- The sink drives `out_ready` to `level` (R220); becoming ready, it takes what is outstanding (R222; log 16). -/
def State.setOutReady (level : Bool) (s : State) : State :=
  { s with outReady := level, delivered := if level then s.out.length else s.delivered }

/-- What the spec says of positions in the two streams: `pc` never exceeds `len(IN)` (10_state.md R24), the sink has taken no
sample that was not emitted. The streams themselves are lists, one entry per offset, so they need no canonical form. -/
abbrev Memory.wf (s : State) : Prop := s.pc ≤ s.input.length ∧ s.delivered ≤ s.out.length

/-! ### Ends of the run -/

/-- `ERR_CODE` of a cause (R180). -/
def Cause.code : Cause → ErrCode
  | .unknownType _ _ => .unknownType
  | .framingExec _ _ _ => .framingExec
  | .framingMemory _ _ _ => .framingMemory
  | .truncated _ _ => .truncated
  | .ctrOverflow _ => .ctrOverflow

/-- Write the diagnostic latches a cause lists (R180); the others are not written. -/
def State.latch (p : Params) (c : Cause) (s : State) : State :=
  match c with
  | .unknownType tag declared => { s with errTag := tag, errDeclared := declared }
  | .framingExec execId declared computed =>
    { s with errTag := p.tagExec, errExecId := execId, errDeclared := declared, errComputed := computed }
  | .framingMemory execId declared computed =>
    { s with errTag := p.tagMemory, errExecId := execId, errDeclared := declared, errComputed := computed }
  | .truncated tag declared => { s with errTag := tag, errDeclared := declared }
  | .ctrOverflow declared => { s with errTag := p.tagMemory, errDeclared := declared }

/-- The run halts, either way: every emitted sample is delivered and `OUT` is closed (R38, R63, R101, R190). The handshake lets an end take place
only where a sink that is not ready has nothing left to take (`State.MustWait`; R216, R222), so no sample is delivered here to a sink that is
not ready (`State.delivered_of_not_ready` in Laws/Handshake.lean). -/
def State.closeOut (s : State) : State := { s with delivered := s.out.length, outClosed := true }

/-- `raise E(info)`, the fatal entry (R190): latches, `ERR_CODE`, `EXIT_STATUS`, output delivered and closed, `FATAL`. -/
def State.raise (p : Params) (c : Cause) (s : State) : State :=
  { (s.latch p c).closeOut with errCode := c.code, exitStatus := 1, runState := .fatal }

/-- A `Take` that did not fit: the bytes that were present are consumed, then `Truncated` (R12, R170). -/
def State.truncate (p : Params) (tag : Byte) (declared : Word) (s : State) : State :=
  { s with pc := s.input.length }.raise p (.truncated tag declared)

/-- `CleanEnd()` (R101). -/
def State.cleanEnd (s : State) : State := { s.closeOut with exitStatus := 0, runState := .done }

/-! ### Reset -/

/-- Reset (R210, R211): every register at its value of R44. `IN`, the level of `out_ready` and what the outside world will do are not the
MAE's (logs 2, 4, 16). -/
def State.resetLine (s : State) : State :=
  { State.reset with input := s.input, outReady := s.outReady, events := s.events }

end Sys2Proof.Machine
end

