-- ==== Sys2Proof/Machine/Flags.lean ====
section
/-!
DEFINITION. The tests and the status fields. The MAE has no condition codes (10_state.md R39); what decides and what is reported
are the range test, the warm-up test, the two length checks (40_framer.md R112, R116) and the STATUS word (10_state.md R40).
-/

namespace Sys2Proof.Machine

/-- The record about to be observed qualifies: `BOUNDMIN ≤ ctr`, and `BOUNDMAX_INF = 1` or `ctr < BOUNDMAX`, unsigned
(41_estimator.md R131). -/
abbrev State.InRange (s : State) : Prop :=
  s.boundMin.toNat ≤ s.ctr.toNat ∧ (s.boundMaxInf = true ∨ s.ctr.toNat < s.boundMax.toNat)

/-- The window is warm at a qualifying record: `ctr − BOUNDMIN ≥ WARM` on the counter before its increment (R135). -/
abbrev State.Warm (p : Params) (s : State) : Prop := p.warm ≤ s.ctr.toNat - s.boundMin.toNat

/-- `ctr` is at its last value. R130 and R137 name it at the width the spec takes, `2^64 − 1`. DESIGN CHOICE, log 14: at a `CTR_W` below 64
the last value is `2^CTR_W − 1`, and `CtrOverflow` comes there; a `CTR_W` above 64 counts as 64. -/
abbrev State.CtrFull (p : Params) (s : State) : Prop := 2 ^ min p.ctrW 64 - 1 ≤ s.ctr.toNat

/-- `computed = 41 + 9 × instruction_count + code_length`, in `COMP_W` bits, which at the width taken hold the number itself (R112). -/
def execComputed (p : Params) (n c : Word) : Comp :=
  narrow p.compW (BitVec.ofNat 68 (Config.execFixed + Config.execPerIns * n.toNat + c.toNat))

/-- `computed = 42 + data_length`, in `COMP_W` bits (R116). -/
def memComputed (p : Params) (d : Word) : Comp := narrow p.compW (BitVec.ofNat 68 (Config.memFixed + d.toNat))

/-- The declared length, zero-extended to `COMP_W` bits, equals the computed one (R112, R116). -/
abbrev LengthMatches (p : Params) (len : Word) (computed : Comp) : Prop := narrow p.compW (len.setWidth 68) = computed

/-- The value of `RUN_STATE` (R34). -/
def RunState.code : RunState → BitVec 2
  | .idle => 0
  | .run => 1
  | .done => 2
  | .fatal => 3

/-- The value of `ERR_CODE` (R35). -/
def ErrCode.code : ErrCode → BitVec 3
  | .none => 0
  | .unknownType => 1
  | .framingExec => 2
  | .framingMemory => 3
  | .truncated => 4
  | .ctrOverflow => 5

/-- `STATUS` = `{OUT_CLOSED (bit 7), EXIT_STATUS (bits 6:5), ERR_CODE (bits 4:2), RUN_STATE (bits 1:0)}` (R40). -/
def State.statusWord (s : State) : BitVec 8 :=
  BitVec.ofBool s.outClosed ++ s.exitStatus ++ s.errCode.code ++ s.runState.code

end Sys2Proof.Machine
end

