-- ==== Sys2Proof/Machine/Estimator.lean ====
section
/-!
DEFINITION. The estimator: Hamming weight, window update, emission, counter (41_estimator.md R130 to R137).
-/

namespace Sys2Proof.Machine

/-- `popcount8(b)`: the number of bits of `b` that are 1 (R133). -/
def popcount8 (b : Byte) : Nat :=
  b[0].toNat + b[1].toNat + b[2].toNat + b[3].toNat + b[4].toNat + b[5].toNat + b[6].toNat + b[7].toNat

/-- Hamming weight of a payload: the sum of `popcount8` over its bytes (R132). -/
def hammingWeight : List Byte → Nat
  | [] => 0
  | b :: bs => popcount8 b + hammingWeight bs

/-- `sum − buf[cursor] + hw`, the subtraction first, in `SUM_W` bits (R134, R139). -/
def State.newSum (p : Params) (hw : Weight) (s : State) : Total :=
  narrow p.sumW ((s.sum - (s.buf[s.cursor]).setWidth 71) + hw.setWidth 71)

/-- `(cursor + 1) mod 10` in `CURSOR_W` bits (R134). -/
def nextCursor (p : Params) (c : Fin 10) : Fin 10 :=
  ⟨(c.val + 1) % 10 % 2 ^ p.cursorW, Nat.lt_of_le_of_lt (Nat.mod_le _ _) (Nat.mod_lt _ (by decide))⟩

/-- Window update of a qualifying record, one simultaneous assignment from the old values (R134). -/
def State.updateWindow (p : Params) (hw : Weight) (s : State) : State :=
  { s with sum := s.newSum p hw, buf := s.buf.set s.cursor hw, cursor := nextCursor p s.cursor }

/-- `ctr <- ctr + 1` (R136). -/
def State.countEvent (s : State) : State := { s with ctr := s.ctr + 1 }

/-- A qualifying record of weight `hw`: window update, then the new sum is emitted if the window is warm (R134, R135). -/
def State.fold (p : Params) (hw : Weight) (s : State) : State :=
  if s.Warm p then (s.updateWindow p hw).emit (s.newSum p hw) else s.updateWindow p hw

/-- `Observe` on a record of weight `hw` and declared length `declared` (R130): overflow test first (R137), range test, window,
emission, counter. The weight is held in `SAMPLE_W` bits (R8). -/
def State.observe (p : Params) (declared : Word) (hw : Weight) (s : State) : State :=
  if s.CtrFull p then s.raise p (.ctrOverflow declared)
  else if s.InRange then (s.fold p (narrow p.sampleW hw)).countEvent
  else s.countEvent

end Sys2Proof.Machine
end

