-- ==== Sys2Proof/Machine/Operands.lean ====
section
/-!
DEFINITION. Reading the fields of each message type from `IN` (30_encoding.md R72 to R76; 40_framer.md R105 to R119). `none` where
the stream ends inside the fields: the caller raises `Truncated`.
-/

namespace Sys2Proof.Machine

/-- The two bounded strings of an Info message (R105). -/
def State.readInfo (s : State) : Option State :=
  (s.boundedRead Config.keyCap).bind (State.boundedRead Config.valueCap)

/-- `base`, `end` and the bounded name of a Lib message (R108). -/
def State.readLib (s : State) : Option State :=
  (s.skip 8).bind fun s => (s.skip 8).bind (State.boundedRead Config.nameCap)

/-- `exec_id`, `thread_id`, `event_type` of a Thread message (R119). -/
def State.readThread (s : State) : Option State :=
  (s.skip 8).bind fun s => (s.skip 8).bind (State.skip 1)

/-- The fields of the fixed part of an Exec message that are kept (R111). -/
structure ExecFields where
  execId : Word
  count : Word
  codeLen : Word
  deriving DecidableEq, Repr

/-- The four fixed fields of an Exec message (R74, R111): `exec_id`, `thread_id` (skipped), `instruction_count`, `code_length`. -/
def State.readExecFixed (s : State) : Option (ExecFields × State) :=
  s.takeU64.bind fun r1 => (r1.2.skip 8).bind fun s2 => s2.takeU64.bind fun r3 =>
    r3.2.takeU64.map fun r4 => ({ execId := r1.1, count := r3.1, codeLen := r4.1 }, r4.2)

/-- The variable part of an Exec message (R111): `8n` address bytes, `n` length bytes, `c` code bytes. -/
def State.skipExecVariable (f : ExecFields) (s : State) : Option State :=
  (s.skip (8 * f.count.toNat)).bind fun s => (s.skip f.count.toNat).bind (State.skip f.codeLen.toNat)

/-- The fields of the fixed part of a Memory message that are kept (R115). -/
structure MemFields where
  execId : Word
  dataLen : Word
  deriving DecidableEq, Repr

/-- The fixed fields of a Memory message (R75, R115): `exec_id`, `ins_address`, `access_mode`, `start_address` (all three skipped),
`data_length`. -/
def State.readMemFixed (s : State) : Option (MemFields × State) :=
  s.takeU64.bind fun r1 => (r1.2.skip 8).bind fun s2 => (s2.skip 1).bind fun s3 => (s3.skip 8).bind fun s4 =>
    s4.takeU64.map fun r5 => ({ execId := r1.1, dataLen := r5.1 }, r5.2)

end Sys2Proof.Machine
end

