-- ==== Sys2Proof/Machine/Framer.lean ====
section
/-!
DEFINITION. The meaning of each instruction (40_framer.md R105 to R120). Each starts where dispatch leaves the machine: the header's 9
bytes consumed, `pc` at message offset 9. Every meaning answers a next state; an error is the fatal entry (60_exceptions.md
R190).
-/

namespace Sys2Proof.Machine

/-- `DoInfo(len)` (R105): `len` is not used but for the latch of a truncation. -/
def doInfo (p : Params) (len : Word) (s : State) : State :=
  match s.readInfo with
  | none => s.truncate p p.tagInfo len
  | some t => t

/-- `DoLib(len)` (R108). -/
def doLib (p : Params) (len : Word) (s : State) : State :=
  match s.readLib with
  | none => s.truncate p p.tagLib len
  | some t => t

/-- `DoExec(len)` (R111): fixed fields, length check (R112, R113), variable part. -/
def doExec (p : Params) (len : Word) (s : State) : State :=
  match s.readExecFixed with
  | none => s.truncate p p.tagExec len
  | some (f, t) =>
    if LengthMatches p len (execComputed p f.count f.codeLen) then
      match t.skipExecVariable f with
      | none => t.truncate p p.tagExec len
      | some u => u
    else t.raise p (.framingExec f.execId len (execComputed p f.count f.codeLen))

/-- `DoMemory(len)` (R115): fixed fields, length check (R116), payload (R117), `Observe` (R130). -/
def doMemory (p : Params) (len : Word) (s : State) : State :=
  match s.readMemFixed with
  | none => s.truncate p p.tagMemory len
  | some (f, t) =>
    if LengthMatches p len (memComputed p f.dataLen) then
      match t.take f.dataLen.toNat with
      | none => t.truncate p p.tagMemory len
      | some (data, u) => u.observe p len (BitVec.ofNat 67 (hammingWeight data))
    else t.raise p (.framingMemory f.execId len (memComputed p f.dataLen))

/-- `DoThread(len)` (R119). -/
def doThread (p : Params) (len : Word) (s : State) : State :=
  match s.readThread with
  | none => s.truncate p p.tagThread len
  | some t => t

/-- The sixth branch of dispatch (R120): nothing after the header is consumed. -/
def doUnknown (p : Params) (tag : Byte) (len : Word) (s : State) : State := s.raise p (.unknownType tag len)

/-- INFO (R105). -/
def execInfo (len : Word) (s : State) : Host.Outcome State Fault Refusal := .next (doInfo params len s)

/-- LIB (R108). -/
def execLib (len : Word) (s : State) : Host.Outcome State Fault Refusal := .next (doLib params len s)

/-- EXEC (R111). -/
def execExec (len : Word) (s : State) : Host.Outcome State Fault Refusal := .next (doExec params len s)

/-- MEMORY (R115). -/
def execMemory (len : Word) (s : State) : Host.Outcome State Fault Refusal := .next (doMemory params len s)

/-- THREAD (R119). -/
def execThread (len : Word) (s : State) : Host.Outcome State Fault Refusal := .next (doThread params len s)

/-- UNKNOWN (R120). -/
def execUnknown (tag : Byte) (len : Word) (s : State) : Host.Outcome State Fault Refusal :=
  .next (doUnknown params tag len s)

/-- The meanings for any values of the parameters (R8); `exec` is this at `params`, arm by arm. -/
def execFor (p : Params) (i : Instr) (s : State) : Host.Outcome State Fault Refusal :=
  match i with
  | .info len => .next (doInfo p len s)
  | .lib len => .next (doLib p len s)
  | .exec len => .next (doExec p len s)
  | .memory len => .next (doMemory p len s)
  | .thread len => .next (doThread p len s)
  | .unknown tag len => .next (doUnknown p tag len s)

end Sys2Proof.Machine
end

