-- ==== Sys2Proof/Machine/Dispatch.lean ====
section
/-!
DEFINITION. One arm per instruction (40_framer.md R100, R103).
-/

namespace Sys2Proof.Machine

def exec (i : Instr) (s : State) : Host.Outcome State Fault Refusal :=
  match i with
  | .info len => Sys2Proof.Machine.execInfo len s
  | .lib len => Sys2Proof.Machine.execLib len s
  | .exec len => Sys2Proof.Machine.execExec len s
  | .memory len => Sys2Proof.Machine.execMemory len s
  | .thread len => Sys2Proof.Machine.execThread len s
  | .unknown tag len => Sys2Proof.Machine.execUnknown tag len s

end Sys2Proof.Machine
end

