-- ==== Sys2Proof/Machine/Port.lean ====
section
/-!
DEFINITION. The host's side: the register port (10_state.md R32, R33, R40), and the output ports that show state
(70_reset_and_hazards.md R220). Reads are pure functions of the state, hence without side effect (60_exceptions.md R204).
-/

namespace Sys2Proof.Machine

/-- Register numbers (R40). -/
def regBoundMin : Byte := 0x00
def regBoundMax : Byte := 0x01
def regBoundMaxInf : Byte := 0x02
def regControl : Byte := 0x03
def regStatus : Byte := 0x04
def regErrTag : Byte := 0x05
def regErrExecId : Byte := 0x06
def regErrDeclared : Byte := 0x07
def regErrComputed : Byte := 0x08
def regCtr : Byte := 0x09
def regSum : Byte := 0x0A
def regCursor : Byte := 0x0B
/-- `BUF[i]` is number `0x10 + i` (R40). -/
def regBuf (i : Fin 10) : Byte := 0x10 + BitVec.ofNat 8 i.val

/-- A write through the register port: honoured only in `IDLE` (R32, R33), ignored for every number but the four writable ones and
in every other run state. The bounds are held in `CTR_W` bits (R8). -/
def State.regWrite (p : Params) (addr : Byte) (data : Word) (s : State) : State :=
  if s.runState = .idle then
    if addr = regBoundMin then { s with boundMin := narrow p.ctrW data }
    else if addr = regBoundMax then { s with boundMax := narrow p.ctrW data }
    else if addr = regBoundMaxInf then { s with boundMaxInf := data[0] }
    else if addr = regControl then (if data[0] = true then { s with runState := .run } else s)
    else s
  else s

/-- A read through the register port, on `reg_rdata`'s 71 bits (R40, R204, R220): any register at any time; `CONTROL` and every unassigned
number read 0. -/
def State.regRead (addr : Byte) (s : State) : BitVec 71 :=
  if addr = regBoundMin then s.boundMin.setWidth 71
  else if addr = regBoundMax then s.boundMax.setWidth 71
  else if addr = regBoundMaxInf then (BitVec.ofBool s.boundMaxInf).setWidth 71
  else if addr = regStatus then s.statusWord.setWidth 71
  else if addr = regErrTag then s.errTag.setWidth 71
  else if addr = regErrExecId then s.errExecId.setWidth 71
  else if addr = regErrDeclared then s.errDeclared.setWidth 71
  else if addr = regErrComputed then s.errComputed.setWidth 71
  else if addr = regCtr then s.ctr.setWidth 71
  else if addr = regSum then s.sum
  else if addr = regCursor then BitVec.ofNat 71 s.cursor.val
  else if h : 0x10 ≤ addr.toNat ∧ addr.toNat < 0x1A then (s.buf[addr.toNat - 0x10]).setWidth 71
  else 0

/-- The output ports whose value is a function of the architectural state (R220). `in_ready` depends on the scratch registers too: see
`Serial.inReady`, and `State.mayConsume` for its one stated rule. -/
structure Outputs where
  outValid : Bool
  outSum : Option Total
  outClosed : Bool
  runState : BitVec 2
  errCode : BitVec 3
  exitStatus : BitVec 2
  deriving DecidableEq, Repr

/-- `out_valid`: a sample is outstanding; `out_sum`: the oldest one the sink has not taken (R222, "offered in emission order, each
once"); the others are copies of the status fields (R220). -/
def State.outputs (s : State) : Outputs :=
  { outValid := decide (s.delivered < s.out.length), outSum := s.out[s.delivered]?, outClosed := s.outClosed,
    runState := s.runState.code, errCode := s.errCode.code, exitStatus := s.exitStatus }

/-- `in_ready` is "1 only when `RUN_STATE = RUN`" (R220). -/
def State.mayConsume (s : State) : Bool := decide (s.runState = .run)

end Sys2Proof.Machine
end

