-- ==== Sys2Proof/Machine/Fetch.lean ====
section
/-!
DEFINITION. The message step (40_framer.md R100): end-of-stream test, header, dispatch; and what the outside world's events do between
message steps. Each is written once, over the parameters of R8 and the meanings `run` that dispatch selects from; the names without `With` are
the machine at the values the spec takes, which run `exec`.
-/

namespace Sys2Proof.Machine

/-- What runs a decoded instruction. -/
abbrev Meanings := Instr → State → Host.Outcome State Fault Refusal

/-- The header read (R102): the instruction at `pc`, with the state after its 9 bytes are consumed. -/
def State.fetch (p : Params) (s : State) : Except DecodeError (Instr × State) :=
  match decode p s.rest with
  | .error e => .error e
  | .ok (i, _) => .ok (i, s.advance Config.hdrLen)

/-- `Step()` (R100): at end of stream the clean end (R101); an incomplete header is `Truncated` with the tag and no declared length
(R102, R180); else the instruction, run after its header. -/
def messageStepWith (p : Params) (run : Meanings) (s : State) : Host.Outcome State Fault Refusal :=
  match s.fetch p with
  | .error .endOfStream => .next s.cleanEnd
  | .error (.truncatedHeader tag) => .next (s.truncate p tag 0)
  | .ok (i, t) => run i t

/-- A message step under the output handshake (R216, R222): one that would emit, or end the run, while an earlier sample is outstanding and the
sink is not ready does not take place; the MAE waits, which "has no architectural effect". What is withheld is the byte that completes the
message or ends the run, or the end of the stream, and a message takes effect with that event alone (R57, R190), so at this level the whole
message stands before `pc` until the sink has taken the sample; the byte-serial machine withholds the event itself (`serialStep`). -/
def runStepWith (p : Params) (run : Meanings) (s : State) : Host.Outcome State Fault Refusal :=
  match messageStepWith p run s with
  | .next t => .next (if s.MustWait t then s else t)
  | .fault r => .fault r
  | .refused r => .refused r

/-- One transition of the MAE by itself: a message step in `RUN`, no step in any other run state (R100, R15). -/
def machineStepWith (p : Params) (run : Meanings) (s : State) : Host.Outcome State Fault Refusal :=
  match s.runState with
  | .run => runStepWith p run s
  | .idle => .fault .idle
  | .done => .fault .done
  | .fatal => .fault .fatal

/-- One host event, already taken off the list. `quiet` lets the MAE take its message step, and in any other run state nothing
happens (waiting has no architectural effect, R222; DESIGN CHOICE, log 4). -/
def hostStepWith (p : Params) (run : Meanings) (e : HostEvent) (s : State) : Host.Outcome State Fault Refusal :=
  match e with
  | .write addr data => .next (s.regWrite p addr data)
  | .reset => .next s.resetLine
  | .accept => .next s.accept
  | .sinkReady level => .next (s.setOutReady level)
  | .quiet => if s.runState = .run then runStepWith p run s else .next s

/-- One step. Host events land between message steps (60_exceptions.md R204, 20_memory.md R57), oldest first (log 4). -/
def stepWith (p : Params) (run : Meanings) (s : State) : Host.Outcome State Fault Refusal :=
  match s.events with
  | [] => machineStepWith p run s
  | e :: es => hostStepWith p run e { s with events := es }

/-- The message step of the machine at the parameter values the spec takes. -/
def messageStep (s : State) : Host.Outcome State Fault Refusal := messageStepWith params exec s

/-- The message step under the output handshake, at the parameter values the spec takes. -/
def runStep (s : State) : Host.Outcome State Fault Refusal := runStepWith params exec s

/-- One step of the machine at any values of the parameters (R8): "a model can also be instantiated with the literal reading" (R146). -/
def stepFor (p : Params) (s : State) : Host.Outcome State Fault Refusal := stepWith p (execFor p) s

end Sys2Proof.Machine
end

