-- ==== Sys2Proof/Machine/Step.lean ====
section
/-!
DEFINITION. One step of the whole: the next event of the outside world if there is one, else a transition of the MAE.
-/

namespace Sys2Proof.Machine

/-- One step of the machine at the parameter values the spec takes (R8). -/
def step (s : State) : Host.Outcome State Fault Refusal := stepWith params exec s

/-- `s` with a table word placed where the next message step reads it, zeros after it, the run started, the sink ready and no host event
before it (70_reset_and_hazards.md R213; log 3). -/
def State.withFetchWord (s : State) (nbits w : Nat) : State :=
  { s with
    input := s.input.take s.pc ++ List.replicate (s.pc - s.input.length) 0 ++ tableBytes tableTotal nbits w
    runState := .run
    outReady := true
    events := [] }

end Sys2Proof.Machine
end

