-- ==== Sys2Proof/Machine/Render.lean ====
section
/-!
DEFINITION. The text rendering of `OUT` by the sink (41_estimator.md R142, R143).
-/

namespace Sys2Proof.Machine

/-- `dec(n)`: the decimal numeral of `n` without leading zeros, as ASCII bytes (R143). -/
def dec (n : Nat) : List Byte := (Nat.toDigits 10 n).map fun c => BitVec.ofNat 8 c.toNat

/-- `Render(S)`: integer part, ".", tenths digit, LF = 0x0A (R143). -/
def renderSample (v : Total) : List Byte :=
  dec (v.toNat / Config.window) ++ 0x2E :: (dec (v.toNat % Config.window) ++ [0x0A])

/-- The output file: one line per sample in emission order, no header, no trailer (R143). -/
def renderOut (out : List Total) : List Byte := out.flatMap renderSample

end Sys2Proof.Machine
end

