-- ==== Sys2Proof/Machine/Serial.lean ====
section
/-!
DEFINITION. The byte-serial realisation of the message step (42_byte_serial_fsm.md R160 to R170): scratch registers, one transition per
byte of `IN` or end-of-stream indication.
-/

namespace Sys2Proof.Machine

/-- `phase` (R161). -/
inductive Phase where
  | tag
  | len
  | fixed
  | str
  | var
  deriving DecidableEq, Repr

/-- The scratch registers (R161). -/
structure Scratch where
  phase   : Phase
  tagR    : Byte
  lenR    : Word
  k       : BitVec 6
  execIdR : Word
  nR      : Word
  cR      : Word
  rem     : BitVec 68
  scnt    : BitVec 11
  scap    : BitVec 12
  slast   : Bool
  hwAcc   : Weight
  deriving DecidableEq, Repr

/-- "After reset `phase = P_TAG`; the others need no reset value" (R161). DESIGN CHOICE, log 11: they are 0. -/
def Scratch.reset : Scratch :=
  { phase := .tag, tagR := 0, lenR := 0, k := 0, execIdR := 0, nR := 0, cR := 0, rem := 0, scnt := 0, scap := 0,
    slast := false, hwAcc := 0 }

/-- The byte-serial machine: the architectural state and, beside it, the scratch registers (R160). -/
structure Serial where
  arch : State
  scratch : Scratch
  deriving DecidableEq, Repr

/-- Reset of the byte-serial machine (R210, R161): the architectural state at its reset values and `phase = P_TAG`; the other scratch
registers "need no reset value" and keep theirs (log 11). -/
def Serial.resetLine (m : Serial) : Serial :=
  { arch := m.arch.resetLine, scratch := { m.scratch with phase := .tag } }

/-- `v[8i+7 : 8i] <- b` (R163, R164). -/
def setByte (v : Word) (i : Nat) (b : Byte) : Word :=
  (v &&& ~~~((0xFF : Word) <<< (8 * i))) ||| (b.setWidth 64 <<< (8 * i))

/-- Bytes of the fixed part after the header (R164): Lib 16, Exec 32, Memory 33, Thread 17. -/
def fixedLen (p : Params) (tag : Byte) : Nat :=
  if tag = p.tagLib then 16 else if tag = p.tagExec then 32 else if tag = p.tagMemory then 33 else 17

/-- What the byte at index `k` of the fixed part is latched into (R164). -/
def Scratch.latchFixed (p : Params) (b : Byte) (c : Scratch) : Scratch :=
  let k := c.k.toNat
  if c.tagR = p.tagExec then
    if k < 8 then { c with execIdR := setByte c.execIdR k b }
    else if k < 16 then c
    else if k < 24 then { c with nR := setByte c.nR (k - 16) b }
    else { c with cR := setByte c.cR (k - 24) b }
  else if c.tagR = p.tagMemory then
    if k < 8 then { c with execIdR := setByte c.execIdR k b }
    else if k < 25 then c
    else { c with cR := setByte c.cR (k - 25) b }
  else c

/-- A bounded read of capacity `cap` begins; `last` says whether it is the last field of the message. -/
def Scratch.startString (cap : BitVec 12) (last : Bool) (c : Scratch) : Scratch :=
  { c with scap := cap, scnt := 0, slast := last, phase := .str }

/-- The header is complete (R163): dispatch on `tag_r`. -/
def serialDispatch (p : Params) (m : Serial) : Serial :=
  let c := m.scratch
  if c.tagR = p.tagInfo then { m with scratch := c.startString 128 false }
  else if c.tagR = p.tagLib ∨ c.tagR = p.tagExec ∨ c.tagR = p.tagMemory ∨ c.tagR = p.tagThread then
    { m with scratch := { c with k := 0, phase := .fixed } }
  else { m with arch := m.arch.raise p (.unknownType c.tagR c.lenR) }

/-- `Commit` (R168): `Observe` with the accumulated weight; the message is complete, `phase <- P_TAG`. DESIGN CHOICE, log 15: `phase` becomes
`P_TAG` also where `Observe` raises `CtrOverflow` (R165 and R167 write it after `Commit`, R12 performs nothing after a raise, R161 calls it
don't-care). -/
def serialCommit (p : Params) (m : Serial) : Serial :=
  { arch := m.arch.observe p m.scratch.lenR m.scratch.hwAcc, scratch := { m.scratch with phase := .tag } }

/-- End of the fixed part (R165). -/
def serialEndFixed (p : Params) (m : Serial) : Serial :=
  let c := m.scratch
  if c.tagR = p.tagLib then { m with scratch := c.startString 2048 true }
  else if c.tagR = p.tagExec then
    if LengthMatches p c.lenR (execComputed p c.nR c.cR) then
      let r := BitVec.ofNat 68 (Config.execPerIns * c.nR.toNat + c.cR.toNat)
      { m with scratch := { c with rem := r, phase := if r = 0 then .tag else .var } }
    else { m with arch := m.arch.raise p (.framingExec c.execIdR c.lenR (execComputed p c.nR c.cR)) }
  else if c.tagR = p.tagMemory then
    if LengthMatches p c.lenR (memComputed p c.cR) then
      let m' : Serial := { m with scratch := { c with rem := c.cR.setWidth 68, hwAcc := 0, phase := .var } }
      if c.cR = 0 then serialCommit p m' else m'
    else { m with arch := m.arch.raise p (.framingMemory c.execIdR c.lenR (memComputed p c.cR)) }
  else { m with scratch := { c with phase := .tag } }

/-- A byte while a bounded read is in progress (R166). -/
def Scratch.stringByte (b : Byte) (c : Scratch) : Scratch :=
  let c' := { c with scnt := c.scnt + 1 }
  if b = 0 ∨ (c.scnt + 1).toNat = c.scap.toNat - 1 then
    if c.slast then { c' with phase := .tag } else c'.startString 2048 true
  else c'

/-- A byte of the variable part (R167). -/
def serialVarByte (p : Params) (b : Byte) (m : Serial) : Serial :=
  let c := m.scratch
  let m' : Serial := { m with scratch :=
    { c with
      hwAcc := if c.tagR = p.tagMemory then c.hwAcc + BitVec.ofNat 67 (popcount8 b) else c.hwAcc
      rem := c.rem - 1 } }
  if c.rem - 1 = 0 then
    if c.tagR = p.tagMemory then serialCommit p m' else { m' with scratch := { m'.scratch with phase := .tag } }
  else m'

/-- The event `byte(b)` in `RUN` (R162 to R167); the byte is consumed. -/
def serialByte (p : Params) (b : Byte) (m : Serial) : Serial :=
  let m1 : Serial := { m with arch := m.arch.advance 1 }
  let c := m.scratch
  match c.phase with
  | .tag => { m1 with scratch := { c with tagR := b, k := 0, phase := .len } }
  | .len =>
    let c' := { c with lenR := setByte c.lenR c.k.toNat b }
    if c.k.toNat < 7 then { m1 with scratch := { c' with k := c.k + 1 } }
    else serialDispatch p { m1 with scratch := c' }
  | .fixed =>
    let c' := c.latchFixed p b
    if c.k.toNat < fixedLen p c.tagR - 1 then { m1 with scratch := { c' with k := c.k + 1 } }
    else serialEndFixed p { m1 with scratch := c' }
  | .str => { m1 with scratch := c.stringByte b }
  | .var => serialVarByte p b m1

/-- The event `eos` in `RUN`: the clean end in `P_TAG` (R162), `Truncated` in every other phase (R170), with the declared length if
all its bytes were read (R180). -/
def serialEos (p : Params) (m : Serial) : Serial :=
  match m.scratch.phase with
  | .tag => { m with arch := m.arch.cleanEnd }
  | .len => { m with arch := m.arch.raise p (.truncated m.scratch.tagR 0) }
  | .fixed | .str | .var => { m with arch := m.arch.raise p (.truncated m.scratch.tagR m.scratch.lenR) }

/-- What the next byte of `IN` or its end would do; nothing when `RUN_STATE ≠ RUN` (R160). -/
def serialNext (p : Params) (m : Serial) : Option Serial :=
  if m.arch.runState = .run then
    match m.arch.rest with
    | b :: _ => some (serialByte p b m)
    | [] => some (serialEos p m)
  else none

/-- One transition, on the next byte of `IN` or its end; none when `RUN_STATE ≠ RUN` (R160), and none while the sink, not ready, has a sample to
take and the byte would complete an emitting message, or the byte or the end of the stream would end the run: that byte is not consumed, that
end of the stream not taken (R216, R222; log 6). -/
def serialStep (p : Params) (m : Serial) : Option Serial :=
  (serialNext p m).filter fun m' => ¬ m.arch.MustWait m'.arch

/-- `in_ready`: the MAE takes the byte or the end-of-stream indication it is offered (R220, R222). -/
def Serial.inReady (p : Params) (m : Serial) : Bool := (serialStep p m).isSome

/-- Exactly `n` transitions. -/
def serialRun (p : Params) : Nat → Serial → Option Serial
  | 0, m => some m
  | n + 1, m => (serialStep p m).bind (serialRun p n)

end Sys2Proof.Machine
end

