-- ==== Sys2Proof/Safety.lean ====
section
/-!
DEFINITION. What counts as a safe state, in the terms the statements use: the invariants the spec gives the machine.
-/

namespace Sys2Proof.Machine

/-- Total of the ring buffer's contents, a natural number. -/
def State.bufTotal (s : State) : Nat := (s.buf.toList.map BitVec.toNat).sum

/-- "`sum == total of current buffer contents`" (R27, R140(a)). -/
abbrev State.SumInv (s : State) : Prop := s.sum.toNat = s.bufTotal

/-- The number of memory-event indices below `ctr` that qualify: `max(0, min(ctr, B) − BOUNDMIN)`, `B = BOUNDMAX`, or infinite when
`BOUNDMAX_INF = 1` (R140(e)). -/
def State.qualified (s : State) : Nat :=
  (bif s.boundMaxInf then s.ctr.toNat else min s.ctr.toNat s.boundMax.toNat) - s.boundMin.toNat

/-- Before `START` nothing has been observed (R34, R44): the estimator is as reset left it. -/
abbrev State.IdleInv (s : State) : Prop :=
  s.runState = .idle →
    s.ctr = 0 ∧ s.cursor = 0 ∧ s.sum = 0 ∧ s.buf = Vector.replicate 10 0 ∧ s.out = [] ∧ s.pc = 0

/-- The cursor, the untouched slots and the number of samples as functions of the counter and the bounds (R140(b), (c), (e), R145 with
`WARM` = 9). -/
abbrev State.WindowInv (s : State) : Prop :=
  s.cursor.val = s.qualified % 10 ∧
  (∀ i : Fin 10, s.qualified ≤ i.val → s.buf[i] = 0) ∧
  s.out.length = s.qualified - 9

/-- The status registers agree with `RUN_STATE` (R35 to R38): an error code and exit status 1 exactly in `FATAL`, the output closed exactly
when halted, and the latches 0 before a fatal end. -/
abbrev State.StatusInv (s : State) : Prop :=
  (s.errCode ≠ .none ↔ s.runState = .fatal) ∧
  (s.outClosed = true ↔ s.runState = .done ∨ s.runState = .fatal) ∧
  (s.runState = .fatal → s.exitStatus = 1) ∧
  (s.runState ≠ .fatal →
    s.exitStatus = 0 ∧ s.errTag = 0 ∧ s.errExecId = 0 ∧ s.errDeclared = 0 ∧ s.errComputed = 0)

/-- The diagnostic latches fit the cause reported (R36, R180): the tag the cause names; an execution identifier and a computed length only for
the two framing violations, whose declared and computed lengths differ; and `ctr` at its last value for a counter overflow (R137). -/
abbrev State.LatchInv (s : State) : Prop :=
  (s.errCode ≠ .framingExec → s.errCode ≠ .framingMemory → s.errExecId = 0 ∧ s.errComputed = 0) ∧
  (s.errCode = .framingExec ∨ s.errCode = .framingMemory → s.errDeclared.toNat ≠ s.errComputed.toNat) ∧
  (s.errCode = .unknownType → 0x05 ≤ s.errTag.toNat) ∧
  (s.errCode = .framingExec → s.errTag = 0x02) ∧
  (s.errCode = .framingMemory → s.errTag = 0x03) ∧
  (s.errCode = .ctrOverflow → s.errTag = 0x03 ∧ s.ctr.toNat = 2 ^ 64 - 1)

/-- The sink's progress (R43, R222, R38): at most one sample outstanding, none while the sink is ready, none once the output is closed. -/
abbrev State.SinkInv (s : State) : Prop :=
  s.delivered ≤ s.out.length ∧ s.out.length ≤ s.delivered + 1 ∧
  (s.outReady = true → s.delivered = s.out.length) ∧
  (s.outClosed = true → s.delivered = s.out.length)

/-- The eight bytes at offset `off` of `bs` as a 64-bit field (R51): statements name fields by their place in a message. -/
def field64 (bs : List Byte) (off : Nat) : Word := le64 ((bs.drop off).take 8)

/-- What 30_encoding.md R78 says of the number `n` of bytes a `BoundedRead(cap)` consumes from `bs`: no NUL before the last of them, and
the last is a NUL or the `cap − 1`-th byte. -/
abbrev ReadEnds (cap : Nat) (bs : List Byte) (n : Nat) : Prop :=
  1 ≤ n ∧ n ≤ cap - 1 ∧ n ≤ bs.length ∧ (∀ b ∈ bs.take (n - 1), b ≠ 0) ∧
  (n = cap - 1 ∨ bs[n - 1]? = some 0)

/-- The fatal end with every field it leaves (R190), as statements spell it out. -/
def State.fatalWith (code : ErrCode) (tag : Byte) (execId declared : Word) (computed : Comp) (s : State) : State :=
  { s with
    errCode := code, errTag := tag, errExecId := execId, errDeclared := declared, errComputed := computed,
    exitStatus := 1, delivered := s.out.length, outClosed := true, runState := .fatal }

/-- `n` steps, stopping where a step answers no next state. -/
def steps : Nat → State → Host.Outcome State Fault Refusal
  | 0, s => .next s
  | n + 1, s =>
    match step s with
    | .next t => steps n t
    | .fault r => .fault r
    | .refused r => .refused r

/-- The estimator and `OUT`'s content are the same (R57, R191). -/
abbrev State.SameEstimator (s t : State) : Prop :=
  t.buf = s.buf ∧ t.sum = s.sum ∧ t.cursor = s.cursor ∧ t.ctr = s.ctr ∧ t.out = s.out

/-- The configuration registers, `IN`, `out_ready` and what the outside will do are the same (R32, R62, R220). -/
abbrev State.SameOutside (s t : State) : Prop :=
  t.boundMin = s.boundMin ∧ t.boundMax = s.boundMax ∧ t.boundMaxInf = s.boundMaxInf ∧
  t.input = s.input ∧ t.outReady = s.outReady ∧ t.events = s.events

/-- The status registers are the same (R20). -/
abbrev State.SameStatus (s t : State) : Prop :=
  t.runState = s.runState ∧ t.errCode = s.errCode ∧ t.errTag = s.errTag ∧ t.errExecId = s.errExecId ∧
  t.errDeclared = s.errDeclared ∧ t.errComputed = s.errComputed ∧ t.exitStatus = s.exitStatus ∧
  t.outClosed = s.outClosed

/-- Records of the given weights observed one after the other (R130), nothing else between them. -/
def State.observeAll (p : Params) : List Weight → State → State
  | [], s => s
  | w :: ws, s => State.observeAll p ws (s.observe p 0 w)

/-- The weights that qualify, of the weights of all Memory messages from index 0 on (R131). -/
def State.qualifying (s : State) (ws : List Weight) : List Weight :=
  (bif s.boundMaxInf then ws else ws.take s.boundMax.toNat).drop s.boundMin.toNat

/-- Total of a list of weights over the naturals. -/
def weightTotal (ws : List Weight) : Nat := (ws.map BitVec.toNat).sum

/-- How many of the messages are Memory messages. -/
def memoryCount (ms : List Message) : Nat :=
  ms.countP fun
    | .memory _ _ _ _ _ => true
    | .info _ _ | .lib _ _ _ | .exec _ _ _ _ | .thread _ _ _ => false

end Sys2Proof.Machine
end

