-- ==== Sys2Proof/Certificates/Slice0/Obligations.lean ====
section
/-!
DEFINITION. The statements for the provers. Each docstring names the rule of spec/ it formalises. Numeric values (tags, lengths, the threshold 9)
are written out from the spec, not taken from the model's constants.
-/

open Sys2Proof Sys2Proof.Machine

/-! ### Reset and the host's port -/

/-- R44: every reset value. -/
def Obligations.ResetStateValues : Prop :=
  (∀ i : Fin 10, State.reset.buf[i] = 0) ∧ State.reset.sum = 0 ∧ State.reset.cursor.val = 0 ∧
  State.reset.ctr = 0 ∧ State.reset.boundMin = 0 ∧ State.reset.boundMax = 0 ∧ State.reset.boundMaxInf = true ∧
  State.reset.runState = .idle ∧ State.reset.errCode.code = 0 ∧ State.reset.errTag = 0 ∧
  State.reset.errExecId = 0 ∧ State.reset.errDeclared = 0 ∧ State.reset.errComputed = 0 ∧
  State.reset.exitStatus = 0 ∧ State.reset.outClosed = false ∧ State.reset.pc = 0 ∧ State.reset.out = []

/-- R210, R211: reset is accepted in every state and puts every register at its reset value. That `IN`, the level of `out_ready` and the events
still to come are kept is the model's (logs 2, 4, 16). -/
def Obligations.ResetAcceptedInEveryState : Prop :=
  ∀ (s : State) (es : List HostEvent), s.events = .reset :: es →
    step s = .next { State.reset with input := s.input, outReady := s.outReady, events := es }

/-- R32, R40: the configuration registers are written in `IDLE`, keep their values under a write in any other state, are readable at any
time, and are never written by the MAE itself (only a host write or a reset changes them); a write in `IDLE` to a number from 0x04 on is
ignored. That writes come as events, one a step, is the model's form (log 4). -/
def Obligations.ConfigurationAccess : Prop :=
  (∀ (s : State) (data : Word) (es : List HostEvent), s.runState = .idle →
    (s.events = .write 0x00 data :: es → step s = .next { s with events := es, boundMin := data }) ∧
    (s.events = .write 0x01 data :: es → step s = .next { s with events := es, boundMax := data }) ∧
    (s.events = .write 0x02 data :: es →
      step s = .next { s with events := es, boundMaxInf := data.getLsbD 0 }) ∧
    (∀ addr : Byte, 0x04 ≤ addr.toNat → s.events = .write addr data :: es → step s = .next { s with events := es })) ∧
  (∀ (s : State) (addr : Byte) (data : Word) (es : List HostEvent), s.runState ≠ .idle →
    s.events = .write addr data :: es → step s = .next { s with events := es }) ∧
  (∀ s : State, (s.regRead 0x00).toNat = s.boundMin.toNat ∧ (s.regRead 0x01).toNat = s.boundMax.toNat ∧
    (s.regRead 0x02).toNat = if s.boundMaxInf then 1 else 0) ∧
  (∀ s t : State, step s = .next t → (∀ addr data, s.events.head? ≠ some (.write addr data)) →
    s.events.head? ≠ some .reset →
    t.boundMin = s.boundMin ∧ t.boundMax = s.boundMax ∧ t.boundMaxInf = s.boundMaxInf)

/-- R33: writing `START = 1` in `IDLE` starts the run; in any other state the write is ignored; `CONTROL` reads 0. That the write comes as an
event is the model's form (log 4). -/
def Obligations.StartControl : Prop :=
  (∀ (s : State) (data : Word) (es : List HostEvent), s.events = .write 0x03 data :: es →
    step s = .next
      { s with events := es, runState := if s.runState = .idle ∧ data.getLsbD 0 = true then .run else s.runState }) ∧
  (∀ s : State, s.regRead 0x03 = 0)

/-- R40: the register numbers, what each reads, what a write in `IDLE` does and that any other write does nothing, and that every other number
reads 0 and ignores writes. `RUN_STATE` is packed into `STATUS` with the four values of R34's table. -/
def Obligations.RegisterMap : Prop :=
  (RunState.idle.code = 0 ∧ RunState.run.code = 1 ∧ RunState.done.code = 2 ∧ RunState.fatal.code = 3) ∧
  ∀ s : State,
    (s.regRead 0x00).toNat = s.boundMin.toNat ∧ (s.regRead 0x01).toNat = s.boundMax.toNat ∧
    (s.regRead 0x02).toNat = (if s.boundMaxInf then 1 else 0) ∧ s.regRead 0x03 = 0 ∧
    (s.regRead 0x04).toNat =
      128 * s.outClosed.toNat + 32 * s.exitStatus.toNat + 4 * s.errCode.code.toNat + s.runState.code.toNat ∧
    (s.regRead 0x05).toNat = s.errTag.toNat ∧ (s.regRead 0x06).toNat = s.errExecId.toNat ∧
    (s.regRead 0x07).toNat = s.errDeclared.toNat ∧ (s.regRead 0x08).toNat = s.errComputed.toNat ∧
    (s.regRead 0x09).toNat = s.ctr.toNat ∧ (s.regRead 0x0A).toNat = s.sum.toNat ∧
    (s.regRead 0x0B).toNat = s.cursor.val ∧
    (∀ i : Fin 10, (s.regRead (BitVec.ofNat 8 (0x10 + i.val))).toNat = s.buf[i].toNat) ∧
    (∀ addr : Byte, (0x0C ≤ addr.toNat ∧ addr.toNat < 0x10) ∨ 0x1A ≤ addr.toNat → s.regRead addr = 0) ∧
    (∀ (addr : Byte) (data : Word), 0x04 ≤ addr.toNat → s.regWrite params addr data = s) ∧
    (∀ (addr : Byte) (data : Word), s.runState ≠ .idle → s.regWrite params addr data = s) ∧
    (∀ data : Word, s.runState = .idle →
      s.regWrite params 0x00 data = { s with boundMin := data } ∧ s.regWrite params 0x01 data = { s with boundMax := data } ∧
      s.regWrite params 0x02 data = { s with boundMaxInf := data.getLsbD 0 } ∧
      s.regWrite params 0x03 data = { s with runState := if data.getLsbD 0 = true then .run else .idle })

/-- R222 (samples "offered in emission order, each once"), in the model's form of it (logs 6, 16): the sink is offered the oldest sample it has
not taken, and taking it changes nothing else; a sink that becomes ready takes what is outstanding; while it is not ready and does not take one, no
step delivers a sample, whether the step emits, ends the run or does neither. R220: the other output ports are copies of the status fields, and
the MAE takes an offered byte only in `RUN`. -/
def Obligations.OutputPortsAndSink : Prop :=
  ∀ s : State,
    (s.outputs.outValid = true ↔ s.delivered < s.out.length) ∧ s.outputs.outSum = s.out[s.delivered]? ∧
    s.outputs.outClosed = s.outClosed ∧ s.outputs.runState = s.runState.code ∧ s.outputs.errCode = s.errCode.code ∧
    s.outputs.exitStatus = s.exitStatus ∧ (s.mayConsume = true ↔ s.runState = .run) ∧
    (∀ es, s.events = .accept :: es →
      step s = .next
        { s with events := es, delivered := if s.delivered < s.out.length then s.delivered + 1 else s.delivered }) ∧
    (∀ level es, s.events = .sinkReady level :: es →
      step s = .next { s with events := es, outReady := level, delivered := if level then s.out.length else s.delivered }) ∧
    (∀ t, Memory.wf s → s.outReady = false → s.events.head? ≠ some .accept → s.events.head? ≠ some (.sinkReady true) →
      s.events.head? ≠ some .reset → step s = .next t → t.delivered = s.delivered)

/-! ### Encoding -/

/-- R51: little-endian assembly of a 64-bit field. -/
def Obligations.LittleEndianAssembly : Prop :=
  ∀ b0 b1 b2 b3 b4 b5 b6 b7 : Byte,
    (le64 [b0, b1, b2, b3, b4, b5, b6, b7]).toNat =
      b0.toNat + b1.toNat * 2 ^ 8 + b2.toNat * 2 ^ 16 + b3.toNat * 2 ^ 24 + b4.toNat * 2 ^ 32 + b5.toNat * 2 ^ 40
        + b6.toNat * 2 ^ 48 + b7.toNat * 2 ^ 56

/-- R70, R71, R86: decoding the header of a well-formed instruction gives it back, with every declared length and every illegal tag,
for any five distinct tag values. -/
def Obligations.DecodeEncodeRoundTrip : Prop :=
  ∀ (p : Params) (i : Instr) (r : List Byte), p.Distinct → i.wf p = true → decode p (encode p i ++ r) = .ok (i, r)

/-- R81, R86, R102: what decodes is the header of exactly one well-formed instruction, and what does not decode is the end of the stream or
a tag with fewer than 8 bytes after it. -/
def Obligations.DecodeAcceptsOnlyHeaders : Prop :=
  ∀ (p : Params) (bs : List Byte),
    (∀ i r, decode p bs = .ok (i, r) → i.wf p = true ∧ bs = encode p i ++ r) ∧
    (decode p bs = .error .endOfStream ↔ bs = []) ∧
    (∀ tag, decode p bs = .error (.truncatedHeader tag) ↔ ∃ r, bs = tag :: r ∧ r.length < 8)

/-- R71, R70: six header words written out byte by byte. -/
def Obligations.HeaderWordsDecode : Prop :=
  decode params [0x00, 0x0D, 0, 0, 0, 0, 0, 0, 0] = .ok (.info 13, []) ∧
  decode params [0x01, 0x1B, 0, 0, 0, 0, 0, 0, 0] = .ok (.lib 27, []) ∧
  decode params [0x02, 0x29, 0, 0, 0, 0, 0, 0, 0x20] = .ok (.exec 0x2000000000000029, []) ∧
  decode params [0x03, 0x00, 0x01, 0, 0, 0, 0, 0, 0] = .ok (.memory 256, []) ∧
  decode params [0x04, 0x1A, 0, 0, 0, 0, 0, 0, 0, 0x55] = .ok (.thread 26, [0x55]) ∧
  decode params [0xFF, 9, 0, 0, 0, 0, 0, 0, 0] = .ok (.unknown 0xFF 9, [])

/-- R70, R72 to R76, R84: a message as written is exactly as long as its declared length says, and opens with the header of its type. -/
def Obligations.MessageBytesMatchTheirLength : Prop :=
  ∀ (p : Params) (m : Message) (r : List Byte), p.Distinct → m.wf = true →
    (m.bytes p).length = m.size ∧ m.size < 2 ^ 64 ∧
    decode p (m.bytes p ++ r) = .ok (instrOf p (m.tag p) (BitVec.ofNat 64 m.size), m.body ++ r) ∧
    (instrOf p (m.tag p) (BitVec.ofNat 64 m.size)).len.toNat = m.size

/-! ### The message step -/

/-- R100, R102: a step at a complete header runs the instruction it decodes to, after its 9 bytes. R222, R216: where that would emit a sample, or end
the run, while an earlier one is outstanding and the sink is not ready, the step waits instead and nothing changes. That a `quiet` event, the outside
world doing nothing, lets the same step happen is the model's choice (log 4); that `exec` starts after the 9 header bytes is the model's reading of R100
(log 1); `delivered` and `outReady` are its form of the handshake (logs 6, 16). -/
def Obligations.StepRunsDecodedInstruction : Prop :=
  ∀ (s : State) (i : Instr) (r : List Byte) (es : List HostEvent), i.wf params = true → s.runState = .run →
    s.rest = encode params i ++ r → (s.events = [] ∧ es = []) ∨ s.events = .quiet :: es →
    (s.outReady = true ∨ s.out.length ≤ s.delivered → step s = exec i { s with events := es, pc := s.pc + 9 }) ∧
    (∀ t, exec i { s with events := es, pc := s.pc + 9 } = .next t →
      step s = .next
        (if s.outReady = false ∧ s.delivered < s.out.length ∧ (s.out.length < t.out.length ∨ t.runState ≠ .run) then
          { s with events := es } else t))

/-- R222, R43: a message that would emit while a sample is outstanding and the sink is not ready stays unconsumed, however long the sink takes; once
the sink has taken the sample (by one acceptance, or by becoming ready) it has its whole effect. In the model's form (logs 4, 6, 16). -/
def Obligations.EmittingMessageWaitsForTheSink : Prop :=
  ∀ (s t : State) (i : Instr) (r : List Byte), i.wf params = true → s.runState = .run →
    s.rest = encode params i ++ r → s.outReady = false → s.out.length = s.delivered + 1 →
    exec i { s with events := [], pc := s.pc + 9 } = .next t → s.out.length < t.out.length →
    (∀ n : Nat, steps n { s with events := List.replicate n .quiet } = .next { s with events := [] }) ∧
    (∀ n : Nat, steps (n + 2) { s with events := List.replicate n .quiet ++ [.accept] } =
      .next { t with delivered := s.out.length }) ∧
    (∀ n : Nat, steps (n + 2) { s with events := List.replicate n .quiet ++ [.sinkReady true] } =
      .next { t with outReady := true, delivered := t.out.length })

/-- R216, R222: an end of the run, clean or fatal, waits as long as the sink has a sample to take and is not ready: no sample is delivered without
the sink, and `OUT_CLOSED` stays 0. Once the sink has taken it (by one acceptance, or by becoming ready) the end has its whole effect, that of the
step with a ready sink (R101, R190), with every sample delivered. That it is the whole of the end that waits is the model's inference (log 6), events,
count and readiness its form (logs 4, 6, 16). -/
def Obligations.EndOfRunWaitsForTheSink : Prop :=
  ∀ s t : State, s.runState = .run → s.outReady = false → s.out.length = s.delivered + 1 →
    step { s with events := [], outReady := true } = .next t → t.runState ≠ .run →
    t.outClosed = true ∧ t.out = s.out ∧ t.delivered = t.out.length ∧
    (∀ n : Nat, steps n { s with events := List.replicate n .quiet } = .next { s with events := [] }) ∧
    (∀ n : Nat, steps (n + 2) { s with events := List.replicate n .quiet ++ [.accept] } = .next { t with outReady := false }) ∧
    (∀ n : Nat, steps (n + 2) { s with events := List.replicate n .quiet ++ [.sinkReady true] } = .next t)

/-- R222 ("it never drops or reorders a sample"), R230: the sink's readiness decides when a message or an end of the run is taken, never what it does.
A step with a sink that is not ready waits, or does exactly what the step with a ready sink does, the sink's progress apart; at an end of the run it
waits (R216) until every sample is delivered (R101, R190). In the model's form (logs 6, 16). -/
def Obligations.SinkDecidesOnlyWhen : Prop :=
  ∀ (s t : State) (taken : Nat), s.runState = .run → s.events = [] → s.outReady = true → step s = .next t →
    step { s with outReady := false, delivered := taken } = .next
      (if taken < s.out.length ∧ (s.out.length < t.out.length ∨ t.runState ≠ .run) then
         { s with outReady := false, delivered := taken }
       else { t with outReady := false, delivered := if t.runState = .run then taken else t.out.length })

/-- R101: at end of stream on a message boundary the run ends cleanly, and nowhere else; while the sink, not ready, has a sample to take it waits
(R216, R222; log 6). -/
def Obligations.CleanEndAtEndOfStream : Prop :=
  (∀ s : State, s.StatusInv → s.runState = .run → s.events = [] → s.pc = s.input.length →
    (s.outReady = true ∨ s.out.length ≤ s.delivered →
      ∃ t, step s = .next t ∧
        t = { s with delivered := s.out.length, outClosed := true, exitStatus := 0, runState := .done } ∧
        t.errCode = .none ∧ t.errTag = 0 ∧ t.errExecId = 0 ∧ t.errDeclared = 0 ∧ t.errComputed = 0) ∧
    (s.outReady = false → s.delivered < s.out.length → step s = .next s)) ∧
  (∀ s t : State, Memory.wf s → s.runState = .run → step s = .next t → t.runState = .done → s.pc = s.input.length)

/-- R102, R186, R198: fewer than 8 bytes after a tag, legal or not, is a truncation, with no declared length; while the sink, not ready, has a sample
to take, the end waits (R216, R222; log 6). -/
def Obligations.IncompleteHeaderIsTruncated : Prop :=
  ∀ (s : State) (tag : Byte) (r : List Byte), s.runState = .run → s.events = [] → s.rest = tag :: r → r.length < 8 →
    step s = .next
      (if s.outReady = false ∧ s.delivered < s.out.length then s
       else { s with pc := s.input.length }.fatalWith .truncated tag s.errExecId 0 s.errComputed)

/-- R100: outside `RUN` there is no step of the machine by itself; that the model answers it with a fault is its own form (log 5). -/
def Obligations.NoStepOutsideRun : Prop :=
  ∀ s : State, s.events = [] →
    (s.runState = .idle → step s = .fault .idle) ∧ (s.runState = .done → step s = .fault .done) ∧
    (s.runState = .fatal → step s = .fault .fatal)

/-- R8, R71, R100: the parameters are arguments of the machine: for any five distinct tags, any `WARM` and any widths, a step at the header of a
well-formed instruction runs that instruction's meaning at those values, or waits for the sink (R222, R216); and the machine at the values the spec
takes is `step`. Where the meaning starts, that no event is pending and the form of the handshake are as in StepRunsDecodedInstruction (logs 1,
4, 6, 16). -/
def Obligations.StepForAnyParameters : Prop :=
  (∀ (p : Params) (s : State) (i : Instr) (r : List Byte), p.Distinct → i.wf p = true → s.runState = .run → s.events = [] →
    s.rest = encode p i ++ r →
    (s.outReady = true ∨ s.out.length ≤ s.delivered → stepFor p s = execFor p i { s with pc := s.pc + 9 }) ∧
    (∀ t, execFor p i { s with pc := s.pc + 9 } = .next t →
      stepFor p s = .next
        (if s.outReady = false ∧ s.delivered < s.out.length ∧ (s.out.length < t.out.length ∨ t.runState ≠ .run) then s
         else t))) ∧
  (∀ s : State, stepFor params s = step s)

/-! ### INFO, LIB, THREAD, UNKNOWN -/

/-- R105: an Info message consumes what its two bounded reads consume and nothing else changes, whatever `len`; where the stream ends before
either read has stopped it is `Truncated`. -/
def Obligations.InfoResult : Prop :=
  ∀ (len : Word) (s : State),
    (∀ m n, ReadEnds 128 s.rest m → ReadEnds 2048 (s.rest.drop m) n →
      exec (.info len) s = .next { s with pc := s.pc + m + n }) ∧
    ((∀ m n, ReadEnds 128 s.rest m → ¬ ReadEnds 2048 (s.rest.drop m) n) →
      exec (.info len) s =
        .next ({ s with pc := s.input.length }.fatalWith .truncated 0x00 s.errExecId len s.errComputed))

/-- R108: a Lib message consumes 16 bytes and what its bounded read consumes, and nothing else changes, whatever `len`; where the stream ends
inside them it is `Truncated`. -/
def Obligations.LibResult : Prop :=
  ∀ (len : Word) (s : State),
    (∀ n, 16 ≤ s.rest.length → ReadEnds 2048 (s.rest.drop 16) n →
      exec (.lib len) s = .next { s with pc := s.pc + 16 + n }) ∧
    ((s.rest.length < 16 ∨ ∀ n, ¬ ReadEnds 2048 (s.rest.drop 16) n) →
      exec (.lib len) s =
        .next ({ s with pc := s.input.length }.fatalWith .truncated 0x01 s.errExecId len s.errComputed))

/-- R119: a Thread message consumes 17 bytes after its header and nothing else changes, whatever `len` and `event_type`; where fewer remain
it is `Truncated`. -/
def Obligations.ThreadResult : Prop :=
  ∀ (len : Word) (s : State),
    (17 ≤ s.rest.length → exec (.thread len) s = .next { s with pc := s.pc + 17 }) ∧
    (s.rest.length < 17 →
      exec (.thread len) s =
        .next ({ s with pc := s.input.length }.fatalWith .truncated 0x04 s.errExecId len s.errComputed))

/-- R120: a tag outside the five ends the run after the 9 header bytes, with the tag and the declared length latched; the declared length
skips nothing. While the sink, not ready, has a sample to take, the step waits (R216, R222; log 6). -/
def Obligations.UnknownTagIsFatal : Prop :=
  (∀ (tag : Byte) (len : Word) (s : State),
    exec (.unknown tag len) s = .next (s.fatalWith .unknownType tag s.errExecId len s.errComputed)) ∧
  (∀ (s : State) (tag : Byte) (r : List Byte), 0x05 ≤ tag.toNat → s.runState = .run → s.events = [] →
    s.rest = tag :: r → 8 ≤ r.length →
    step s = .next
      (if s.outReady = false ∧ s.delivered < s.out.length then s
       else { s with pc := s.pc + 9 }.fatalWith .unknownType tag s.errExecId (field64 r 0) s.errComputed))

/-- R78: a bounded read consumes the bytes up to and including the first NUL, at most `cap − 1`; it fails only where the stream ends first. -/
def Obligations.BoundedReadConsumption : Prop :=
  ∀ (cap : Nat) (s : State), cap = 128 ∨ cap = 2048 →
    (∀ t, s.boundedRead cap = some t ↔ ∃ n, ReadEnds cap s.rest n ∧ t = { s with pc := s.pc + n }) ∧
    (s.boundedRead cap = none ↔ s.rest.length < cap - 1 ∧ ∀ b ∈ s.rest, b ≠ 0)

/-- R79: a string that fits is consumed whole with its NUL; an oversize one is cut after `cap − 1` bytes, none of them NUL. -/
def Obligations.StringConsumption : Prop :=
  ∀ (cap : Nat) (s : State) (str r : List Byte), cap = 128 ∨ cap = 2048 → (∀ b ∈ str, b ≠ 0) →
    s.rest = str ++ 0 :: r →
    (str.length ≤ cap - 2 → s.boundedRead cap = some { s with pc := s.pc + (str.length + 1) }) ∧
    (cap - 1 ≤ str.length →
      s.boundedRead cap = some { s with pc := s.pc + (cap - 1) } ∧ ∀ b ∈ s.rest.take (cap - 1), b ≠ 0)

/-! ### EXEC -/

/-- R111: an Exec message whose declared length is `41 + 9n + c` and whose bytes are all there is skipped; nothing but `pc` changes. -/
def Obligations.ExecSkipsValidMessage : Prop :=
  ∀ (len : Word) (s : State) (n c : Nat), n = (field64 s.rest 16).toNat → c = (field64 s.rest 24).toNat →
    len.toNat = 41 + 9 * n + c → 32 + 9 * n + c ≤ s.rest.length →
    exec (.exec len) s = .next { s with pc := s.pc + (32 + 9 * n + c) }

/-- R112, R113, R182: an Exec message whose declared length is not `41 + 9n + c` over the naturals is a framing violation, found after the
four fixed fields, before any later byte; the computed length is latched exactly. -/
def Obligations.ExecFramingViolation : Prop :=
  ∀ (len : Word) (s : State) (n c : Nat), n = (field64 s.rest 16).toNat → c = (field64 s.rest 24).toNat →
    32 ≤ s.rest.length → len.toNat ≠ 41 + 9 * n + c →
    ∃ computed : Comp, computed.toNat = 41 + 9 * n + c ∧
      exec (.exec len) s =
        .next ({ s with pc := s.pc + 32 }.fatalWith .framingExec 0x02 (field64 s.rest 0) len computed)

/-- R111, R186: an Exec message cut short inside its fixed fields, or inside its variable part when its declared length is right, is
`Truncated`. -/
def Obligations.ExecTruncated : Prop :=
  ∀ (len : Word) (s : State) (n c : Nat), n = (field64 s.rest 16).toNat → c = (field64 s.rest 24).toNat →
    (s.rest.length < 32 ∨
      (32 ≤ s.rest.length ∧ len.toNat = 41 + 9 * n + c ∧ s.rest.length < 32 + 9 * n + c)) →
    exec (.exec len) s =
      .next ({ s with pc := s.input.length }.fatalWith .truncated 0x02 s.errExecId len s.errComputed)

/-! ### MEMORY and the estimator -/

/-- R132, R133: the Hamming weight is the number of set bits over all bytes, at most 8 a byte, whatever the order of the bytes. -/
def Obligations.HammingWeightCountsSetBits : Prop :=
  (∀ data : List Byte,
    hammingWeight data = (data.map fun b => (List.finRange 8).countP fun j => b.getLsbD j.val).sum ∧
    hammingWeight data ≤ 8 * data.length ∧ ∀ data', data.Perm data' → hammingWeight data' = hammingWeight data) ∧
  hammingWeight [0x00] = 0 ∧ hammingWeight [0xFF] = 8 ∧ hammingWeight [0x01, 0x02, 0x04] = 3

/-- R130, R134, R135, R136: a valid, complete Memory message whose index qualifies writes its Hamming weight into the slot at the cursor, moves
sum and cursor, counts, and emits the new sum from the tenth qualifying record on, which a ready sink takes at once (logs 6, 16); nothing else
changes. -/
def Obligations.MemoryFoldsQualifyingRecord : Prop :=
  ∀ (len : Word) (s : State) (d : Nat) (data : List Byte), d = (field64 s.rest 25).toNat →
    33 + d ≤ s.rest.length → data = (s.rest.drop 33).take d → len.toNat = 42 + d → s.ctr.toNat < 2 ^ 64 - 1 →
    s.boundMin.toNat ≤ s.ctr.toNat → (s.boundMaxInf = true ∨ s.ctr.toNat < s.boundMax.toNat) →
    ∃ (hw : Weight) (total : Total), hw.toNat = hammingWeight data ∧
      total = (s.sum - s.buf[s.cursor].setWidth 71) + hw.setWidth 71 ∧
      exec (.memory len) s = .next
        { s with
          pc := s.pc + (33 + d)
          buf := s.buf.set s.cursor hw
          sum := total
          cursor := ⟨(s.cursor.val + 1) % 10, Nat.mod_lt _ (by decide)⟩
          ctr := s.ctr + 1
          out := if 9 ≤ s.ctr.toNat - s.boundMin.toNat then s.out ++ [total] else s.out
          delivered := if 9 ≤ s.ctr.toNat - s.boundMin.toNat ∧ s.outReady = true then s.out.length + 1 else s.delivered }

/-- R147, R117: a valid, complete Memory message whose index is outside the bounds is consumed and counted; nothing else changes. -/
def Obligations.MemoryCountsRecordOutOfRange : Prop :=
  ∀ (len : Word) (s : State) (d : Nat), d = (field64 s.rest 25).toNat → 33 + d ≤ s.rest.length →
    len.toNat = 42 + d → s.ctr.toNat < 2 ^ 64 - 1 →
    (s.ctr.toNat < s.boundMin.toNat ∨ (s.boundMaxInf = false ∧ s.boundMax.toNat ≤ s.ctr.toNat)) →
    exec (.memory len) s = .next { s with pc := s.pc + (33 + d), ctr := s.ctr + 1 }

/-- R116, R183: a Memory message whose declared length is not `42 + d` over the naturals is a framing violation, found after `data_length`,
before any payload byte; it is not observed. -/
def Obligations.MemoryFramingViolation : Prop :=
  ∀ (len : Word) (s : State) (d : Nat), d = (field64 s.rest 25).toNat → 33 ≤ s.rest.length → len.toNat ≠ 42 + d →
    ∃ computed : Comp, computed.toNat = 42 + d ∧
      exec (.memory len) s =
        .next ({ s with pc := s.pc + 33 }.fatalWith .framingMemory 0x03 (field64 s.rest 0) len computed)

/-- R115, R186: a Memory message cut short inside its fixed fields, or inside its payload when its declared length is right, is `Truncated` and
not observed. -/
def Obligations.MemoryTruncated : Prop :=
  ∀ (len : Word) (s : State) (d : Nat), d = (field64 s.rest 25).toNat →
    (s.rest.length < 33 ∨ (33 ≤ s.rest.length ∧ len.toNat = 42 + d ∧ s.rest.length < 33 + d)) →
    exec (.memory len) s =
      .next ({ s with pc := s.input.length }.fatalWith .truncated 0x03 s.errExecId len s.errComputed)

/-- R137, R187: a valid, complete Memory message at `ctr = 2^64 − 1` is `CtrOverflow` before any other effect, whatever the bounds. -/
def Obligations.MemoryCounterOverflow : Prop :=
  ∀ (len : Word) (s : State) (d : Nat), d = (field64 s.rest 25).toNat → 33 + d ≤ s.rest.length →
    len.toNat = 42 + d → s.ctr.toNat = 2 ^ 64 - 1 →
    exec (.memory len) s =
      .next ({ s with pc := s.pc + (33 + d) }.fatalWith .ctrOverflow 0x03 s.errExecId len s.errComputed)

/-- R134, R139: while `sum` is the total of the window, the window update is exact over the naturals (the subtraction does not go below zero
and the sum does not wrap), only the slot at the cursor changes, and the cursor moves on modulo 10. -/
def Obligations.WindowUpdateIsExact : Prop :=
  ∀ (s : State) (hw : Weight), s.SumInv →
    s.buf[s.cursor].toNat ≤ s.sum.toNat ∧
    (s.updateWindow params hw).sum.toNat = s.sum.toNat - s.buf[s.cursor].toNat + hw.toNat ∧
    (∀ i : Fin 10, (s.updateWindow params hw).buf[i] = if i = s.cursor then hw else s.buf[i]) ∧
    (s.updateWindow params hw).cursor.val = (s.cursor.val + 1) % 10

/-- R82: fields the MAE discards make no difference: two valid Memory messages with the same payload at the same place leave the same state,
whatever their identifiers, addresses and access modes. -/
def Obligations.DiscardedMemoryFieldsHaveNoEffect : Prop :=
  ∀ (s t : State) (input' : List Byte) (i i' a a' b b' : Word) (m m' : Byte) (data r r' : List Byte),
    (Message.memory i a m b data).wf = true → s.runState = .run → s.events = [] →
    s.rest = (Message.memory i a m b data).bytes params ++ r →
    { s with input := input' }.rest = (Message.memory i' a' m' b' data).bytes params ++ r' →
    step s = .next t → step { s with input := input' } = .next { t with input := input' }

/-! ### Fatal entry, frames, whole-machine rules -/

/-- R190, R180, R35: the fatal entry of a running machine, cause by cause: the latches the cause lists and 0 in the others, its code, exit
status 1, the output delivered and closed, `FATAL`, and nothing else. -/
def Obligations.FatalEntryByCause : Prop :=
  ∀ (s : State) (tag : Byte) (execId declared : Word) (computed : Comp), s.StatusInv → s.runState = .run →
    s.raise params (.unknownType tag declared) = s.fatalWith .unknownType tag 0 declared 0 ∧
    s.raise params (.framingExec execId declared computed) = s.fatalWith .framingExec 0x02 execId declared computed ∧
    s.raise params (.framingMemory execId declared computed)
      = s.fatalWith .framingMemory 0x03 execId declared computed ∧
    s.raise params (.truncated tag declared) = s.fatalWith .truncated tag 0 declared 0 ∧
    s.raise params (.ctrOverflow declared) = s.fatalWith .ctrOverflow 0x03 0 declared 0 ∧
    ErrCode.none.code = 0 ∧ ErrCode.unknownType.code = 1 ∧ ErrCode.framingExec.code = 2 ∧
    ErrCode.framingMemory.code = 3 ∧ ErrCode.truncated.code = 4 ∧ ErrCode.ctrOverflow.code = 5

/-- R191, R57: a step that ends the run fatally leaves the estimator, `OUT`, the configuration and `IN` as they were. -/
def Obligations.FatalEndIsPrecise : Prop :=
  ∀ s t : State, s.runState ≠ .fatal → step s = .next t → t.runState = .fatal →
    s.SameEstimator t ∧ t.boundMin = s.boundMin ∧ t.boundMax = s.boundMax ∧ t.boundMaxInf = s.boundMaxInf ∧
    t.input = s.input ∧ t.outClosed = true ∧ t.delivered = t.out.length ∧ t.exitStatus = 1 ∧ t.errCode ≠ .none

/-- R22, R136: no message other than Memory touches the window, `sum`, `cursor`, `ctr` or `OUT`. -/
def Obligations.OnlyMemoryTouchesTheEstimator : Prop :=
  ∀ (i : Instr) (s t : State), (∀ len, i ≠ .memory len) → exec i s = .next t → s.SameEstimator t

/-- R123, R25, R62: no message writes a configuration register or `IN`; a status register changes only by the fatal entry; `pc` never goes back
and never passes the end of `IN`. -/
def Obligations.MessageFrame : Prop :=
  ∀ (i : Instr) (s t : State), exec i s = .next t →
    s.SameOutside t ∧ (s.SameStatus t ∨ t.runState = .fatal) ∧
    (s.pc ≤ s.input.length → s.pc ≤ t.pc ∧ t.pc ≤ t.input.length)

/-- R34, R192, R214: `IDLE` is left by `START` alone, `RUN` by an end of the run, and only reset leads back to `IDLE` or out of a halt. -/
def Obligations.RunStateTransitions : Prop :=
  ∀ s t : State, step s = .next t →
    t.runState = s.runState ∨
    (s.runState = .idle ∧ t.runState = .run ∧
      ∃ data es, s.events = .write 0x03 data :: es ∧ data.getLsbD 0 = true) ∨
    (s.runState = .run ∧ (t.runState = .done ∨ t.runState = .fatal)) ∨
    (t.runState = .idle ∧ ∃ es, s.events = .reset :: es)

/-- R56, R135: without a reset, `OUT` only grows, by at most one sample a step, and only in `RUN`. -/
def Obligations.OutputOnlyGrows : Prop :=
  ∀ s t : State, step s = .next t → s.events.head? ≠ some .reset →
    ∃ l : List Total, t.out = s.out ++ l ∧ l.length ≤ 1 ∧ (s.runState ≠ .run → l = [])

/-- R29, R136, R232: without a reset, `ctr` never decreases; it grows by one, and only in a step on a message whose tag is Memory. -/
def Obligations.CounterCountsMemoryMessages : Prop :=
  ∀ s t : State, step s = .next t → s.events.head? ≠ some .reset →
    t.ctr = s.ctr ∨ (t.ctr.toNat = s.ctr.toNat + 1 ∧ s.runState = .run ∧ s.rest.head? = some 0x03)

/-- R62, R64: nothing writes `IN`. -/
def Obligations.InputIsNeverWritten : Prop :=
  ∀ s t : State, step s = .next t → t.input = s.input

/-! ### Invariants that every step keeps -/

/-- The reset state meets every invariant below. -/
def Obligations.ResetMeetsInvariants : Prop :=
  State.reset.SumInv ∧ State.reset.IdleInv ∧ State.reset.WindowInv ∧ State.reset.StatusInv ∧
  State.reset.LatchInv ∧ State.reset.SinkInv ∧ Memory.wf State.reset

/-- R27, R140(a): `sum` is the total of the ring buffer's contents, kept by every step from every state. -/
def Obligations.StepKeepsSumInv : Prop :=
  ∀ s t : State, s.SumInv → step s = .next t → t.SumInv

/-- R140(b), (c), (e), R145, R28: cursor, untouched slots and number of samples are the functions of `ctr` and the bounds the spec gives. -/
def Obligations.StepKeepsWindowInv : Prop :=
  ∀ s t : State, s.IdleInv → s.WindowInv → step s = .next t → t.IdleInv ∧ t.WindowInv

/-- R35 to R38: the status registers agree with `RUN_STATE`. -/
def Obligations.StepKeepsStatusInv : Prop :=
  ∀ s t : State, s.StatusInv → step s = .next t → t.StatusInv

/-- R36, R180, R137: after a fatal end the latches and `ctr` fit the cause reported: the tag it names, no execution identifier and no computed
length unless it is a framing violation, and then two lengths that differ. -/
def Obligations.StepKeepsLatchInv : Prop :=
  ∀ s t : State, s.StatusInv → s.LatchInv → step s = .next t → t.LatchInv

/-- R24, R43, R222, R231: `pc` stays within `IN`; at most one sample is outstanding, none while the sink is ready, none once `OUT_CLOSED = 1`. The
count of delivered samples and the sink's readiness are the model's form (logs 6, 16). -/
def Obligations.StepKeepsStreamPositions : Prop :=
  ∀ s t : State, s.StatusInv → s.SinkInv → Memory.wf s → step s = .next t → t.SinkInv ∧ Memory.wf t

/-! ### Headline results -/

/-- R140(c), (d), R141: from a fresh estimator, after records of weights `ws`, the window holds the last ten qualifying weights, `sum` is their
total, and the samples are the totals of every ten consecutive qualifying weights. -/
def Obligations.SamplesAreTenRecordTotals : Prop :=
  ∀ (s t : State) (ws hs : List Weight), s.buf = Vector.replicate 10 0 → s.sum = 0 → s.cursor = 0 → s.ctr = 0 →
    s.out = [] → ws.length < 2 ^ 64 → hs = s.qualifying ws → t = s.observeAll params ws →
    t.ctr.toNat = ws.length ∧
    t.sum.toNat = weightTotal (hs.drop (hs.length - 10)) ∧
    (∀ (j : Nat) (h : j < hs.length), hs.length ≤ j + 10 → t.buf[j % 10]'(Nat.mod_lt _ (by decide)) = hs[j]) ∧
    t.out.map BitVec.toNat = (List.range (hs.length - 9)).map fun j => weightTotal ((hs.drop j).take 10)

/-- R145, R146 with `WARM` an argument (R8): whatever the threshold, a fresh estimator emits as many samples as records qualify, less `WARM`. -/
def Obligations.SampleCountForAnyThreshold : Prop :=
  ∀ (w : Nat) (s : State) (ws : List Weight), s.ctr = 0 → s.out = [] → ws.length < 2 ^ 64 →
    (s.observeAll { params with warm := w } ws).out.length = (s.qualifying ws).length - w

/-- R8: each width is that of its registers: at any values of the parameters, what `Observe` and the register port write into a slot, `sum`, a
sample, `cursor`, `ctr` and the bounds, and what the length checks compute, fits the width. That a value too wide loses its high bits, and that
`CtrOverflow` comes at `2^CTR_W − 1` at a narrower `ctr`, is the model's choice (log 14). -/
def Obligations.WidthsBoundTheRegisters : Prop :=
  (∀ (p : Params) (s t : State) (declared : Word) (hw : Weight), t = s.observe p declared hw →
    (∀ i : Fin 10, s.buf[i].toNat < 2 ^ p.sampleW) → s.sum.toNat < 2 ^ p.sumW → s.cursor.val < 2 ^ p.cursorW →
    s.ctr.toNat < 2 ^ p.ctrW → (∀ v ∈ s.out, v.toNat < 2 ^ p.sumW) →
    (∀ i : Fin 10, t.buf[i].toNat < 2 ^ p.sampleW) ∧ t.sum.toNat < 2 ^ p.sumW ∧ t.cursor.val < 2 ^ p.cursorW ∧
    t.ctr.toNat < 2 ^ p.ctrW ∧ (∀ v ∈ t.out, v.toNat < 2 ^ p.sumW)) ∧
  (∀ (p : Params) (s t : State) (addr : Byte) (data : Word), t = s.regWrite p addr data →
    s.boundMin.toNat < 2 ^ p.ctrW → s.boundMax.toNat < 2 ^ p.ctrW →
    t.boundMin.toNat < 2 ^ p.ctrW ∧ t.boundMax.toNat < 2 ^ p.ctrW) ∧
  (∀ (p : Params) (n c : Word), (execComputed p n c).toNat < 2 ^ p.compW ∧ (memComputed p n).toNat < 2 ^ p.compW)

/-- R80, R121, R226: a well-formed message other than Memory is consumed exactly, and nothing else changes; for Info, Lib and Thread whatever
declared length it is written with. -/
def Obligations.SkippedMessageConsumedExactly : Prop :=
  ∀ (s : State) (m : Message) (len : Word) (r : List Byte), m.wf = true →
    (∀ i a c b data, m ≠ .memory i a c b data) →
    ((∃ i u instrs code, m = .exec i u instrs code) → len.toNat = m.size) →
    s.runState = .run → s.events = [] → s.rest = m.bytesWithLen params len ++ r →
    step s = .next { s with pc := s.pc + m.size }

/-- R83: a stream of well-formed messages is consumed exactly to its end and the run ends `DONE`, one step a message and one for the end, every
Memory message counted. The sink is taken to be ready throughout (R230's assumption that it accepts each sample; log 16); for any other sink,
AnySinkGivesAStageOfTheSameRun. -/
def Obligations.WellFormedStreamEndsDone : Prop :=
  ∀ (s : State) (ms : List Message), (∀ m ∈ ms, m.wf = true) → s.runState = .run → s.events = [] → s.outReady = true →
    s.rest = streamOf params ms → Memory.wf s → s.ctr.toNat + memoryCount ms < 2 ^ 64 →
    ∃ t : State, steps (ms.length + 1) s = .next t ∧ t.runState = .done ∧ t.exitStatus = 0 ∧
      t.pc = t.input.length ∧ t.ctr.toNat = s.ctr.toNat + memoryCount ms

/-- R15, R25: whatever the stream, a run left to itself halts, in `DONE` or `FATAL`, after at most one step per remaining byte and one more. The
sink is taken to be ready throughout (R230; log 16). -/
def Obligations.EveryRunHalts : Prop :=
  ∀ s : State, s.runState = .run → s.events = [] → s.outReady = true → Memory.wf s →
    ∃ (k : Nat) (t : State), k ≤ s.input.length - s.pc + 1 ∧ steps k s = .next t ∧
      (t.runState = .done ∨ t.runState = .fatal)

/-- R222, R61: whatever the sink does, and however long it takes, the run goes through the stages of the run with a ready sink, in order and none
left out: after any sequence of sink events and idle turns the machine stands where that run stands after some number of its own steps, the
sink's progress apart. In the model's form (logs 4, 6, 16). -/
def Obligations.AnySinkGivesAStageOfTheSameRun : Prop :=
  ∀ s : State, (∀ e ∈ s.events, e = .quiet ∨ e = .accept ∨ ∃ level, e = .sinkReady level) → s.runState = .run →
    ∃ (j : Nat) (u v : State), steps s.events.length s = .next u ∧ j ≤ s.events.length ∧
      steps j { s with events := [], outReady := true } = .next v ∧
      u = { v with events := [], outReady := u.outReady, delivered := u.delivered }

/-- R169, R170: the byte-serial machine, started at a message boundary whatever its other scratch registers hold, reaches exactly the
architectural state of the message step and is back in `P_TAG` unless the run has halted; until its last transition nothing
architectural but `pc` changes. Where the message would emit or end the run and the sink, not ready, has a sample still to take, it stops before
that last transition instead: ByteSerialWithholdsCompletingByte (R222; logs 6, 16). -/
def Obligations.ByteSerialRefinesMessageStep : Prop :=
  ∀ (m : Serial) (t : State), m.scratch.phase = .tag → m.arch.runState = .run → Memory.wf m.arch →
    messageStep m.arch = .next t →
    m.arch.outReady = true ∨ m.arch.out.length ≤ m.arch.delivered ∨
      (t.out.length ≤ m.arch.out.length ∧ t.runState = .run) →
    ∃ (k : Nat) (m' : Serial), 1 ≤ k ∧ serialRun params k m = some m' ∧ m'.arch = t ∧
      (t.runState = .run → m'.scratch.phase = .tag) ∧
      ∀ j < k, ∃ mj, serialRun params j m = some mj ∧ mj.arch = { m.arch with pc := m.arch.pc + j }

/-- R222, R216, R168: where the next message emits or ends the run, with a sample outstanding and the sink not ready, the byte-serial machine consumes
every byte but the one that completes the message or ends the run, and does not take that one, nor the end of the stream where that is what ends the
run (`in_ready` is 0); once the sink has taken the sample, that byte or end of the stream has the whole effect. That an end of the run is withheld
like a completing byte is the model's inference (log 6), the form of the handshake its own (logs 6, 16). -/
def Obligations.ByteSerialWithholdsCompletingByte : Prop :=
  ∀ (m : Serial) (t : State), m.scratch.phase = .tag → m.arch.runState = .run → Memory.wf m.arch →
    messageStep m.arch = .next t → m.arch.outReady = false → m.arch.out.length = m.arch.delivered + 1 →
    m.arch.out.length < t.out.length ∨ t.runState ≠ .run →
    ∃ (k : Nat) (m1 m2 : Serial), serialRun params k m = some m1 ∧ m1.arch = { m.arch with pc := m.arch.pc + k } ∧
      (t.pc = m.arch.pc + k + 1 ∨ (t.pc = m.arch.pc + k ∧ t.pc = m.arch.input.length ∧ t.runState ≠ .run)) ∧
      m1.inReady params = false ∧
      serialStep params { m1 with arch := m1.arch.accept } = some m2 ∧ (t.runState = .run → m2.scratch.phase = .tag) ∧
      m2.arch = { t with delivered := m.arch.out.length }

/-- R143: a sample is rendered as its integer part, ".", its tenths and LF, each numeral the decimal one without leading zeros; the file is the
samples' lines one after the other. -/
def Obligations.RenderingIsExact : Prop :=
  (∀ n : Nat,
    (dec n).foldl (fun acc b => 10 * acc + (b.toNat - 0x30)) 0 = n ∧
    (∀ b ∈ dec n, 0x30 ≤ b.toNat ∧ b.toNat ≤ 0x39) ∧
    (n ≠ 0 → (dec n).head? ≠ some 0x30) ∧ dec 0 = [0x30]) ∧
  (∀ v : Total, renderSample v = dec (v.toNat / 10) ++ [0x2E] ++ dec (v.toNat % 10) ++ [0x0A]) ∧
  renderOut [] = [] ∧
  (∀ (v : Total) (out : List Total), renderOut (v :: out) = renderSample v ++ renderOut out) ∧
  renderOut [40, 44, 0, 7] =
    [0x34, 0x2E, 0x30, 0x0A, 0x34, 0x2E, 0x34, 0x0A, 0x30, 0x2E, 0x30, 0x0A, 0x30, 0x2E, 0x37, 0x0A] ∧
  renderSample 123 = [0x31, 0x32, 0x2E, 0x33, 0x0A]
end

