-- ==== Sys2Proof/Laws/State.lean ====
section
/-!
SUPPORT. What each named update of the state does to each field, one lemma per field per update.
-/

namespace Sys2Proof.Machine

/-! ### `advance`, `emit`, `accept`, `setOutReady` -/

@[simp] theorem State.advance_buf (n : Nat) (s : State) : (s.advance n).buf = s.buf := rfl
@[simp] theorem State.advance_sum (n : Nat) (s : State) : (s.advance n).sum = s.sum := rfl
@[simp] theorem State.advance_cursor (n : Nat) (s : State) : (s.advance n).cursor = s.cursor := rfl
@[simp] theorem State.advance_ctr (n : Nat) (s : State) : (s.advance n).ctr = s.ctr := rfl
@[simp] theorem State.advance_boundMin (n : Nat) (s : State) : (s.advance n).boundMin = s.boundMin := rfl
@[simp] theorem State.advance_boundMax (n : Nat) (s : State) : (s.advance n).boundMax = s.boundMax := rfl
@[simp] theorem State.advance_boundMaxInf (n : Nat) (s : State) : (s.advance n).boundMaxInf = s.boundMaxInf := rfl
@[simp] theorem State.advance_runState (n : Nat) (s : State) : (s.advance n).runState = s.runState := rfl
@[simp] theorem State.advance_errCode (n : Nat) (s : State) : (s.advance n).errCode = s.errCode := rfl
@[simp] theorem State.advance_errTag (n : Nat) (s : State) : (s.advance n).errTag = s.errTag := rfl
@[simp] theorem State.advance_errExecId (n : Nat) (s : State) : (s.advance n).errExecId = s.errExecId := rfl
@[simp] theorem State.advance_errDeclared (n : Nat) (s : State) : (s.advance n).errDeclared = s.errDeclared := rfl
@[simp] theorem State.advance_errComputed (n : Nat) (s : State) : (s.advance n).errComputed = s.errComputed := rfl
@[simp] theorem State.advance_exitStatus (n : Nat) (s : State) : (s.advance n).exitStatus = s.exitStatus := rfl
@[simp] theorem State.advance_pc (n : Nat) (s : State) : (s.advance n).pc = s.pc + n := rfl
@[simp] theorem State.advance_input (n : Nat) (s : State) : (s.advance n).input = s.input := rfl
@[simp] theorem State.advance_out (n : Nat) (s : State) : (s.advance n).out = s.out := rfl
@[simp] theorem State.advance_outClosed (n : Nat) (s : State) : (s.advance n).outClosed = s.outClosed := rfl
@[simp] theorem State.advance_delivered (n : Nat) (s : State) : (s.advance n).delivered = s.delivered := rfl
@[simp] theorem State.advance_outReady (n : Nat) (s : State) : (s.advance n).outReady = s.outReady := rfl
@[simp] theorem State.advance_events (n : Nat) (s : State) : (s.advance n).events = s.events := rfl

@[simp] theorem State.emit_buf (v : Total) (s : State) : (s.emit v).buf = s.buf := rfl
@[simp] theorem State.emit_sum (v : Total) (s : State) : (s.emit v).sum = s.sum := rfl
@[simp] theorem State.emit_cursor (v : Total) (s : State) : (s.emit v).cursor = s.cursor := rfl
@[simp] theorem State.emit_ctr (v : Total) (s : State) : (s.emit v).ctr = s.ctr := rfl
@[simp] theorem State.emit_boundMin (v : Total) (s : State) : (s.emit v).boundMin = s.boundMin := rfl
@[simp] theorem State.emit_boundMax (v : Total) (s : State) : (s.emit v).boundMax = s.boundMax := rfl
@[simp] theorem State.emit_boundMaxInf (v : Total) (s : State) : (s.emit v).boundMaxInf = s.boundMaxInf := rfl
@[simp] theorem State.emit_runState (v : Total) (s : State) : (s.emit v).runState = s.runState := rfl
@[simp] theorem State.emit_errCode (v : Total) (s : State) : (s.emit v).errCode = s.errCode := rfl
@[simp] theorem State.emit_errTag (v : Total) (s : State) : (s.emit v).errTag = s.errTag := rfl
@[simp] theorem State.emit_errExecId (v : Total) (s : State) : (s.emit v).errExecId = s.errExecId := rfl
@[simp] theorem State.emit_errDeclared (v : Total) (s : State) : (s.emit v).errDeclared = s.errDeclared := rfl
@[simp] theorem State.emit_errComputed (v : Total) (s : State) : (s.emit v).errComputed = s.errComputed := rfl
@[simp] theorem State.emit_exitStatus (v : Total) (s : State) : (s.emit v).exitStatus = s.exitStatus := rfl
@[simp] theorem State.emit_pc (v : Total) (s : State) : (s.emit v).pc = s.pc := rfl
@[simp] theorem State.emit_input (v : Total) (s : State) : (s.emit v).input = s.input := rfl
@[simp] theorem State.emit_out (v : Total) (s : State) : (s.emit v).out = s.out ++ [v] := rfl
@[simp] theorem State.emit_outClosed (v : Total) (s : State) : (s.emit v).outClosed = s.outClosed := rfl
@[simp] theorem State.emit_delivered (v : Total) (s : State) : (s.emit v).delivered = if s.outReady then s.out.length + 1 else s.delivered := rfl
@[simp] theorem State.emit_outReady (v : Total) (s : State) : (s.emit v).outReady = s.outReady := rfl
@[simp] theorem State.emit_events (v : Total) (s : State) : (s.emit v).events = s.events := rfl

@[simp] theorem State.accept_buf (s : State) : (s.accept).buf = s.buf := by unfold State.accept; split <;> rfl
@[simp] theorem State.accept_sum (s : State) : (s.accept).sum = s.sum := by unfold State.accept; split <;> rfl
@[simp] theorem State.accept_cursor (s : State) : (s.accept).cursor = s.cursor := by unfold State.accept; split <;> rfl
@[simp] theorem State.accept_ctr (s : State) : (s.accept).ctr = s.ctr := by unfold State.accept; split <;> rfl
@[simp] theorem State.accept_boundMin (s : State) : (s.accept).boundMin = s.boundMin := by unfold State.accept; split <;> rfl
@[simp] theorem State.accept_boundMax (s : State) : (s.accept).boundMax = s.boundMax := by unfold State.accept; split <;> rfl
@[simp] theorem State.accept_boundMaxInf (s : State) : (s.accept).boundMaxInf = s.boundMaxInf := by unfold State.accept; split <;> rfl
@[simp] theorem State.accept_runState (s : State) : (s.accept).runState = s.runState := by unfold State.accept; split <;> rfl
@[simp] theorem State.accept_errCode (s : State) : (s.accept).errCode = s.errCode := by unfold State.accept; split <;> rfl
@[simp] theorem State.accept_errTag (s : State) : (s.accept).errTag = s.errTag := by unfold State.accept; split <;> rfl
@[simp] theorem State.accept_errExecId (s : State) : (s.accept).errExecId = s.errExecId := by unfold State.accept; split <;> rfl
@[simp] theorem State.accept_errDeclared (s : State) : (s.accept).errDeclared = s.errDeclared := by unfold State.accept; split <;> rfl
@[simp] theorem State.accept_errComputed (s : State) : (s.accept).errComputed = s.errComputed := by unfold State.accept; split <;> rfl
@[simp] theorem State.accept_exitStatus (s : State) : (s.accept).exitStatus = s.exitStatus := by unfold State.accept; split <;> rfl
@[simp] theorem State.accept_pc (s : State) : (s.accept).pc = s.pc := by unfold State.accept; split <;> rfl
@[simp] theorem State.accept_input (s : State) : (s.accept).input = s.input := by unfold State.accept; split <;> rfl
@[simp] theorem State.accept_out (s : State) : (s.accept).out = s.out := by unfold State.accept; split <;> rfl
@[simp] theorem State.accept_outClosed (s : State) : (s.accept).outClosed = s.outClosed := by unfold State.accept; split <;> rfl
@[simp] theorem State.accept_delivered (s : State) : (s.accept).delivered = if s.delivered < s.out.length then s.delivered + 1 else s.delivered := by unfold State.accept; split <;> rfl
@[simp] theorem State.accept_outReady (s : State) : (s.accept).outReady = s.outReady := by unfold State.accept; split <;> rfl
@[simp] theorem State.accept_events (s : State) : (s.accept).events = s.events := by unfold State.accept; split <;> rfl

@[simp] theorem State.setOutReady_buf (b : Bool) (s : State) : (s.setOutReady b).buf = s.buf := rfl
@[simp] theorem State.setOutReady_sum (b : Bool) (s : State) : (s.setOutReady b).sum = s.sum := rfl
@[simp] theorem State.setOutReady_cursor (b : Bool) (s : State) : (s.setOutReady b).cursor = s.cursor := rfl
@[simp] theorem State.setOutReady_ctr (b : Bool) (s : State) : (s.setOutReady b).ctr = s.ctr := rfl
@[simp] theorem State.setOutReady_boundMin (b : Bool) (s : State) : (s.setOutReady b).boundMin = s.boundMin := rfl
@[simp] theorem State.setOutReady_boundMax (b : Bool) (s : State) : (s.setOutReady b).boundMax = s.boundMax := rfl
@[simp] theorem State.setOutReady_boundMaxInf (b : Bool) (s : State) : (s.setOutReady b).boundMaxInf = s.boundMaxInf := rfl
@[simp] theorem State.setOutReady_runState (b : Bool) (s : State) : (s.setOutReady b).runState = s.runState := rfl
@[simp] theorem State.setOutReady_errCode (b : Bool) (s : State) : (s.setOutReady b).errCode = s.errCode := rfl
@[simp] theorem State.setOutReady_errTag (b : Bool) (s : State) : (s.setOutReady b).errTag = s.errTag := rfl
@[simp] theorem State.setOutReady_errExecId (b : Bool) (s : State) : (s.setOutReady b).errExecId = s.errExecId := rfl
@[simp] theorem State.setOutReady_errDeclared (b : Bool) (s : State) : (s.setOutReady b).errDeclared = s.errDeclared := rfl
@[simp] theorem State.setOutReady_errComputed (b : Bool) (s : State) : (s.setOutReady b).errComputed = s.errComputed := rfl
@[simp] theorem State.setOutReady_exitStatus (b : Bool) (s : State) : (s.setOutReady b).exitStatus = s.exitStatus := rfl
@[simp] theorem State.setOutReady_pc (b : Bool) (s : State) : (s.setOutReady b).pc = s.pc := rfl
@[simp] theorem State.setOutReady_input (b : Bool) (s : State) : (s.setOutReady b).input = s.input := rfl
@[simp] theorem State.setOutReady_out (b : Bool) (s : State) : (s.setOutReady b).out = s.out := rfl
@[simp] theorem State.setOutReady_outClosed (b : Bool) (s : State) : (s.setOutReady b).outClosed = s.outClosed := rfl
@[simp] theorem State.setOutReady_delivered (b : Bool) (s : State) : (s.setOutReady b).delivered = if b then s.out.length else s.delivered := rfl
@[simp] theorem State.setOutReady_outReady (b : Bool) (s : State) : (s.setOutReady b).outReady = b := rfl
@[simp] theorem State.setOutReady_events (b : Bool) (s : State) : (s.setOutReady b).events = s.events := rfl

/-! ### Ends of the run -/

@[simp] theorem State.closeOut_buf (s : State) : (s.closeOut).buf = s.buf := rfl
@[simp] theorem State.closeOut_sum (s : State) : (s.closeOut).sum = s.sum := rfl
@[simp] theorem State.closeOut_cursor (s : State) : (s.closeOut).cursor = s.cursor := rfl
@[simp] theorem State.closeOut_ctr (s : State) : (s.closeOut).ctr = s.ctr := rfl
@[simp] theorem State.closeOut_boundMin (s : State) : (s.closeOut).boundMin = s.boundMin := rfl
@[simp] theorem State.closeOut_boundMax (s : State) : (s.closeOut).boundMax = s.boundMax := rfl
@[simp] theorem State.closeOut_boundMaxInf (s : State) : (s.closeOut).boundMaxInf = s.boundMaxInf := rfl
@[simp] theorem State.closeOut_runState (s : State) : (s.closeOut).runState = s.runState := rfl
@[simp] theorem State.closeOut_errCode (s : State) : (s.closeOut).errCode = s.errCode := rfl
@[simp] theorem State.closeOut_errTag (s : State) : (s.closeOut).errTag = s.errTag := rfl
@[simp] theorem State.closeOut_errExecId (s : State) : (s.closeOut).errExecId = s.errExecId := rfl
@[simp] theorem State.closeOut_errDeclared (s : State) : (s.closeOut).errDeclared = s.errDeclared := rfl
@[simp] theorem State.closeOut_errComputed (s : State) : (s.closeOut).errComputed = s.errComputed := rfl
@[simp] theorem State.closeOut_exitStatus (s : State) : (s.closeOut).exitStatus = s.exitStatus := rfl
@[simp] theorem State.closeOut_pc (s : State) : (s.closeOut).pc = s.pc := rfl
@[simp] theorem State.closeOut_input (s : State) : (s.closeOut).input = s.input := rfl
@[simp] theorem State.closeOut_out (s : State) : (s.closeOut).out = s.out := rfl
@[simp] theorem State.closeOut_outClosed (s : State) : (s.closeOut).outClosed = true := rfl
@[simp] theorem State.closeOut_delivered (s : State) : (s.closeOut).delivered = s.out.length := rfl
@[simp] theorem State.closeOut_outReady (s : State) : (s.closeOut).outReady = s.outReady := rfl
@[simp] theorem State.closeOut_events (s : State) : (s.closeOut).events = s.events := rfl

@[simp] theorem State.cleanEnd_buf (s : State) : (s.cleanEnd).buf = s.buf := rfl
@[simp] theorem State.cleanEnd_sum (s : State) : (s.cleanEnd).sum = s.sum := rfl
@[simp] theorem State.cleanEnd_cursor (s : State) : (s.cleanEnd).cursor = s.cursor := rfl
@[simp] theorem State.cleanEnd_ctr (s : State) : (s.cleanEnd).ctr = s.ctr := rfl
@[simp] theorem State.cleanEnd_boundMin (s : State) : (s.cleanEnd).boundMin = s.boundMin := rfl
@[simp] theorem State.cleanEnd_boundMax (s : State) : (s.cleanEnd).boundMax = s.boundMax := rfl
@[simp] theorem State.cleanEnd_boundMaxInf (s : State) : (s.cleanEnd).boundMaxInf = s.boundMaxInf := rfl
@[simp] theorem State.cleanEnd_runState (s : State) : (s.cleanEnd).runState = .done := rfl
@[simp] theorem State.cleanEnd_errCode (s : State) : (s.cleanEnd).errCode = s.errCode := rfl
@[simp] theorem State.cleanEnd_errTag (s : State) : (s.cleanEnd).errTag = s.errTag := rfl
@[simp] theorem State.cleanEnd_errExecId (s : State) : (s.cleanEnd).errExecId = s.errExecId := rfl
@[simp] theorem State.cleanEnd_errDeclared (s : State) : (s.cleanEnd).errDeclared = s.errDeclared := rfl
@[simp] theorem State.cleanEnd_errComputed (s : State) : (s.cleanEnd).errComputed = s.errComputed := rfl
@[simp] theorem State.cleanEnd_exitStatus (s : State) : (s.cleanEnd).exitStatus = 0 := rfl
@[simp] theorem State.cleanEnd_pc (s : State) : (s.cleanEnd).pc = s.pc := rfl
@[simp] theorem State.cleanEnd_input (s : State) : (s.cleanEnd).input = s.input := rfl
@[simp] theorem State.cleanEnd_out (s : State) : (s.cleanEnd).out = s.out := rfl
@[simp] theorem State.cleanEnd_outClosed (s : State) : (s.cleanEnd).outClosed = true := rfl
@[simp] theorem State.cleanEnd_delivered (s : State) : (s.cleanEnd).delivered = s.out.length := rfl
@[simp] theorem State.cleanEnd_outReady (s : State) : (s.cleanEnd).outReady = s.outReady := rfl
@[simp] theorem State.cleanEnd_events (s : State) : (s.cleanEnd).events = s.events := rfl

@[simp] theorem State.latch_buf (p : Params) (c : Cause) (s : State) : (s.latch p c).buf = s.buf := by cases c <;> rfl
@[simp] theorem State.latch_sum (p : Params) (c : Cause) (s : State) : (s.latch p c).sum = s.sum := by cases c <;> rfl
@[simp] theorem State.latch_cursor (p : Params) (c : Cause) (s : State) : (s.latch p c).cursor = s.cursor := by cases c <;> rfl
@[simp] theorem State.latch_ctr (p : Params) (c : Cause) (s : State) : (s.latch p c).ctr = s.ctr := by cases c <;> rfl
@[simp] theorem State.latch_boundMin (p : Params) (c : Cause) (s : State) : (s.latch p c).boundMin = s.boundMin := by cases c <;> rfl
@[simp] theorem State.latch_boundMax (p : Params) (c : Cause) (s : State) : (s.latch p c).boundMax = s.boundMax := by cases c <;> rfl
@[simp] theorem State.latch_boundMaxInf (p : Params) (c : Cause) (s : State) : (s.latch p c).boundMaxInf = s.boundMaxInf := by cases c <;> rfl
@[simp] theorem State.latch_runState (p : Params) (c : Cause) (s : State) : (s.latch p c).runState = s.runState := by cases c <;> rfl
@[simp] theorem State.latch_errCode (p : Params) (c : Cause) (s : State) : (s.latch p c).errCode = s.errCode := by cases c <;> rfl
@[simp] theorem State.latch_errTag (p : Params) (c : Cause) (s : State) : (s.latch p c).errTag = (match c with
      | .unknownType tag _ => tag
      | .framingExec _ _ _ => p.tagExec
      | .framingMemory _ _ _ => p.tagMemory
      | .truncated tag _ => tag
      | .ctrOverflow _ => p.tagMemory) := by cases c <;> rfl
@[simp] theorem State.latch_errExecId (p : Params) (c : Cause) (s : State) : (s.latch p c).errExecId = (match c with
      | .framingExec i _ _ | .framingMemory i _ _ => i
      | _ => s.errExecId) := by cases c <;> rfl
@[simp] theorem State.latch_errDeclared (p : Params) (c : Cause) (s : State) : (s.latch p c).errDeclared = (match c with
      | .unknownType _ d | .framingExec _ d _ | .framingMemory _ d _ | .truncated _ d | .ctrOverflow d => d) := by cases c <;> rfl
@[simp] theorem State.latch_errComputed (p : Params) (c : Cause) (s : State) : (s.latch p c).errComputed = (match c with
      | .framingExec _ _ n | .framingMemory _ _ n => n
      | _ => s.errComputed) := by cases c <;> rfl
@[simp] theorem State.latch_exitStatus (p : Params) (c : Cause) (s : State) : (s.latch p c).exitStatus = s.exitStatus := by cases c <;> rfl
@[simp] theorem State.latch_pc (p : Params) (c : Cause) (s : State) : (s.latch p c).pc = s.pc := by cases c <;> rfl
@[simp] theorem State.latch_input (p : Params) (c : Cause) (s : State) : (s.latch p c).input = s.input := by cases c <;> rfl
@[simp] theorem State.latch_out (p : Params) (c : Cause) (s : State) : (s.latch p c).out = s.out := by cases c <;> rfl
@[simp] theorem State.latch_outClosed (p : Params) (c : Cause) (s : State) : (s.latch p c).outClosed = s.outClosed := by cases c <;> rfl
@[simp] theorem State.latch_delivered (p : Params) (c : Cause) (s : State) : (s.latch p c).delivered = s.delivered := by cases c <;> rfl
@[simp] theorem State.latch_outReady (p : Params) (c : Cause) (s : State) : (s.latch p c).outReady = s.outReady := by cases c <;> rfl
@[simp] theorem State.latch_events (p : Params) (c : Cause) (s : State) : (s.latch p c).events = s.events := by cases c <;> rfl

@[simp] theorem State.raise_buf (p : Params) (c : Cause) (s : State) : (s.raise p c).buf = s.buf := by cases c <;> rfl
@[simp] theorem State.raise_sum (p : Params) (c : Cause) (s : State) : (s.raise p c).sum = s.sum := by cases c <;> rfl
@[simp] theorem State.raise_cursor (p : Params) (c : Cause) (s : State) : (s.raise p c).cursor = s.cursor := by cases c <;> rfl
@[simp] theorem State.raise_ctr (p : Params) (c : Cause) (s : State) : (s.raise p c).ctr = s.ctr := by cases c <;> rfl
@[simp] theorem State.raise_boundMin (p : Params) (c : Cause) (s : State) : (s.raise p c).boundMin = s.boundMin := by cases c <;> rfl
@[simp] theorem State.raise_boundMax (p : Params) (c : Cause) (s : State) : (s.raise p c).boundMax = s.boundMax := by cases c <;> rfl
@[simp] theorem State.raise_boundMaxInf (p : Params) (c : Cause) (s : State) : (s.raise p c).boundMaxInf = s.boundMaxInf := by cases c <;> rfl
@[simp] theorem State.raise_runState (p : Params) (c : Cause) (s : State) : (s.raise p c).runState = .fatal := by cases c <;> rfl
@[simp] theorem State.raise_errCode (p : Params) (c : Cause) (s : State) : (s.raise p c).errCode = c.code := by cases c <;> rfl
@[simp] theorem State.raise_errTag (p : Params) (c : Cause) (s : State) : (s.raise p c).errTag = (match c with
      | .unknownType tag _ => tag
      | .framingExec _ _ _ => p.tagExec
      | .framingMemory _ _ _ => p.tagMemory
      | .truncated tag _ => tag
      | .ctrOverflow _ => p.tagMemory) := by cases c <;> rfl
@[simp] theorem State.raise_errExecId (p : Params) (c : Cause) (s : State) : (s.raise p c).errExecId = (match c with
      | .framingExec i _ _ | .framingMemory i _ _ => i
      | _ => s.errExecId) := by cases c <;> rfl
@[simp] theorem State.raise_errDeclared (p : Params) (c : Cause) (s : State) : (s.raise p c).errDeclared = (match c with
      | .unknownType _ d | .framingExec _ d _ | .framingMemory _ d _ | .truncated _ d | .ctrOverflow d => d) := by cases c <;> rfl
@[simp] theorem State.raise_errComputed (p : Params) (c : Cause) (s : State) : (s.raise p c).errComputed = (match c with
      | .framingExec _ _ n | .framingMemory _ _ n => n
      | _ => s.errComputed) := by cases c <;> rfl
@[simp] theorem State.raise_exitStatus (p : Params) (c : Cause) (s : State) : (s.raise p c).exitStatus = 1 := by cases c <;> rfl
@[simp] theorem State.raise_pc (p : Params) (c : Cause) (s : State) : (s.raise p c).pc = s.pc := by cases c <;> rfl
@[simp] theorem State.raise_input (p : Params) (c : Cause) (s : State) : (s.raise p c).input = s.input := by cases c <;> rfl
@[simp] theorem State.raise_out (p : Params) (c : Cause) (s : State) : (s.raise p c).out = s.out := by cases c <;> rfl
@[simp] theorem State.raise_outClosed (p : Params) (c : Cause) (s : State) : (s.raise p c).outClosed = true := by cases c <;> rfl
@[simp] theorem State.raise_delivered (p : Params) (c : Cause) (s : State) : (s.raise p c).delivered = s.out.length := by cases c <;> rfl
@[simp] theorem State.raise_outReady (p : Params) (c : Cause) (s : State) : (s.raise p c).outReady = s.outReady := by cases c <;> rfl
@[simp] theorem State.raise_events (p : Params) (c : Cause) (s : State) : (s.raise p c).events = s.events := by cases c <;> rfl

@[simp] theorem State.truncate_buf (p : Params) (tag : Byte) (d : Word) (s : State) : (s.truncate p tag d).buf = s.buf := rfl
@[simp] theorem State.truncate_sum (p : Params) (tag : Byte) (d : Word) (s : State) : (s.truncate p tag d).sum = s.sum := rfl
@[simp] theorem State.truncate_cursor (p : Params) (tag : Byte) (d : Word) (s : State) : (s.truncate p tag d).cursor = s.cursor := rfl
@[simp] theorem State.truncate_ctr (p : Params) (tag : Byte) (d : Word) (s : State) : (s.truncate p tag d).ctr = s.ctr := rfl
@[simp] theorem State.truncate_boundMin (p : Params) (tag : Byte) (d : Word) (s : State) : (s.truncate p tag d).boundMin = s.boundMin := rfl
@[simp] theorem State.truncate_boundMax (p : Params) (tag : Byte) (d : Word) (s : State) : (s.truncate p tag d).boundMax = s.boundMax := rfl
@[simp] theorem State.truncate_boundMaxInf (p : Params) (tag : Byte) (d : Word) (s : State) : (s.truncate p tag d).boundMaxInf = s.boundMaxInf := rfl
@[simp] theorem State.truncate_runState (p : Params) (tag : Byte) (d : Word) (s : State) : (s.truncate p tag d).runState = .fatal := rfl
@[simp] theorem State.truncate_errCode (p : Params) (tag : Byte) (d : Word) (s : State) : (s.truncate p tag d).errCode = .truncated := rfl
@[simp] theorem State.truncate_errTag (p : Params) (tag : Byte) (d : Word) (s : State) : (s.truncate p tag d).errTag = tag := rfl
@[simp] theorem State.truncate_errExecId (p : Params) (tag : Byte) (d : Word) (s : State) : (s.truncate p tag d).errExecId = s.errExecId := rfl
@[simp] theorem State.truncate_errDeclared (p : Params) (tag : Byte) (d : Word) (s : State) : (s.truncate p tag d).errDeclared = d := rfl
@[simp] theorem State.truncate_errComputed (p : Params) (tag : Byte) (d : Word) (s : State) : (s.truncate p tag d).errComputed = s.errComputed := rfl
@[simp] theorem State.truncate_exitStatus (p : Params) (tag : Byte) (d : Word) (s : State) : (s.truncate p tag d).exitStatus = 1 := rfl
@[simp] theorem State.truncate_pc (p : Params) (tag : Byte) (d : Word) (s : State) : (s.truncate p tag d).pc = s.input.length := rfl
@[simp] theorem State.truncate_input (p : Params) (tag : Byte) (d : Word) (s : State) : (s.truncate p tag d).input = s.input := rfl
@[simp] theorem State.truncate_out (p : Params) (tag : Byte) (d : Word) (s : State) : (s.truncate p tag d).out = s.out := rfl
@[simp] theorem State.truncate_outClosed (p : Params) (tag : Byte) (d : Word) (s : State) : (s.truncate p tag d).outClosed = true := rfl
@[simp] theorem State.truncate_delivered (p : Params) (tag : Byte) (d : Word) (s : State) : (s.truncate p tag d).delivered = s.out.length := rfl
@[simp] theorem State.truncate_outReady (p : Params) (tag : Byte) (d : Word) (s : State) : (s.truncate p tag d).outReady = s.outReady := rfl
@[simp] theorem State.truncate_events (p : Params) (tag : Byte) (d : Word) (s : State) : (s.truncate p tag d).events = s.events := rfl

/-! ### Reset -/

@[simp] theorem State.resetLine_buf (s : State) : (s.resetLine).buf = State.reset.buf := rfl
@[simp] theorem State.resetLine_sum (s : State) : (s.resetLine).sum = State.reset.sum := rfl
@[simp] theorem State.resetLine_cursor (s : State) : (s.resetLine).cursor = State.reset.cursor := rfl
@[simp] theorem State.resetLine_ctr (s : State) : (s.resetLine).ctr = State.reset.ctr := rfl
@[simp] theorem State.resetLine_boundMin (s : State) : (s.resetLine).boundMin = State.reset.boundMin := rfl
@[simp] theorem State.resetLine_boundMax (s : State) : (s.resetLine).boundMax = State.reset.boundMax := rfl
@[simp] theorem State.resetLine_boundMaxInf (s : State) : (s.resetLine).boundMaxInf = State.reset.boundMaxInf := rfl
@[simp] theorem State.resetLine_runState (s : State) : (s.resetLine).runState = State.reset.runState := rfl
@[simp] theorem State.resetLine_errCode (s : State) : (s.resetLine).errCode = State.reset.errCode := rfl
@[simp] theorem State.resetLine_errTag (s : State) : (s.resetLine).errTag = State.reset.errTag := rfl
@[simp] theorem State.resetLine_errExecId (s : State) : (s.resetLine).errExecId = State.reset.errExecId := rfl
@[simp] theorem State.resetLine_errDeclared (s : State) : (s.resetLine).errDeclared = State.reset.errDeclared := rfl
@[simp] theorem State.resetLine_errComputed (s : State) : (s.resetLine).errComputed = State.reset.errComputed := rfl
@[simp] theorem State.resetLine_exitStatus (s : State) : (s.resetLine).exitStatus = State.reset.exitStatus := rfl
@[simp] theorem State.resetLine_pc (s : State) : (s.resetLine).pc = State.reset.pc := rfl
@[simp] theorem State.resetLine_input (s : State) : (s.resetLine).input = s.input := rfl
@[simp] theorem State.resetLine_out (s : State) : (s.resetLine).out = State.reset.out := rfl
@[simp] theorem State.resetLine_outClosed (s : State) : (s.resetLine).outClosed = State.reset.outClosed := rfl
@[simp] theorem State.resetLine_delivered (s : State) : (s.resetLine).delivered = State.reset.delivered := rfl
@[simp] theorem State.resetLine_outReady (s : State) : (s.resetLine).outReady = s.outReady := rfl
@[simp] theorem State.resetLine_events (s : State) : (s.resetLine).events = s.events := rfl

/-! ### The estimator -/

@[simp] theorem State.updateWindow_buf (p : Params) (hw : Weight) (s : State) : (s.updateWindow p hw).buf = s.buf.set s.cursor hw := rfl
@[simp] theorem State.updateWindow_sum (p : Params) (hw : Weight) (s : State) : (s.updateWindow p hw).sum = s.newSum p hw := rfl
@[simp] theorem State.updateWindow_cursor (p : Params) (hw : Weight) (s : State) : (s.updateWindow p hw).cursor = nextCursor p s.cursor := rfl
@[simp] theorem State.updateWindow_ctr (p : Params) (hw : Weight) (s : State) : (s.updateWindow p hw).ctr = s.ctr := rfl
@[simp] theorem State.updateWindow_boundMin (p : Params) (hw : Weight) (s : State) : (s.updateWindow p hw).boundMin = s.boundMin := rfl
@[simp] theorem State.updateWindow_boundMax (p : Params) (hw : Weight) (s : State) : (s.updateWindow p hw).boundMax = s.boundMax := rfl
@[simp] theorem State.updateWindow_boundMaxInf (p : Params) (hw : Weight) (s : State) : (s.updateWindow p hw).boundMaxInf = s.boundMaxInf := rfl
@[simp] theorem State.updateWindow_runState (p : Params) (hw : Weight) (s : State) : (s.updateWindow p hw).runState = s.runState := rfl
@[simp] theorem State.updateWindow_errCode (p : Params) (hw : Weight) (s : State) : (s.updateWindow p hw).errCode = s.errCode := rfl
@[simp] theorem State.updateWindow_errTag (p : Params) (hw : Weight) (s : State) : (s.updateWindow p hw).errTag = s.errTag := rfl
@[simp] theorem State.updateWindow_errExecId (p : Params) (hw : Weight) (s : State) : (s.updateWindow p hw).errExecId = s.errExecId := rfl
@[simp] theorem State.updateWindow_errDeclared (p : Params) (hw : Weight) (s : State) : (s.updateWindow p hw).errDeclared = s.errDeclared := rfl
@[simp] theorem State.updateWindow_errComputed (p : Params) (hw : Weight) (s : State) : (s.updateWindow p hw).errComputed = s.errComputed := rfl
@[simp] theorem State.updateWindow_exitStatus (p : Params) (hw : Weight) (s : State) : (s.updateWindow p hw).exitStatus = s.exitStatus := rfl
@[simp] theorem State.updateWindow_pc (p : Params) (hw : Weight) (s : State) : (s.updateWindow p hw).pc = s.pc := rfl
@[simp] theorem State.updateWindow_input (p : Params) (hw : Weight) (s : State) : (s.updateWindow p hw).input = s.input := rfl
@[simp] theorem State.updateWindow_out (p : Params) (hw : Weight) (s : State) : (s.updateWindow p hw).out = s.out := rfl
@[simp] theorem State.updateWindow_outClosed (p : Params) (hw : Weight) (s : State) : (s.updateWindow p hw).outClosed = s.outClosed := rfl
@[simp] theorem State.updateWindow_delivered (p : Params) (hw : Weight) (s : State) : (s.updateWindow p hw).delivered = s.delivered := rfl
@[simp] theorem State.updateWindow_outReady (p : Params) (hw : Weight) (s : State) : (s.updateWindow p hw).outReady = s.outReady := rfl
@[simp] theorem State.updateWindow_events (p : Params) (hw : Weight) (s : State) : (s.updateWindow p hw).events = s.events := rfl

@[simp] theorem State.countEvent_buf (s : State) : (s.countEvent).buf = s.buf := rfl
@[simp] theorem State.countEvent_sum (s : State) : (s.countEvent).sum = s.sum := rfl
@[simp] theorem State.countEvent_cursor (s : State) : (s.countEvent).cursor = s.cursor := rfl
@[simp] theorem State.countEvent_ctr (s : State) : (s.countEvent).ctr = s.ctr + 1 := rfl
@[simp] theorem State.countEvent_boundMin (s : State) : (s.countEvent).boundMin = s.boundMin := rfl
@[simp] theorem State.countEvent_boundMax (s : State) : (s.countEvent).boundMax = s.boundMax := rfl
@[simp] theorem State.countEvent_boundMaxInf (s : State) : (s.countEvent).boundMaxInf = s.boundMaxInf := rfl
@[simp] theorem State.countEvent_runState (s : State) : (s.countEvent).runState = s.runState := rfl
@[simp] theorem State.countEvent_errCode (s : State) : (s.countEvent).errCode = s.errCode := rfl
@[simp] theorem State.countEvent_errTag (s : State) : (s.countEvent).errTag = s.errTag := rfl
@[simp] theorem State.countEvent_errExecId (s : State) : (s.countEvent).errExecId = s.errExecId := rfl
@[simp] theorem State.countEvent_errDeclared (s : State) : (s.countEvent).errDeclared = s.errDeclared := rfl
@[simp] theorem State.countEvent_errComputed (s : State) : (s.countEvent).errComputed = s.errComputed := rfl
@[simp] theorem State.countEvent_exitStatus (s : State) : (s.countEvent).exitStatus = s.exitStatus := rfl
@[simp] theorem State.countEvent_pc (s : State) : (s.countEvent).pc = s.pc := rfl
@[simp] theorem State.countEvent_input (s : State) : (s.countEvent).input = s.input := rfl
@[simp] theorem State.countEvent_out (s : State) : (s.countEvent).out = s.out := rfl
@[simp] theorem State.countEvent_outClosed (s : State) : (s.countEvent).outClosed = s.outClosed := rfl
@[simp] theorem State.countEvent_delivered (s : State) : (s.countEvent).delivered = s.delivered := rfl
@[simp] theorem State.countEvent_outReady (s : State) : (s.countEvent).outReady = s.outReady := rfl
@[simp] theorem State.countEvent_events (s : State) : (s.countEvent).events = s.events := rfl

@[simp] theorem State.fold_buf (p : Params) (hw : Weight) (s : State) : (s.fold p hw).buf = s.buf.set s.cursor hw := by unfold State.fold; split <;> rfl
@[simp] theorem State.fold_sum (p : Params) (hw : Weight) (s : State) : (s.fold p hw).sum = s.newSum p hw := by unfold State.fold; split <;> rfl
@[simp] theorem State.fold_cursor (p : Params) (hw : Weight) (s : State) : (s.fold p hw).cursor = nextCursor p s.cursor := by unfold State.fold; split <;> rfl
@[simp] theorem State.fold_ctr (p : Params) (hw : Weight) (s : State) : (s.fold p hw).ctr = s.ctr := by unfold State.fold; split <;> rfl
@[simp] theorem State.fold_boundMin (p : Params) (hw : Weight) (s : State) : (s.fold p hw).boundMin = s.boundMin := by unfold State.fold; split <;> rfl
@[simp] theorem State.fold_boundMax (p : Params) (hw : Weight) (s : State) : (s.fold p hw).boundMax = s.boundMax := by unfold State.fold; split <;> rfl
@[simp] theorem State.fold_boundMaxInf (p : Params) (hw : Weight) (s : State) : (s.fold p hw).boundMaxInf = s.boundMaxInf := by unfold State.fold; split <;> rfl
@[simp] theorem State.fold_runState (p : Params) (hw : Weight) (s : State) : (s.fold p hw).runState = s.runState := by unfold State.fold; split <;> rfl
@[simp] theorem State.fold_errCode (p : Params) (hw : Weight) (s : State) : (s.fold p hw).errCode = s.errCode := by unfold State.fold; split <;> rfl
@[simp] theorem State.fold_errTag (p : Params) (hw : Weight) (s : State) : (s.fold p hw).errTag = s.errTag := by unfold State.fold; split <;> rfl
@[simp] theorem State.fold_errExecId (p : Params) (hw : Weight) (s : State) : (s.fold p hw).errExecId = s.errExecId := by unfold State.fold; split <;> rfl
@[simp] theorem State.fold_errDeclared (p : Params) (hw : Weight) (s : State) : (s.fold p hw).errDeclared = s.errDeclared := by unfold State.fold; split <;> rfl
@[simp] theorem State.fold_errComputed (p : Params) (hw : Weight) (s : State) : (s.fold p hw).errComputed = s.errComputed := by unfold State.fold; split <;> rfl
@[simp] theorem State.fold_exitStatus (p : Params) (hw : Weight) (s : State) : (s.fold p hw).exitStatus = s.exitStatus := by unfold State.fold; split <;> rfl
@[simp] theorem State.fold_pc (p : Params) (hw : Weight) (s : State) : (s.fold p hw).pc = s.pc := by unfold State.fold; split <;> rfl
@[simp] theorem State.fold_input (p : Params) (hw : Weight) (s : State) : (s.fold p hw).input = s.input := by unfold State.fold; split <;> rfl
@[simp] theorem State.fold_out (p : Params) (hw : Weight) (s : State) : (s.fold p hw).out = if s.Warm p then s.out ++ [s.newSum p hw] else s.out := by unfold State.fold; split <;> rfl
@[simp] theorem State.fold_outClosed (p : Params) (hw : Weight) (s : State) : (s.fold p hw).outClosed = s.outClosed := by unfold State.fold; split <;> rfl
@[simp] theorem State.fold_delivered (p : Params) (hw : Weight) (s : State) : (s.fold p hw).delivered = if s.Warm p then (if s.outReady then s.out.length + 1 else s.delivered) else s.delivered := by unfold State.fold; split <;> rfl
@[simp] theorem State.fold_outReady (p : Params) (hw : Weight) (s : State) : (s.fold p hw).outReady = s.outReady := by unfold State.fold; split <;> rfl
@[simp] theorem State.fold_events (p : Params) (hw : Weight) (s : State) : (s.fold p hw).events = s.events := by unfold State.fold; split <;> rfl

/-! ### The register port -/

@[simp] theorem State.regWrite_buf (p : Params) (a : Byte) (d : Word) (s : State) : (s.regWrite p a d).buf = s.buf := by
  unfold State.regWrite; repeat' split
  all_goals rfl
@[simp] theorem State.regWrite_sum (p : Params) (a : Byte) (d : Word) (s : State) : (s.regWrite p a d).sum = s.sum := by
  unfold State.regWrite; repeat' split
  all_goals rfl
@[simp] theorem State.regWrite_cursor (p : Params) (a : Byte) (d : Word) (s : State) : (s.regWrite p a d).cursor = s.cursor := by
  unfold State.regWrite; repeat' split
  all_goals rfl
@[simp] theorem State.regWrite_ctr (p : Params) (a : Byte) (d : Word) (s : State) : (s.regWrite p a d).ctr = s.ctr := by
  unfold State.regWrite; repeat' split
  all_goals rfl
@[simp] theorem State.regWrite_errCode (p : Params) (a : Byte) (d : Word) (s : State) : (s.regWrite p a d).errCode = s.errCode := by
  unfold State.regWrite; repeat' split
  all_goals rfl
@[simp] theorem State.regWrite_errTag (p : Params) (a : Byte) (d : Word) (s : State) : (s.regWrite p a d).errTag = s.errTag := by
  unfold State.regWrite; repeat' split
  all_goals rfl
@[simp] theorem State.regWrite_errExecId (p : Params) (a : Byte) (d : Word) (s : State) : (s.regWrite p a d).errExecId = s.errExecId := by
  unfold State.regWrite; repeat' split
  all_goals rfl
@[simp] theorem State.regWrite_errDeclared (p : Params) (a : Byte) (d : Word) (s : State) : (s.regWrite p a d).errDeclared = s.errDeclared := by
  unfold State.regWrite; repeat' split
  all_goals rfl
@[simp] theorem State.regWrite_errComputed (p : Params) (a : Byte) (d : Word) (s : State) : (s.regWrite p a d).errComputed = s.errComputed := by
  unfold State.regWrite; repeat' split
  all_goals rfl
@[simp] theorem State.regWrite_exitStatus (p : Params) (a : Byte) (d : Word) (s : State) : (s.regWrite p a d).exitStatus = s.exitStatus := by
  unfold State.regWrite; repeat' split
  all_goals rfl
@[simp] theorem State.regWrite_pc (p : Params) (a : Byte) (d : Word) (s : State) : (s.regWrite p a d).pc = s.pc := by
  unfold State.regWrite; repeat' split
  all_goals rfl
@[simp] theorem State.regWrite_input (p : Params) (a : Byte) (d : Word) (s : State) : (s.regWrite p a d).input = s.input := by
  unfold State.regWrite; repeat' split
  all_goals rfl
@[simp] theorem State.regWrite_out (p : Params) (a : Byte) (d : Word) (s : State) : (s.regWrite p a d).out = s.out := by
  unfold State.regWrite; repeat' split
  all_goals rfl
@[simp] theorem State.regWrite_outClosed (p : Params) (a : Byte) (d : Word) (s : State) : (s.regWrite p a d).outClosed = s.outClosed := by
  unfold State.regWrite; repeat' split
  all_goals rfl
@[simp] theorem State.regWrite_delivered (p : Params) (a : Byte) (d : Word) (s : State) : (s.regWrite p a d).delivered = s.delivered := by
  unfold State.regWrite; repeat' split
  all_goals rfl
@[simp] theorem State.regWrite_outReady (p : Params) (a : Byte) (d : Word) (s : State) : (s.regWrite p a d).outReady = s.outReady := by
  unfold State.regWrite; repeat' split
  all_goals rfl
@[simp] theorem State.regWrite_events (p : Params) (a : Byte) (d : Word) (s : State) : (s.regWrite p a d).events = s.events := by
  unfold State.regWrite; repeat' split
  all_goals rfl

end Sys2Proof.Machine
end

