-- ==== Sys2Proof/Laws/Ops.lean ====
section
/-!
SUPPORT. What each operation over the streams answers, said once: later proofs cite these and do not unfold the operations.
-/

namespace Sys2Proof.Machine

/-! ### Widths and lengths at the values the spec takes -/

@[simp] theorem params_sampleW : params.sampleW = 67 := rfl
@[simp] theorem params_sumW : params.sumW = 71 := rfl
@[simp] theorem params_cursorW : params.cursorW = 4 := rfl
@[simp] theorem params_ctrW : params.ctrW = 64 := rfl
@[simp] theorem params_compW : params.compW = 68 := rfl

/-- A register as wide as the type holds every value. -/
@[simp] theorem narrow_of_le {n w : Nat} (h : n ≤ w) (v : BitVec n) : narrow w v = v := if_pos h

@[simp] theorem nextCursor_params (c : Fin 10) : nextCursor params c = c + 1 := by
  apply Fin.ext
  simp only [nextCursor, params_cursorW, Fin.val_add]
  have := c.isLt
  omega

/-- The new sum at the width the spec takes (R134). -/
theorem State.newSum_params (hw : Weight) (s : State) :
    s.newSum params hw = (s.sum - (s.buf[s.cursor]).setWidth 71) + hw.setWidth 71 :=
  narrow_of_le (Nat.le_refl 71) _

/-- `ctr` is at its last value exactly when all its bits are 1. -/
theorem State.ctrFull_params (s : State) : s.CtrFull params ↔ s.ctr = BitVec.allOnes 64 := by
  have h := s.ctr.isLt
  simp only [State.CtrFull, params_ctrW, Nat.min_self, ← BitVec.toNat_inj, BitVec.toNat_allOnes]
  omega

/-- The computed lengths are exact (R112, R116). -/
theorem execComputed_toNat (n c : Word) : (execComputed params n c).toNat = 41 + 9 * n.toNat + c.toNat := by
  have h1 := n.isLt
  have h2 := c.isLt
  simp only [execComputed, params_compW, narrow_of_le (Nat.le_refl 68), BitVec.toNat_ofNat, Config.execFixed, Config.execPerIns]
  omega

theorem memComputed_toNat (d : Word) : (memComputed params d).toNat = 42 + d.toNat := by
  have h1 := d.isLt
  simp only [memComputed, params_compW, narrow_of_le (Nat.le_refl 68), BitVec.toNat_ofNat, Config.memFixed]
  omega

/-- The length check compares natural numbers: it does not wrap (R112, R116). -/
theorem lengthMatches_iff (len : Word) (computed : Comp) : LengthMatches params len computed ↔ len.toNat = computed.toNat := by
  have h1 := len.isLt
  rw [LengthMatches, params_compW, narrow_of_le (Nat.le_refl 68), ← BitVec.toNat_inj, BitVec.toNat_setWidth]
  omega

theorem lengthMatches_exec (len n c : Word) :
    LengthMatches params len (execComputed params n c) ↔ len.toNat = 41 + 9 * n.toNat + c.toNat := by
  rw [lengthMatches_iff, execComputed_toNat]

theorem lengthMatches_mem (len d : Word) : LengthMatches params len (memComputed params d) ↔ len.toNat = 42 + d.toNat := by
  rw [lengthMatches_iff, memComputed_toNat]

/-! ### Byte order -/

@[simp] theorem leBytes_length (n v : Nat) : (leBytes n v).length = n := by
  induction n generalizing v with
  | zero => rfl
  | succ n ih => simp [leBytes, ih]

@[simp] theorem encode64_length (v : Word) : (encode64 v).length = 8 := leBytes_length 8 _

theorem leNat_leBytes (n v : Nat) : leNat (leBytes n v) = v % 256 ^ n := by
  induction n generalizing v with
  | zero => simp [leBytes, leNat, Nat.mod_one]
  | succ n ih =>
    simp only [leBytes, leNat, ih, BitVec.toNat_ofNat]
    rw [show 256 ^ (n + 1) = 256 * 256 ^ n from Nat.pow_succ', Nat.mod_mul]

@[simp] theorem le64_encode64 (v : Word) : le64 (encode64 v) = v := by
  apply BitVec.eq_of_toNat_eq
  have h := v.isLt
  simp only [le64, encode64, leNat_leBytes, BitVec.toNat_ofNat]
  omega

theorem leNat_lt (bs : List Byte) : leNat bs < 256 ^ bs.length := by
  induction bs with
  | nil => simp [leNat]
  | cons b bs ih =>
    have h := b.isLt
    simp only [leNat, List.length_cons, Nat.pow_succ']
    omega

theorem leBytes_leNat (bs : List Byte) : leBytes bs.length (leNat bs) = bs := by
  induction bs with
  | nil => rfl
  | cons b bs ih =>
    have h := b.isLt
    have hd : (b.toNat + 256 * leNat bs) / 256 = leNat bs := by omega
    have hm : BitVec.ofNat 8 (b.toNat + 256 * leNat bs) = b := by
      apply BitVec.eq_of_toNat_eq
      simp only [BitVec.toNat_ofNat]
      omega
    simp only [leBytes, leNat, List.length_cons, hd, hm, ih]

theorem encode64_le64 {bs : List Byte} (h : bs.length = 8) : encode64 (le64 bs) = bs := by
  have hlt := leNat_lt bs
  rw [h] at hlt
  have hv : (le64 bs).toNat = leNat bs := by
    simp only [le64, BitVec.toNat_ofNat]
    omega
  rw [encode64, hv]
  conv => lhs; rw [← h]
  exact leBytes_leNat bs

/-! ### `Take` and its kin -/

@[simp] theorem State.rest_advance (n : Nat) (s : State) : (s.advance n).rest = s.rest.drop n := by
  simp [State.rest, List.drop_drop]

@[simp] theorem State.advance_advance (m n : Nat) (s : State) :
    (s.advance m).advance n = s.advance (m + n) := by
  simp [State.advance, Nat.add_assoc]

theorem State.rest_length (s : State) : s.rest.length = s.input.length - s.pc := by
  simp [State.rest]

theorem State.skip_eq (n : Nat) (s : State) :
    s.skip n = if n ≤ s.rest.length then some (s.advance n) else none := by
  unfold State.skip State.take
  split <;> rfl

theorem State.takeU64_eq (s : State) :
    s.takeU64 = if 8 ≤ s.rest.length then some (field64 s.rest 0, s.advance 8) else none := by
  unfold State.takeU64 State.take field64
  split <;> simp

/-- A truncation does not depend on how far the step had come: it consumes all that remained (R12). -/
@[simp] theorem State.truncate_advance (p : Params) (tag : Byte) (d : Word) (n : Nat) (s : State) :
    (s.advance n).truncate p tag d = s.truncate p tag d := rfl

theorem bind_guard {α β : Type} (a l : Nat) (x : α) (f : α → Option β) :
    (if a ≤ l then some x else none).bind f = if a ≤ l then f x else none := by
  split <;> rfl

theorem map_guard {α β : Type} (a l : Nat) (x : α) (f : α → β) :
    (if a ≤ l then some x else none).map f = if a ≤ l then some (f x) else none := by
  split <;> rfl

/-- Two reads, one after the other, succeed exactly when both fit together. -/
theorem guard_guard {α : Type} (a b l : Nat) (x : Option α) :
    (if a ≤ l then (if b ≤ l - a then x else none) else none) = if a + b ≤ l then x else none := by
  split_ifs <;> first | rfl | omega

theorem State.readThread_eq (s : State) :
    s.readThread = if 17 ≤ s.rest.length then some (s.advance 17) else none := by
  simp only [State.readThread, State.skip_eq, bind_guard, State.rest_advance, List.length_drop, guard_guard,
    State.advance_advance]

theorem field64_drop (bs : List Byte) (m n : Nat) : field64 (bs.drop m) n = field64 bs (m + n) := by
  simp [field64, List.drop_drop]

theorem State.readExecFixed_eq (s : State) :
    s.readExecFixed =
      if 32 ≤ s.rest.length then
        some ({ execId := field64 s.rest 0, count := field64 s.rest 16, codeLen := field64 s.rest 24 }, s.advance 32)
      else none := by
  simp only [State.readExecFixed, State.takeU64_eq, State.skip_eq, bind_guard, map_guard, State.rest_advance,
    List.length_drop, guard_guard, State.advance_advance, field64_drop]

theorem State.skipExecVariable_eq (f : ExecFields) (s : State) :
    s.skipExecVariable f =
      if 9 * f.count.toNat + f.codeLen.toNat ≤ s.rest.length then
        some (s.advance (9 * f.count.toNat + f.codeLen.toNat))
      else none := by
  have e : 8 * f.count.toNat + (f.count.toNat + f.codeLen.toNat) = 9 * f.count.toNat + f.codeLen.toNat := by omega
  simp only [State.skipExecVariable, State.skip_eq, bind_guard, State.rest_advance, List.length_drop, guard_guard,
    State.advance_advance, e]

theorem State.readMemFixed_eq (s : State) :
    s.readMemFixed =
      if 33 ≤ s.rest.length then
        some ({ execId := field64 s.rest 0, dataLen := field64 s.rest 25 }, s.advance 33)
      else none := by
  simp only [State.readMemFixed, State.takeU64_eq, State.skip_eq, bind_guard, map_guard, State.rest_advance,
    List.length_drop, guard_guard, State.advance_advance, field64_drop]

/-! ### The bounded read -/

/-- What a bounded read consumes (R78). -/
theorem boundedCount_succ_eq_some_iff (limit : Nat) (bs : List Byte) (n : Nat) :
    boundedCount (limit + 1) bs = some n ↔
      1 ≤ n ∧ n ≤ limit + 1 ∧ n ≤ bs.length ∧ (∀ b ∈ bs.take (n - 1), b ≠ 0) ∧
      (n = limit + 1 ∨ bs[n - 1]? = some 0) := by
  induction limit generalizing bs n with
  | zero =>
    cases bs with
    | nil => simp [boundedCount]; omega
    | cons b bs =>
      by_cases hb : b = 0 <;> simp [boundedCount, hb] <;> constructor <;> intro h
      · subst h; simp
      · omega
      · subst h; simp
      · omega
  | succ limit ih =>
    cases bs with
    | nil => simp [boundedCount]; omega
    | cons b bs =>
      by_cases hb : b = 0
      · simp only [boundedCount, hb, if_true, Option.some.injEq]
        constructor
        · rintro rfl; simp
        · rintro ⟨h1, _, _, h4, _⟩
          by_contra hne
          obtain ⟨m, rfl⟩ : ∃ m, n = m + 2 := ⟨n - 2, by omega⟩
          simp at h4
      · rw [boundedCount, if_neg hb, Option.map_eq_some_iff]
        constructor
        · rintro ⟨m, hm, rfl⟩
          obtain ⟨h1, h2, h3, h4, h5⟩ := (ih bs m).mp hm
          obtain ⟨q, rfl⟩ : ∃ q, m = q + 1 := ⟨m - 1, by omega⟩
          refine ⟨by omega, by omega, by simp; omega, ?_, ?_⟩
          · simp only [Nat.add_sub_cancel, List.take_succ_cons, List.mem_cons, forall_eq_or_imp] at h4 ⊢
            exact ⟨hb, h4⟩
          · simpa using h5
        · rintro ⟨h1, h2, h3, h4, h5⟩
          obtain ⟨q, rfl⟩ | rfl : (∃ q, n = q + 2) ∨ n = 1 := by
            rcases Nat.lt_or_ge n 2 with h | h
            · right; omega
            · left; exact ⟨n - 2, by omega⟩
          · refine ⟨q + 1, (ih bs (q + 1)).mpr ⟨by omega, by omega, by simp at h3; omega, ?_, ?_⟩, rfl⟩
            · simp at h4 ⊢; exact h4.2
            · simp at h5 ⊢; exact h5
          · simp at h5
            exact absurd h5 hb

/-- `BoundedRead(cap)` answers exactly on the counts R78 allows. -/
theorem boundedCount_eq_some_iff {cap : Nat} (hcap : 2 ≤ cap) (bs : List Byte) (n : Nat) :
    boundedCount (cap - 1) bs = some n ↔ ReadEnds cap bs n := by
  obtain ⟨m, rfl⟩ : ∃ m, cap = m + 2 := ⟨cap - 2, by omega⟩
  exact boundedCount_succ_eq_some_iff m bs n

/-- At most one count is allowed. -/
theorem ReadEnds.unique {cap : Nat} {bs : List Byte} {m n : Nat} (hcap : 2 ≤ cap)
    (hm : ReadEnds cap bs m) (hn : ReadEnds cap bs n) : m = n := by
  have h1 := (boundedCount_eq_some_iff hcap bs m).mpr hm
  have h2 := (boundedCount_eq_some_iff hcap bs n).mpr hn
  exact Option.some.inj (h1.symm.trans h2)

theorem State.boundedRead_eq_some_iff {cap : Nat} (hcap : 2 ≤ cap) (s t : State) :
    s.boundedRead cap = some t ↔ ∃ n, ReadEnds cap s.rest n ∧ t = s.advance n := by
  simp only [State.boundedRead, Option.map_eq_some_iff, boundedCount_eq_some_iff hcap]
  exact exists_congr fun n => and_congr_right fun _ => eq_comm

theorem State.readInfo_eq_some_iff (s t : State) :
    s.readInfo = some t ↔
      ∃ m n, ReadEnds 128 s.rest m ∧ ReadEnds 2048 (s.rest.drop m) n ∧ t = s.advance (m + n) := by
  simp only [State.readInfo, Option.bind_eq_some_iff, Config.keyCap, Config.valueCap,
    State.boundedRead_eq_some_iff (show 2 ≤ 128 by decide), State.boundedRead_eq_some_iff (show 2 ≤ 2048 by decide)]
  constructor
  · rintro ⟨_, ⟨m, hm, rfl⟩, n, hn, rfl⟩
    exact ⟨m, n, hm, by simpa using hn, by simp⟩
  · rintro ⟨m, n, hm, hn, rfl⟩
    exact ⟨_, ⟨m, hm, rfl⟩, n, by simpa using hn, by simp⟩

theorem State.readLib_eq_some_iff (s t : State) :
    s.readLib = some t ↔
      16 ≤ s.rest.length ∧ ∃ n, ReadEnds 2048 (s.rest.drop 16) n ∧ t = s.advance (16 + n) := by
  simp only [State.readLib, State.skip_eq, bind_guard, State.rest_advance, List.length_drop, guard_guard,
    State.advance_advance, Config.nameCap]
  split
  · rename_i h
    simp only [h, true_and, State.boundedRead_eq_some_iff (show 2 ≤ 2048 by decide), State.rest_advance,
      State.advance_advance]
  · simp [*]

/-! ### The canonical positions in the streams -/

theorem Memory.wf_take {n : Nat} {s t : State} {bs : List Byte} (h : s.take n = some (bs, t)) (hs : Memory.wf s) :
    Memory.wf t := by
  unfold State.take at h
  split at h
  · rename_i hn
    cases h
    have := s.rest_length
    exact ⟨by simp; omega, hs.2⟩
  · cases h

theorem Memory.wf_boundedRead {cap : Nat} {s t : State} (hcap : 2 ≤ cap) (h : s.boundedRead cap = some t)
    (hs : Memory.wf s) : Memory.wf t := by
  obtain ⟨n, hn, rfl⟩ := (State.boundedRead_eq_some_iff hcap s t).mp h
  have := s.rest_length
  exact ⟨by simp; omega, hs.2⟩

theorem Memory.wf_emit (v : Total) {s : State} (hs : Memory.wf s) : Memory.wf (s.emit v) := by
  have := hs.2
  exact ⟨hs.1, by simp; split <;> omega⟩

theorem Memory.wf_accept {s : State} (hs : Memory.wf s) : Memory.wf s.accept := by
  refine ⟨by simpa using hs.1, ?_⟩
  have := hs.2
  simp only [State.accept_delivered, State.accept_out]
  split <;> omega

theorem Memory.wf_setOutReady (b : Bool) {s : State} (hs : Memory.wf s) : Memory.wf (s.setOutReady b) := by
  refine ⟨by simpa using hs.1, ?_⟩
  have := hs.2
  simp only [State.setOutReady_delivered, State.setOutReady_out]
  split <;> omega

theorem Memory.wf_raise (p : Params) (c : Cause) {s : State} (hs : Memory.wf s) : Memory.wf (s.raise p c) :=
  ⟨by simpa using hs.1, by simp⟩

theorem Memory.wf_truncate (p : Params) (tag : Byte) (d : Word) (s : State) : Memory.wf (s.truncate p tag d) :=
  ⟨by simp, by simp⟩

theorem Memory.wf_cleanEnd {s : State} (hs : Memory.wf s) : Memory.wf s.cleanEnd := ⟨hs.1, by simp⟩

theorem Memory.wf_reset : Memory.wf State.reset := by decide

end Sys2Proof.Machine
end

