-- ==== Sys2Proof/Laws/Exec.lean ====
section
/-!
SUPPORT. What each meaning answers, said once: an inversion lemma per meaning, and what a message step can do.
-/

namespace Sys2Proof.Machine

/-! ### The meanings with their reads evaluated -/

theorem doThread_eq (p : Params) (len : Word) (s : State) :
    doThread p len s = if 17 ≤ s.rest.length then s.advance 17 else s.truncate p p.tagThread len := by
  unfold doThread
  rw [State.readThread_eq]
  split <;> simp_all

theorem doExec_eq (p : Params) (len : Word) (s : State) :
    doExec p len s =
      if 32 ≤ s.rest.length then
        if LengthMatches p len (execComputed p (field64 s.rest 16) (field64 s.rest 24)) then
          if 32 + (9 * (field64 s.rest 16).toNat + (field64 s.rest 24).toNat) ≤ s.rest.length then
            s.advance (32 + (9 * (field64 s.rest 16).toNat + (field64 s.rest 24).toNat))
          else s.truncate p p.tagExec len
        else (s.advance 32).raise p (.framingExec (field64 s.rest 0) len
          (execComputed p (field64 s.rest 16) (field64 s.rest 24)))
      else s.truncate p p.tagExec len := by
  unfold doExec
  rw [State.readExecFixed_eq]
  by_cases h : 32 ≤ s.rest.length
  · simp only [h, if_true, State.skipExecVariable_eq, State.rest_advance, List.length_drop, State.advance_advance]
    split
    · rename_i hl
      by_cases hv : 9 * (field64 s.rest 16).toNat + (field64 s.rest 24).toNat ≤ s.rest.length - 32
      · rw [if_pos hv, if_pos (by omega)]
      · rw [if_neg hv, if_neg (by omega)]
        simp
    · rfl
  · simp only [h, if_false]

theorem doMemory_eq (p : Params) (len : Word) (s : State) :
    doMemory p len s =
      if 33 ≤ s.rest.length then
        if LengthMatches p len (memComputed p (field64 s.rest 25)) then
          if 33 + (field64 s.rest 25).toNat ≤ s.rest.length then
            (s.advance (33 + (field64 s.rest 25).toNat)).observe p len
              (BitVec.ofNat 67 (hammingWeight ((s.rest.drop 33).take (field64 s.rest 25).toNat)))
          else s.truncate p p.tagMemory len
        else (s.advance 33).raise p (.framingMemory (field64 s.rest 0) len
          (memComputed p (field64 s.rest 25)))
      else s.truncate p p.tagMemory len := by
  unfold doMemory
  rw [State.readMemFixed_eq]
  by_cases h : 33 ≤ s.rest.length
  · simp only [h, if_true, State.take, State.rest_advance, List.length_drop, State.advance_advance]
    split
    · by_cases hv : (field64 s.rest 25).toNat ≤ s.rest.length - 33
      · rw [if_pos hv, if_pos (by omega)]
      · rw [if_neg hv, if_neg (by omega)]
        simp
    · rfl
  · simp only [h, if_false]

/-! ### What a meaning can do -/

/-- A message is skipped (`pc` alone moves, within `IN`), or the stream ended inside it. -/
abbrev SkipsOrTruncates (p : Params) (tag : Byte) (len : Word) (s t : State) : Prop :=
  (∃ n, n ≤ s.rest.length ∧ t = s.advance n) ∨ t = s.truncate p tag len

theorem doInfo_cases (p : Params) (len : Word) (s : State) :
    SkipsOrTruncates p p.tagInfo len s (doInfo p len s) := by
  unfold doInfo
  split
  · exact .inr rfl
  · rename_i t h
    obtain ⟨m, n, hm, hn, rfl⟩ := (State.readInfo_eq_some_iff s t).mp h
    have h1 := hm.2.2.1
    have h2 := hn.2.2.1
    rw [List.length_drop] at h2
    exact .inl ⟨m + n, by omega, rfl⟩

theorem doLib_cases (p : Params) (len : Word) (s : State) :
    SkipsOrTruncates p p.tagLib len s (doLib p len s) := by
  unfold doLib
  split
  · exact .inr rfl
  · rename_i t h
    obtain ⟨h16, n, hn, rfl⟩ := (State.readLib_eq_some_iff s t).mp h
    have h2 := hn.2.2.1
    rw [List.length_drop] at h2
    exact .inl ⟨16 + n, by omega, rfl⟩

theorem doThread_cases (p : Params) (len : Word) (s : State) :
    SkipsOrTruncates p p.tagThread len s (doThread p len s) := by
  rw [doThread_eq]
  split
  · exact .inl ⟨17, ‹_›, rfl⟩
  · exact .inr rfl

/-- What a meaning can do to a state: consume bytes that are there, then nothing more, a fatal entry, or an observation; or consume all
that is left and end truncated. -/
inductive Effect (p : Params) (s : State) : State → Prop where
  | skipped (n : Nat) (h : n ≤ s.rest.length) : Effect p s (s.advance n)
  | raised (n : Nat) (h : n ≤ s.rest.length) (c : Cause) : Effect p s ((s.advance n).raise p c)
  | truncated (tag : Byte) (declared : Word) : Effect p s (s.truncate p tag declared)
  | observed (n : Nat) (h : n ≤ s.rest.length) (declared : Word) (hw : Weight) :
      Effect p s ((s.advance n).observe p declared hw)

theorem SkipsOrTruncates.effect {p : Params} {tag : Byte} {len : Word} {s t : State}
    (h : SkipsOrTruncates p tag len s t) : Effect p s t := by
  obtain ⟨n, hn, rfl⟩ | rfl := h
  · exact .skipped n hn
  · exact .truncated tag len

theorem doExec_effect (p : Params) (len : Word) (s : State) : Effect p s (doExec p len s) := by
  rw [doExec_eq]
  split
  · split
    · split
      · exact .skipped _ ‹_›
      · exact .truncated _ _
    · exact .raised 32 ‹_› _
  · exact .truncated _ _

theorem doMemory_effect (p : Params) (len : Word) (s : State) : Effect p s (doMemory p len s) := by
  rw [doMemory_eq]
  split
  · split
    · split
      · exact .observed _ ‹_› _ _
      · exact .truncated _ _
    · exact .raised 33 ‹_› _
  · exact .truncated _ _

/-- Every instruction answers a next state, with one of the effects. -/
theorem exec_effect (i : Instr) (s : State) : ∃ t, exec i s = .next t ∧ Effect params s t := by
  cases i with
  | info len => exact ⟨_, rfl, (doInfo_cases params len s).effect⟩
  | lib len => exact ⟨_, rfl, (doLib_cases params len s).effect⟩
  | exec len => exact ⟨_, rfl, doExec_effect params len s⟩
  | memory len => exact ⟨_, rfl, doMemory_effect params len s⟩
  | thread len => exact ⟨_, rfl, (doThread_cases params len s).effect⟩
  | unknown tag len => exact ⟨_, rfl, .raised 0 (Nat.zero_le _) _⟩

/-- An observation is a fatal entry, a counted and folded record, or a counted one (R130). -/
theorem State.observe_cases (p : Params) (declared : Word) (hw : Weight) (s : State) :
    (s.CtrFull p ∧ s.observe p declared hw = s.raise p (.ctrOverflow declared)) ∨
    (¬ s.CtrFull p ∧ s.InRange ∧ s.observe p declared hw = (s.fold p (narrow p.sampleW hw)).countEvent) ∨
    (¬ s.CtrFull p ∧ ¬ s.InRange ∧ s.observe p declared hw = s.countEvent) := by
  unfold State.observe
  split
  · exact .inl ⟨‹_›, rfl⟩
  · split
    · exact .inr (.inl ⟨‹_›, ‹_›, rfl⟩)
    · exact .inr (.inr ⟨‹_›, ‹_›, rfl⟩)

/-- `Observe` at the values the spec takes: the overflow test is on the last 64-bit value, the weight is held whole. -/
theorem State.observe_params (declared : Word) (hw : Weight) (s : State) :
    s.observe params declared hw =
      if s.ctr = BitVec.allOnes 64 then s.raise params (.ctrOverflow declared)
      else if s.InRange then (s.fold params hw).countEvent
      else s.countEvent := by
  simp only [State.observe, State.ctrFull_params, params_sampleW, narrow_of_le (Nat.le_refl 67)]

theorem State.observe_params_cases (declared : Word) (hw : Weight) (s : State) :
    (s.ctr = BitVec.allOnes 64 ∧ s.observe params declared hw = s.raise params (.ctrOverflow declared)) ∨
    (s.ctr ≠ BitVec.allOnes 64 ∧ s.InRange ∧ s.observe params declared hw = (s.fold params hw).countEvent) ∨
    (s.ctr ≠ BitVec.allOnes 64 ∧ ¬ s.InRange ∧ s.observe params declared hw = s.countEvent) := by
  rw [State.observe_params]
  split_ifs with h1 h2
  · exact .inl ⟨h1, rfl⟩
  · exact .inr (.inl ⟨h1, h2, rfl⟩)
  · exact .inr (.inr ⟨h1, h2, rfl⟩)

/-- `exec` is the parametric machine's dispatch at `params`. -/
theorem execFor_params : execFor params = exec := by
  funext i s
  cases i <;> rfl

/-! ### What a step can do -/

/-- What the decoder answers on a stream, in one place. -/
theorem decode_cons (p : Params) (tag : Byte) (r : List Byte) :
    decode p (tag :: r) =
      if r.length < 8 then .error (.truncatedHeader tag) else .ok (instrOf p tag (le64 (r.take 8)), r.drop 8) := rfl

theorem messageStep_of_end {s : State} (h : s.rest = []) : messageStep s = .next s.cleanEnd := by
  simp [messageStep, messageStepWith, State.fetch, h, decode]

theorem messageStep_of_short {s : State} {tag : Byte} {r : List Byte} (h : s.rest = tag :: r) (hr : r.length < 8) :
    messageStep s = .next (s.truncate params tag 0) := by
  simp [messageStep, messageStepWith, State.fetch, h, decode_cons, hr]

theorem messageStep_of_header {s : State} {tag : Byte} {r : List Byte} (h : s.rest = tag :: r) (hr : 8 ≤ r.length) :
    messageStep s = exec (instrOf params tag (le64 (r.take 8))) (s.advance 9) := by
  simp [messageStep, messageStepWith, State.fetch, h, decode_cons, Nat.not_lt.mpr hr, Config.hdrLen]

/-- A message step is the clean end at the end of the stream, a truncation, or an instruction run after a complete header. -/
theorem messageStep_cases (s : State) :
    (s.rest = [] ∧ messageStep s = .next s.cleanEnd) ∨
    (∃ tag r, s.rest = tag :: r ∧ r.length < 8 ∧ messageStep s = .next (s.truncate params tag 0)) ∨
    (∃ tag r, s.rest = tag :: r ∧ 8 ≤ r.length ∧
      messageStep s = exec (instrOf params tag (le64 (r.take 8))) (s.advance 9)) := by
  rcases hr : s.rest with _ | ⟨tag, r⟩
  · exact .inl ⟨rfl, messageStep_of_end hr⟩
  · rcases Nat.lt_or_ge r.length 8 with h | h
    · exact .inr (.inl ⟨tag, r, rfl, h, messageStep_of_short hr h⟩)
    · exact .inr (.inr ⟨tag, r, rfl, h, messageStep_of_header hr h⟩)

/-- What a message step can do: the clean end, a header cut short, or the effect of an instruction after its header. -/
theorem messageStep_outcome (s : State) :
    ∃ t, messageStep s = .next t ∧ ((s.rest = [] ∧ t = s.cleanEnd) ∨ (∃ tag, t = s.truncate params tag 0) ∨
      (9 ≤ s.rest.length ∧ Effect params (s.advance 9) t)) := by
  obtain ⟨h, e⟩ | ⟨tag, r, _, _, e⟩ | ⟨tag, r, h, h8, e⟩ := messageStep_cases s
  · exact ⟨_, e, .inl ⟨h, rfl⟩⟩
  · exact ⟨_, e, .inr (.inl ⟨tag, rfl⟩)⟩
  · obtain ⟨t, et, ht⟩ := exec_effect (instrOf params tag (le64 (r.take 8))) (s.advance 9)
    exact ⟨t, e.trans et, .inr (.inr ⟨by simp [h]; omega, ht⟩)⟩

/-- The same with the truncation as an effect, for proofs that treat all effects alike. -/
theorem messageStep_effect (s : State) :
    ∃ t, messageStep s = .next t ∧ ((s.rest = [] ∧ t = s.cleanEnd) ∨ Effect params s t ∨
      (9 ≤ s.rest.length ∧ Effect params (s.advance 9) t)) := by
  obtain ⟨t, e, h | ⟨tag, rfl⟩ | h⟩ := messageStep_outcome s
  · exact ⟨t, e, .inl h⟩
  · exact ⟨_, e, .inr (.inl (.truncated tag 0))⟩
  · exact ⟨t, e, .inr (.inr h)⟩

/-! ### The output handshake -/

/-- A ready sink is never waited for (R222). -/
theorem State.not_mustWait_of_ready {s : State} (h : s.outReady = true) (t : State) : ¬ s.MustWait t := fun w => absurd w.1 (by simp [h])

/-- With nothing outstanding the MAE does not wait (R222). -/
theorem State.not_mustWait_of_taken {s : State} (h : s.out.length ≤ s.delivered) (t : State) : ¬ s.MustWait t := fun w => by
  have := w.2.1; omega

/-- What emits nothing and goes on running does not wait (R222). -/
theorem State.not_mustWait_of_silent {s t : State} (h : t.out.length ≤ s.out.length) (ht : t.runState = .run) : ¬ s.MustWait t := fun w =>
  w.2.2.elim (by omega) (absurd ht)

/-- Whether the MAE waits does not depend on how far the message has been read. -/
theorem State.mustWait_advance (n : Nat) (s t : State) : (s.advance n).MustWait t ↔ s.MustWait t := Iff.rfl

/-- The message step under the handshake: taken, or waited with (R222). -/
theorem runStep_eq {s t : State} (h : messageStep s = .next t) : runStep s = .next (if s.MustWait t then s else t) := by
  simp only [runStep, runStepWith, show messageStepWith params exec s = .next t from h]

theorem runStep_of_not_wait {s t : State} (h : messageStep s = .next t) (hw : ¬ s.MustWait t) : runStep s = .next t := by
  rw [runStep_eq h, if_neg hw]

/-- What a message step under the handshake did: it waited, or it is the message step. -/
theorem runStep_cases {s t : State} (h : runStep s = .next t) :
    (t = s ∧ ∃ u, messageStep s = .next u ∧ s.MustWait u) ∨ (messageStep s = .next t ∧ ¬ s.MustWait t) := by
  obtain ⟨u, e, _⟩ := messageStep_outcome s
  rw [runStep_eq e] at h
  split at h
  · cases h; exact .inl ⟨rfl, u, e, ‹_›⟩
  · cases h; exact .inr ⟨e, ‹_›⟩

/-- With no event pending, a step in `RUN` is a message step under the handshake. -/
theorem step_of_run {s : State} (he : s.events = []) (hs : s.runState = .run) : step s = runStep s := by
  simp [step, stepWith, he, machineStepWith, runStep, hs]

theorem step_of_event {s : State} {e : HostEvent} {es : List HostEvent} (he : s.events = e :: es) :
    step s = hostStepWith params exec e { s with events := es } := by
  simp [step, stepWith, he]

/-- Where the outside does nothing, a step in `RUN` is a message step under the handshake too. -/
theorem step_of_quiet {s : State} {es : List HostEvent} (he : s.events = .quiet :: es) (hs : s.runState = .run) :
    step s = runStep { s with events := es } := by
  rw [step_of_event he]
  exact if_pos hs

/-- What a step that answers a next state did: an event of the outside, or a message step under the handshake. -/
theorem step_cases {s t : State} (h : step s = .next t) :
    (s.events = [] ∧ s.runState = .run ∧ runStep s = .next t) ∨
    ∃ e es, s.events = e :: es ∧
      ((∃ a d, e = .write a d ∧ t = { s with events := es }.regWrite params a d) ∨
       (e = .reset ∧ t = { s with events := es }.resetLine) ∨
       (e = .accept ∧ t = { s with events := es }.accept) ∨
       (∃ b, e = .sinkReady b ∧ t = { s with events := es }.setOutReady b) ∨
       (e = .quiet ∧ s.runState = .run ∧ runStep { s with events := es } = .next t) ∨
       (e = .quiet ∧ s.runState ≠ .run ∧ t = { s with events := es })) := by
  unfold step stepWith at h
  split at h
  · rename_i he
    unfold machineStepWith at h
    split at h
    · exact .inl ⟨he, ‹_›, h⟩
    all_goals cases h
  · rename_i e es he
    refine .inr ⟨e, es, he, ?_⟩
    cases e with
    | write a d => exact .inl ⟨a, d, rfl, by simpa [hostStepWith] using h.symm⟩
    | reset => exact .inr (.inl ⟨rfl, by simpa [hostStepWith] using h.symm⟩)
    | accept => exact .inr (.inr (.inl ⟨rfl, by simpa [hostStepWith] using h.symm⟩))
    | sinkReady b => exact .inr (.inr (.inr (.inl ⟨b, rfl, by simpa [hostStepWith] using h.symm⟩)))
    | quiet =>
      simp only [hostStepWith] at h
      split at h
      · exact .inr (.inr (.inr (.inr (.inl ⟨rfl, ‹_›, h⟩))))
      · exact .inr (.inr (.inr (.inr (.inr ⟨rfl, ‹_›, by simpa using h.symm⟩))))

/-- What a register write can do (R32, R33, R40). -/
theorem State.regWrite_cases (a : Byte) (d : Word) (s : State) :
    s.regWrite params a d = s ∨
    (s.runState = .idle ∧
      ((a = regBoundMin ∧ s.regWrite params a d = { s with boundMin := d }) ∨
       (a = regBoundMax ∧ s.regWrite params a d = { s with boundMax := d }) ∨
       (a = regBoundMaxInf ∧ s.regWrite params a d = { s with boundMaxInf := d[0] }) ∨
       (a = regControl ∧ d[0] = true ∧ s.regWrite params a d = { s with runState := .run }))) := by
  unfold State.regWrite
  repeat' split
  all_goals simp_all

end Sys2Proof.Machine
end

