-- ==== Sys2Proof/Laws/Encoding.lean ====
section
/-!
SUPPORT. The encoding of headers and messages: what dispatch, the sizes and the field reads answer on written bytes.
-/

namespace Sys2Proof.Machine

/-- Dispatch on the tag of a well-formed instruction gives it back. -/
theorem instrOf_tag_len (p : Params) (i : Instr) (hp : p.Distinct) (h : i.wf p = true) : instrOf p (i.tag p) i.len = i := by
  simp [Params.Distinct, Params.tags] at hp
  obtain ⟨⟨h1,h2,h3,h4⟩,⟨h5,h6,h7⟩,⟨h8,h9⟩,h10⟩ := hp
  have s1 := Ne.symm h1; have s2 := Ne.symm h2; have s3 := Ne.symm h3; have s4 := Ne.symm h4; have s5 := Ne.symm h5
  have s6 := Ne.symm h6; have s7 := Ne.symm h7; have s8 := Ne.symm h8; have s9 := Ne.symm h9; have s10 := Ne.symm h10
  cases i <;> simp_all [instrOf, Instr.tag, Instr.len, Instr.wf, Params.tags]

/-- What dispatch answers is well-formed and carries the tag and the declared length it was given. -/
theorem instrOf_wf (p : Params) (tag : Byte) (len : Word) : (instrOf p tag len).wf p = true ∧ (instrOf p tag len).tag p = tag ∧ (instrOf p tag len).len = len := by
  unfold instrOf
  repeat' split
  all_goals simp_all [Instr.wf, Instr.tag, Instr.len, Params.tags]

/-- The body of a message is its size less the 9 header bytes (R70). -/
theorem Message.body_length (m : Message) : m.body.length + 9 = m.size := by
  cases m <;> simp [Message.body, Message.size, List.length_flatMap] <;> omega

/-- The size of a well-formed message fits the length field. -/
theorem Message.size_lt (m : Message) (h : m.wf = true) : m.size < 2 ^ 64 := by
  cases m with
  | info => simp_all [Message.wf, Message.size, stringFits, Config.keyCap, Config.valueCap]; omega
  | lib => simp_all [Message.wf, Message.size, stringFits, Config.nameCap]; omega
  | exec => exact of_decide_eq_true h
  | memory => exact of_decide_eq_true h
  | thread => simp [Message.size]

/-- Decoding a written message gives the instruction of its header, and its body remains (R84). -/
theorem decode_bytesWithLen (p : Params) (len : Word) (m : Message) (r) : decode p (m.bytesWithLen p len ++ r) = .ok (instrOf p (m.tag p) len, m.body ++ r) := by
  rw [Message.bytesWithLen, List.cons_append, decode_cons, if_neg (by simp), List.append_assoc]
  rw [List.take_append_of_le_length (by simp), List.take_of_length_le (by simp), le64_encode64]
  rw [List.drop_append_of_le_length (by simp), List.drop_of_length_le (by simp)]; rfl

/-- A string that fits is read whole (R79). -/
theorem readEnds_of_stringFits {cap} {str r : List Byte} (hcap : 2 ≤ cap) (h : stringFits cap str = true) : ReadEnds cap (str ++ 0 :: r) (str.length + 1) := by
  simp [stringFits] at h
  refine ⟨by omega, by omega, by simp, ?_, .inr (by simp)⟩
  simpa using h.2

/-- An encoded field is read back at its place (R51). -/
theorem field64_encode64 (v : Word) (pre post : List Byte) (n : Nat) (h : pre.length = n) : field64 (pre ++ (encode64 v ++ post)) n = v := by
  unfold field64
  rw [List.drop_append_of_le_length (by omega), List.drop_of_length_le (by omega), List.nil_append, List.take_append_of_le_length (by simp), List.take_of_length_le (by simp), le64_encode64]

end Sys2Proof.Machine
end

