-- ==== Sys2Proof/Laws/Estimator.lean ====
section
/-!
SUPPORT. Arithmetic of the window and the counter, and the induction scheme for invariants of a step.
-/

namespace Sys2Proof.Machine

/-- The Hamming weight as a sum over the bytes (R132). -/
theorem hammingWeight_eq_sum (data : List Byte) : hammingWeight data = (data.map popcount8).sum := by
  induction data <;> simp_all [hammingWeight]

/-- Replacing an entry of a list moves its sum by the difference. -/
theorem list_sum_set (l : List Nat) (i : Nat) (x : Nat) (h : i < l.length) : (l.set i x).sum + l[i] = l.sum + x := by
  induction l generalizing i with
  | nil => simp at h
  | cons a l ih => cases i with
    | zero => simp; omega
    | succ i => simp at h ⊢; have := ih i h; omega

/-- Writing a slot moves the window's total by the difference (R134). -/
theorem bufTotal_set (s : State) (i : Fin 10) (w : Weight) : ({ s with buf := s.buf.set i w } : State).bufTotal + s.buf[i].toNat = s.bufTotal + w.toNat := by
  unfold State.bufTotal
  have := list_sum_set (s.buf.toList.map BitVec.toNat) i w.toNat (by simp)
  simp only [Vector.toList_set, List.map_set]
  simpa using this

/-- A bound on the total of a list of weights. -/
theorem weight_sum_lt (l : List Weight) : (l.map BitVec.toNat).sum < l.length * 2^67 + 1 := by
  induction l with
  | nil => simp
  | cons a l ih => have := a.isLt; simp only [List.map_cons, List.sum_cons, List.length_cons]; omega

/-- The total of the window fits `SUM_W` (R27). -/
theorem bufTotal_lt (s : State) : s.bufTotal < 2 ^ 71 := by
  have := weight_sum_lt s.buf.toList
  unfold State.bufTotal
  simp only [Vector.length_toList] at this; omega

/-- A slot is one of the terms of the window's total (R134). -/
theorem slot_le_bufTotal (s : State) (i : Fin 10) : s.buf[i].toNat ≤ s.bufTotal := by
  have := bufTotal_set s i 0
  simp at this ⊢; omega

/-- While the invariant holds, the new sum is exact (R134, R139). -/
theorem newSum_toNat (s : State) (h : s.SumInv) (w : Weight) : (s.newSum params w).toNat + s.buf[s.cursor].toNat = s.sum.toNat + w.toNat := by
  have h1 := slot_le_bufTotal s s.cursor
  have h2 := bufTotal_set s s.cursor w
  have h3 := bufTotal_lt { s with buf := s.buf.set s.cursor w }
  have h4 := s.buf[s.cursor].isLt
  have h5 := w.isLt
  have h6 := s.sum.isLt
  unfold State.SumInv at h
  simp only [State.newSum_params, BitVec.toNat_add, BitVec.toNat_sub, BitVec.toNat_setWidth]
  omega

/-- The counter does not wrap below its last value (R137). -/
theorem ctr_succ {c : Word} (h : c ≠ BitVec.allOnes 64) : (c + 1).toNat = c.toNat + 1 := by
  have h2 := c.isLt
  have : c.toNat ≠ 2^64-1 := by intro e; apply h; apply BitVec.eq_of_toNat_eq; simp [e]
  rw [BitVec.toNat_add]; simp; omega

/-- The invariant depends on `sum` and `buf` alone. -/
theorem State.SumInv.of_eq {s t : State} (h : s.SumInv) (h1 : t.sum = s.sum) (h2 : t.buf = s.buf) : t.SumInv := by
  unfold State.SumInv State.bufTotal at *; rw [h1, h2]; exact h

/-- Records observed one after the other, the last one split off. -/
theorem observeAll_append (p) (ws : List Weight) (w) (s : State) : s.observeAll p (ws ++ [w]) = (s.observeAll p ws).observe p 0 w := by
  induction ws generalizing s with
  | nil => rfl
  | cons a ws ih => exact ih _

/-- An invariant that each kind of transition keeps is kept by every step. An effect may be taken to respect the handshake (R222). -/
theorem step_keeps (I : State → Prop) (hev : ∀ s es, I s → I { s with events := es })
    (hw : ∀ s a d, I s → I (s.regWrite params a d)) (hr : ∀ s : State, I s → I s.resetLine) (ha : ∀ s : State, I s → I s.accept)
    (hb : ∀ (s : State) b, I s → I (s.setOutReady b))
    (hc : ∀ s : State, s.runState = .run → I s → I s.cleanEnd)
    (he : ∀ s t, s.runState = .run → Effect params s t → ¬ s.MustWait t → I s → I t) :
    ∀ s t, I s → step s = .next t → I t := by
  intro s t hi h
  have key : ∀ s t : State, s.runState = .run → I s → runStep s = .next t → I t := by
    intro s t hs hi h
    obtain ⟨rfl, _⟩ | ⟨h, hn⟩ := runStep_cases h
    · exact hi
    obtain ⟨t', e, h'⟩ := messageStep_effect s
    rw [h] at e; cases e
    obtain ⟨_, rfl⟩ | h' | ⟨h9, h'⟩ := h'
    · exact hc s hs hi
    · exact he s t hs h' hn hi
    · exact he _ t (by simpa using hs) h' hn
        (he s _ hs (.skipped 9 h9) (State.not_mustWait_of_silent (Nat.le_refl _) hs) hi)
  obtain ⟨_, hs, h⟩ | ⟨e, es, hev', h⟩ := step_cases h
  · exact key _ _ hs hi h
  · have hi' := hev s es hi
    obtain ⟨a, d, rfl, rfl⟩ | ⟨rfl, rfl⟩ | ⟨rfl, rfl⟩ | ⟨b, rfl, rfl⟩ | ⟨rfl, hs, h⟩ | ⟨rfl, _, rfl⟩ := h
    · exact hw _ _ _ hi'
    · exact hr _ hi'
    · exact ha _ hi'
    · exact hb _ _ hi'
    · exact key { s with events := es } _ hs hi' h
    · exact hi'

end Sys2Proof.Machine
end

