-- ==== Sys2Proof/Laws/Serial.lean ====
section
/-!
SUPPORT. The byte-serial machine (42_byte_serial_fsm.md): byte-wise assembly of a field, runs of transitions that only read, and what each
phase reads.
-/

namespace Sys2Proof.Machine

theorem serialRun_add (p : Params) (m n : Nat) (s : Serial) : serialRun p (m + n) s = (serialRun p m s).bind (serialRun p n) := by
  induction m generalizing s with
  | zero => simp [serialRun]
  | succ m ih =>
    rw [Nat.succ_add, serialRun, serialRun, Option.bind_assoc]
    exact Option.bind_congr fun a _ => ih a

theorem setByte_getLsbD (v : Word) (i : Nat) (b : Byte) (j : Nat) (hi : i < 8) :
    (setByte v i b).getLsbD j = if 8 * i ≤ j ∧ j < 8 * i + 8 then b.getLsbD (j - 8 * i) else v.getLsbD j := by
  simp only [setByte, BitVec.getLsbD_or, BitVec.getLsbD_and, BitVec.getLsbD_not, BitVec.getLsbD_shiftLeft, BitVec.getLsbD_setWidth]
  have hff : ∀ k, (0xFF : Word).getLsbD k = decide (k < 8) := by
    intro k
    rcases Nat.lt_or_ge k 64 with h | h
    · revert k; decide
    · rw [BitVec.getLsbD_of_ge _ _ h]; simp; omega
  rw [hff]
  by_cases h64 : j < 64
  · by_cases h1 : j < 8 * i
    · have : ¬ 8 * i ≤ j := by omega
      simp [h64, h1, this]
    · have h3 : 8 * i ≤ j := by omega
      by_cases h2 : j - 8 * i < 8
      · have : j < 8 * i + 8 := by omega
        have : j - 8 * i < 64 := by omega
        simp [*]
      · have : b.getLsbD (j - 8 * i) = false := BitVec.getLsbD_of_ge _ _ (by omega)
        have : ¬ j < 8 * i + 8 := by omega
        simp [*]
  · have : v.getLsbD j = false := BitVec.getLsbD_of_ge _ _ (by omega)
    have : ¬ j < 8 * i + 8 := by omega
    simp [*]

theorem leNat_testBit (bs : List Byte) (j : Nat) : (leNat bs).testBit j = (bs.getD (j / 8) 0).getLsbD (j % 8) := by
  induction bs generalizing j with
  | nil => simp [leNat]
  | cons b bs ih =>
    have e : leNat (b :: bs) = 2 ^ 8 * leNat bs + b.toNat := by simp only [leNat]; omega
    rw [e, Nat.testBit_two_pow_mul_add _ b.isLt]
    split
    · rename_i h
      rw [Nat.div_eq_of_lt h, Nat.mod_eq_of_lt h]; simp [BitVec.testBit_toNat]
    · rename_i h
      rw [ih]
      obtain ⟨i, rfl⟩ : ∃ i, j = i + 8 := ⟨j - 8, by omega⟩
      simp

/-- The low `n` bytes of `v` are the first `n` of `bs`. -/
def Assembled (bs : List Byte) (n : Nat) (v : Word) : Prop := ∀ j < 8 * n, v.getLsbD j = (bs.getD (j / 8) 0).getLsbD (j % 8)

theorem Assembled.zero (bs v) : Assembled bs 0 v := fun j hj => by omega

theorem Assembled.succ {bs n v} {b : Byte} (h : Assembled bs n v) (hn : n < 8) (hb : bs.getD n 0 = b) : Assembled bs (n + 1) (setByte v n b) := by
  intro j hj
  rw [setByte_getLsbD _ _ _ _ hn]
  split
  · rename_i h'
    have e1 : j / 8 = n := by omega
    have e2 : j % 8 = j - 8 * n := by omega
    rw [e1, e2, hb]
  · exact h j (by omega)

theorem Assembled.eq {bs v} (h : Assembled bs 8 v) : v = le64 (bs.take 8) := by
  apply BitVec.eq_of_getLsbD_eq
  intro j hj
  rw [h j (by omega), le64, BitVec.getLsbD_ofNat, leNat_testBit]
  simp only [hj, decide_true, Bool.true_and, List.getD_eq_getElem?_getD]
  rw [List.getElem?_take_of_lt (by omega)]

/-! ### Runs that only read -/

/-- `n` transitions that consume `n` bytes and change nothing architectural but `pc`, ending in `m'`. -/
structure Reads (n : Nat) (m m' : Serial) : Prop where
  run : serialRun params n m = some m'
  mid : ∀ j ≤ n, ∃ mj, serialRun params j m = some mj ∧ mj.arch = m.arch.advance j

theorem Reads.zero (m : Serial) : Reads 0 m m :=
  ⟨rfl, fun j hj => ⟨m, by rw [Nat.le_zero.mp hj]; rfl, by rw [Nat.le_zero.mp hj]; rfl⟩⟩

theorem Reads.arch {n : Nat} {m m' : Serial} (h : Reads n m m') : m'.arch = m.arch.advance n := by
  obtain ⟨mj, h1, h2⟩ := h.mid n (Nat.le_refl n)
  rw [h.run] at h1
  cases h1
  exact h2

theorem Reads.trans {a b : Nat} {m m' m'' : Serial} (h1 : Reads a m m') (h2 : Reads b m' m'') : Reads (a + b) m m'' := by
  refine ⟨by rw [serialRun_add, h1.run]; exact h2.run, fun j hj => ?_⟩
  rcases Nat.lt_or_ge a j with h | h
  · obtain ⟨mj, h3, h4⟩ := h2.mid (j - a) (by omega)
    refine ⟨mj, ?_, ?_⟩
    · rw [show j = a + (j - a) by omega, serialRun_add, h1.run]; exact h3
    · rw [h4, h1.arch, State.advance_advance]; congr 1; omega
  · exact h1.mid j h

theorem serialNext_byte {m : Serial} {b : Byte} {r : List Byte} (hs : m.arch.runState = .run) (hr : m.arch.rest = b :: r) :
    serialNext params m = some (serialByte params b m) := by
  simp [serialNext, hs, hr]

theorem serialNext_eos {m : Serial} (hs : m.arch.runState = .run) (hr : m.arch.rest = []) :
    serialNext params m = some (serialEos params m) := by
  simp [serialNext, hs, hr]

/-- There is a transition only in `RUN` (R160). -/
theorem serialNext_run {m m' : Serial} (h : serialNext params m = some m') : m.arch.runState = .run := by
  by_contra hs; simp [serialNext, hs] at h

/-- What the next byte would do is done, or withheld, as the handshake says (R222). -/
theorem serialStep_eq {m m' : Serial} (h : serialNext params m = some m') :
    serialStep params m = if m.arch.MustWait m'.arch then none else some m' := by
  simp only [serialStep, h, Option.filter_some]
  split_ifs <;> simp_all

theorem serialStep_of_not_wait {m m' : Serial} (h : serialNext params m = some m') (hw : ¬ m.arch.MustWait m'.arch) :
    serialStep params m = some m' := by
  rw [serialStep_eq h, if_neg hw]

theorem serialStep_of_wait {m m' : Serial} (h : serialNext params m = some m') (hw : m.arch.MustWait m'.arch) :
    serialStep params m = none := by
  rw [serialStep_eq h, if_pos hw]

/-- One transition on a byte that leaves the architectural state but for `pc`. -/
theorem Reads.one {m : Serial} {b : Byte} {r : List Byte} {c : Scratch} (hs : m.arch.runState = .run) (hr : m.arch.rest = b :: r)
    (h : serialByte params b m = { arch := m.arch.advance 1, scratch := c }) : Reads 1 m { arch := m.arch.advance 1, scratch := c } := by
  have e : serialRun params 1 m = some { arch := m.arch.advance 1, scratch := c } := by
    simp [serialRun, serialStep_of_not_wait (serialNext_byte hs hr) (by rw [h]; exact State.not_mustWait_of_silent (Nat.le_refl _) hs), h]
  refine ⟨e, fun j hj => ?_⟩
  obtain rfl | rfl : j = 0 ∨ j = 1 := by omega
  · exact ⟨m, rfl, rfl⟩
  · exact ⟨_, e, rfl⟩

theorem getD_cons_drop {bs : List Byte} {n : Nat} (h : n < bs.length) : ∃ r, bs.drop n = bs.getD n 0 :: r := by
  refine ⟨bs.drop (n + 1), ?_⟩
  rw [List.drop_eq_getElem_cons h]; simp [h]

/-- A loop: an invariant of the scratch registers that each byte keeps. -/
theorem Reads.loop (I : Nat → Scratch → Prop) (N : Nat) (m : Serial) (h0 : I 0 m.scratch)
    (hs : m.arch.runState = .run) (hN : N ≤ m.arch.rest.length)
    (step : ∀ n c, n < N → I n c → ∃ c', I (n + 1) c' ∧
      serialByte params (m.arch.rest.getD n 0) { arch := m.arch.advance n, scratch := c } =
        { arch := (m.arch.advance n).advance 1, scratch := c' }) :
    ∃ c, I N c ∧ Reads N m { arch := m.arch.advance N, scratch := c } := by
  induction N with
  | zero => exact ⟨m.scratch, h0, by simpa [State.advance] using Reads.zero m⟩
  | succ N ih =>
    obtain ⟨c, hc, hr⟩ := ih (by omega) fun n c hn => step n c (by omega)
    obtain ⟨c', hc', e⟩ := step N c (by omega) hc
    obtain ⟨r, hr'⟩ := getD_cons_drop (bs := m.arch.rest) (n := N) (by omega)
    refine ⟨c', hc', hr.trans ?_⟩
    rw [← State.advance_advance]
    exact Reads.one (by exact hs) (by rw [State.rest_advance]; exact hr') e

/-! ### The phases -/

theorem reads_len (n : Nat) (m : Serial) (hs : m.arch.runState = .run) (hp : m.scratch.phase = .len) (hk : m.scratch.k = 0) (hn : n ≤ 7)
    (hl : n ≤ m.arch.rest.length) :
    ∃ c : Scratch, (c.phase = .len ∧ c.tagR = m.scratch.tagR ∧ c.k.toNat = n ∧ Assembled m.arch.rest n c.lenR) ∧
      Reads n m { arch := m.arch.advance n, scratch := c } := by
  refine Reads.loop (fun n c => c.phase = .len ∧ c.tagR = m.scratch.tagR ∧ c.k.toNat = n ∧ Assembled m.arch.rest n c.lenR) n m
    ⟨hp, rfl, by simp [hk], .zero _ _⟩ hs hl ?_
  rintro i c hi ⟨h1, h2, h3, h4⟩
  refine ⟨{ { c with lenR := setByte c.lenR c.k.toNat (m.arch.rest.getD i 0) } with k := c.k + 1 }, ⟨h1, h2, ?_, ?_⟩, ?_⟩
  · rw [BitVec.toNat_add, h3, show (1 : BitVec 6).toNat = 1 from rfl]; omega
  · simp only [h3]; exact h4.succ (by omega) rfl
  · simp only [serialByte, h1]
    rw [if_pos (by omega)]

/-- What the fixed part has latched after `n` bytes. -/
def FixedInv (tag : Byte) (len : Word) (bs : List Byte) (n : Nat) (c : Scratch) : Prop :=
  c.tagR = tag ∧ c.lenR = len ∧
  (tag = 0x02 → Assembled bs (min n 8) c.execIdR ∧ Assembled (bs.drop 16) (min (n - 16) 8) c.nR ∧ Assembled (bs.drop 24) (n - 24) c.cR) ∧
  (tag = 0x03 → Assembled bs (min n 8) c.execIdR ∧ Assembled (bs.drop 25) (n - 25) c.cR)

theorem latchFixed_phase (p : Params) (b : Byte) (c : Scratch) : (c.latchFixed p b).phase = c.phase ∧ (c.latchFixed p b).k = c.k := by
  unfold Scratch.latchFixed; dsimp only; split_ifs <;> simp

theorem FixedInv.succ {tag len bs n c} (h : FixedInv tag len bs n c) (hk : c.k.toNat = n) (hn : n < fixedLen params tag) :
    FixedInv tag len bs (n + 1) (c.latchFixed params (bs.getD n 0)) := by
  obtain ⟨h1, h2, h3, h4⟩ := h
  have get (a) (ha : a ≤ n) : (bs.drop a).getD (n - a) 0 = bs.getD n 0 := by
    simp [List.getD_eq_getElem?_getD, Nat.add_sub_cancel' ha]
  by_cases t2 : tag = 0x02
  · subst t2
    have hn : n < 32 := hn
    obtain ⟨a, b, d⟩ := h3 rfl
    have e1 : c.tagR = params.tagExec := h1
    simp only [Scratch.latchFixed, if_pos e1, hk]
    split_ifs with k1 k2 k3
    · refine ⟨h1, h2, fun _ => ⟨?_, ?_, ?_⟩, fun e => absurd e (by decide)⟩
      · rw [show min (n + 1) 8 = min n 8 + 1 by omega]
        have : min n 8 = n := by omega
        rw [this] at a ⊢
        exact a.succ k1 rfl
      · rw [show min (n + 1 - 16) 8 = 0 by omega]; exact .zero _ _
      · rw [show n + 1 - 24 = 0 by omega]; exact .zero _ _
    · refine ⟨h1, h2, fun _ => ⟨?_, ?_, ?_⟩, fun e => absurd e (by decide)⟩
      · rw [show min (n + 1) 8 = min n 8 by omega]; exact a
      · rw [show min (n + 1 - 16) 8 = 0 by omega]; exact .zero _ _
      · rw [show n + 1 - 24 = 0 by omega]; exact .zero _ _
    · refine ⟨h1, h2, fun _ => ⟨?_, ?_, ?_⟩, fun e => absurd e (by decide)⟩
      · rw [show min (n + 1) 8 = min n 8 by omega]; exact a
      · rw [show min (n + 1 - 16) 8 = (n - 16) + 1 by omega]
        rw [show min (n - 16) 8 = n - 16 by omega] at b
        exact b.succ (by omega) (get 16 (by omega))
      · rw [show n + 1 - 24 = 0 by omega]; exact .zero _ _
    · refine ⟨h1, h2, fun _ => ⟨?_, ?_, ?_⟩, fun e => absurd e (by decide)⟩
      · rw [show min (n + 1) 8 = min n 8 by omega]; exact a
      · rw [show min (n + 1 - 16) 8 = min (n - 16) 8 by omega]; exact b
      · rw [show n + 1 - 24 = (n - 24) + 1 by omega]
        exact d.succ (by omega) (get 24 (by omega))
  · by_cases t3 : tag = 0x03
    · subst t3
      have hn : n < 33 := hn
      obtain ⟨a, d⟩ := h4 rfl
      have e1 : c.tagR = params.tagMemory := h1
      have e2 : c.tagR ≠ params.tagExec := by rw [e1]; decide
      simp only [Scratch.latchFixed, e2, if_false, if_pos e1, hk]
      split_ifs with k1 k2
      · refine ⟨h1, h2, fun e => absurd e (by decide), fun _ => ⟨?_, ?_⟩⟩
        · rw [show min (n + 1) 8 = min n 8 + 1 by omega]
          have : min n 8 = n := by omega
          rw [this] at a ⊢
          exact a.succ k1 rfl
        · rw [show n + 1 - 25 = 0 by omega]; exact .zero _ _
      · refine ⟨h1, h2, fun e => absurd e (by decide), fun _ => ⟨?_, ?_⟩⟩
        · rw [show min (n + 1) 8 = min n 8 by omega]; exact a
        · rw [show n + 1 - 25 = 0 by omega]; exact .zero _ _
      · refine ⟨h1, h2, fun e => absurd e (by decide), fun _ => ⟨?_, ?_⟩⟩
        · rw [show min (n + 1) 8 = min n 8 by omega]; exact a
        · rw [show n + 1 - 25 = (n - 25) + 1 by omega]
          exact d.succ (by omega) (get 25 (by omega))
    · have e1 : c.tagR ≠ params.tagExec := by rw [h1]; exact t2
      have e2 : c.tagR ≠ params.tagMemory := by rw [h1]; exact t3
      simp only [Scratch.latchFixed, e1, e2, if_false]
      exact ⟨h1, h2, fun e => absurd e t2, fun e => absurd e t3⟩

theorem reads_fixed (n : Nat) (tag : Byte) (len : Word) (m : Serial) (hs : m.arch.runState = .run) (hp : m.scratch.phase = .fixed)
    (hk : m.scratch.k = 0) (ht : m.scratch.tagR = tag) (hlen : m.scratch.lenR = len) (hn : n < fixedLen params tag) (hl : n ≤ m.arch.rest.length) :
    ∃ c : Scratch, (c.phase = .fixed ∧ c.k.toNat = n ∧ FixedInv tag len m.arch.rest n c) ∧
      Reads n m { arch := m.arch.advance n, scratch := c } := by
  have h33 : fixedLen params tag ≤ 33 := by unfold fixedLen; split_ifs <;> omega
  refine Reads.loop (fun n c => c.phase = .fixed ∧ c.k.toNat = n ∧ FixedInv tag len m.arch.rest n c) n m
    ⟨hp, by simp [hk], ht, hlen, fun _ => ⟨.zero _ _, .zero _ _, .zero _ _⟩, fun _ => ⟨.zero _ _, .zero _ _⟩⟩ hs hl ?_
  rintro i c hi ⟨h1, h2, h3⟩
  have hph := latchFixed_phase params (m.arch.rest.getD i 0) c
  refine ⟨{ c.latchFixed params (m.arch.rest.getD i 0) with k := c.k + 1 }, ⟨hph.1.trans h1, ?_, ?_⟩, ?_⟩
  · rw [BitVec.toNat_add, h2, show (1 : BitVec 6).toNat = 1 from rfl]; omega
  · exact h3.succ h2 (by omega)
  · simp only [serialByte, h1]
    rw [if_pos (by rw [h2, h3.1]; omega)]

theorem reads_str (n : Nat) (m : Serial) (hs : m.arch.runState = .run) (hp : m.scratch.phase = .str) (hc : m.scratch.scnt = 0)
    (hcap : m.scratch.scap = 128 ∨ m.scratch.scap = 2048) (hn : n < m.scratch.scap.toNat - 1) (hl : n ≤ m.arch.rest.length)
    (hz : ∀ b ∈ m.arch.rest.take n, b ≠ 0) :
    Reads n m { arch := m.arch.advance n, scratch := { m.scratch with scnt := BitVec.ofNat 11 n } } := by
  have hcap' : m.scratch.scap.toNat ≤ 2048 := by rcases hcap with e | e <;> rw [e] <;> decide
  obtain ⟨c, rfl, h⟩ := Reads.loop (fun n c => c = { m.scratch with scnt := BitVec.ofNat 11 n }) n m
    (by rw [show BitVec.ofNat 11 0 = m.scratch.scnt from hc.symm]) hs hl (by
      rintro i c hi rfl
      refine ⟨_, rfl, ?_⟩
      have hb : m.arch.rest.getD i 0 ≠ 0 := by
        apply hz
        rw [List.getD_eq_getElem?_getD, List.getElem?_eq_getElem (by omega)]
        simp only [Option.getD_some]
        exact List.mem_take_iff_getElem.mpr ⟨i, by omega, rfl⟩
      have e : (BitVec.ofNat 11 i + 1 : BitVec 11) = BitVec.ofNat 11 (i + 1) := by
        apply BitVec.eq_of_toNat_eq; simp
      have e2 : (BitVec.ofNat 11 (i + 1)).toNat = i + 1 := by simp; omega
      simp only [serialByte, hp, Scratch.stringByte, hb, false_or, e, e2]
      rw [if_neg (by omega)])
  exact h

theorem hammingWeight_take_succ (bs : List Byte) (n : Nat) (h : n < bs.length) :
    hammingWeight (bs.take (n + 1)) = hammingWeight (bs.take n) + popcount8 (bs.getD n 0) := by
  induction bs generalizing n with
  | nil => simp at h
  | cons b bs ih =>
    cases n with
    | zero => simp [hammingWeight]
    | succ n => 
      simp only [List.take_succ_cons, hammingWeight, ih n (by simpa using h), List.getD_cons_succ]
      omega

theorem reads_var (n : Nat) (m : Serial) (hs : m.arch.runState = .run) (hp : m.scratch.phase = .var)
    (hn : n < m.scratch.rem.toNat) (hl : n ≤ m.arch.rest.length) :
    Reads n m { arch := m.arch.advance n, scratch := { m.scratch with
      rem := m.scratch.rem - BitVec.ofNat 68 n,
      hwAcc := if m.scratch.tagR = 0x03 then m.scratch.hwAcc + BitVec.ofNat 67 (hammingWeight (m.arch.rest.take n)) else m.scratch.hwAcc } } := by
  have hlt := m.scratch.rem.isLt
  obtain ⟨c, rfl, h⟩ := Reads.loop (fun n c => c = { m.scratch with
      rem := m.scratch.rem - BitVec.ofNat 68 n,
      hwAcc := if m.scratch.tagR = 0x03 then m.scratch.hwAcc + BitVec.ofNat 67 (hammingWeight (m.arch.rest.take n)) else m.scratch.hwAcc }) n m
    (by simp [hammingWeight]) hs hl (by
      rintro i c hi rfl
      refine ⟨_, rfl, ?_⟩
      have e : (m.scratch.rem - BitVec.ofNat 68 i - 1 : BitVec 68) = m.scratch.rem - BitVec.ofNat 68 (i + 1) := by
        rw [BitVec.ofNat_add, BitVec.sub_sub]; rfl
      have e2 : m.scratch.rem - BitVec.ofNat 68 (i + 1) ≠ 0 := by
        intro h
        have := congrArg BitVec.toNat h
        rw [BitVec.toNat_sub, BitVec.toNat_ofNat, show (0 : BitVec 68).toNat = 0 from rfl] at this; omega
      have e3 : params.tagMemory = 0x03 := rfl
      simp only [serialByte, hp, serialVarByte, e, e2, if_false, e3]
      congr 2
      split
      · rw [hammingWeight_take_succ _ _ (by omega), BitVec.ofNat_add, BitVec.add_assoc]
      · rfl)
  exact h

/-- `m` runs, reading only, to the transition that leaves the architectural state `t` and, unless the run has halted, the phase `P_TAG`
(R169). Whether that transition takes place is the handshake's (`Reaches.run`, `Reaches.withheld`). -/
def Reaches (m : Serial) (t : State) : Prop :=
  ∃ (k : Nat) (m1 m2 : Serial), Reads k m m1 ∧ serialNext params m1 = some m2 ∧ m2.arch = t ∧
    (t.runState = .run → m2.scratch.phase = .tag)

/-- Where the MAE need not wait, the transition takes place (R169). -/
theorem Reaches.run {m : Serial} {t : State} (h : Reaches m t) (hw : ¬ m.arch.MustWait t) :
    ∃ (k : Nat) (m' : Serial), 1 ≤ k ∧ serialRun params k m = some m' ∧ m'.arch = t ∧
      (t.runState = .run → m'.scratch.phase = .tag) ∧
      ∀ j < k, ∃ mj, serialRun params j m = some mj ∧ mj.arch = { m.arch with pc := m.arch.pc + j } := by
  obtain ⟨k, m1, m2, h1, h2, rfl, h4⟩ := h
  have hs : serialStep params m1 = some m2 := serialStep_of_not_wait h2 (by rw [h1.arch]; exact hw)
  refine ⟨k + 1, m2, by omega, ?_, rfl, h4, fun j hj => h1.mid j (by omega)⟩
  rw [serialRun_add, h1.run]
  simp [serialRun, hs]

/-- Where it must wait, every byte before the last transition is consumed, and that transition's byte or end of the stream is withheld (R216, R222). -/
theorem Reaches.withheld {m : Serial} {t : State} (h : Reaches m t) (hw : m.arch.MustWait t) :
    ∃ (k : Nat) (m1 m2 : Serial), serialRun params k m = some m1 ∧ m1.arch = { m.arch with pc := m.arch.pc + k } ∧
      serialStep params m1 = none ∧ serialNext params m1 = some m2 ∧ m2.arch = t ∧ (t.runState = .run → m2.scratch.phase = .tag) := by
  obtain ⟨k, m1, m2, h1, h2, rfl, h4⟩ := h
  exact ⟨k, m1, m2, h1.run, h1.arch, serialStep_of_wait h2 (by rw [h1.arch]; exact hw), h2, rfl, h4⟩

/-- The stream ends after `n` more bytes. -/
theorem Reads.eos {n} {m m1 : Serial} {tag d} (h : Reads n m m1) (hs : m.arch.runState = .run) (hw : Memory.wf m.arch) (hn : m.arch.rest.length = n)
    (he : serialEos params m1 = { m1 with arch := m1.arch.raise params (.truncated tag d) }) : Reaches m (m.arch.truncate params tag d) := by
  have ha := h.arch
  have hl := m.arch.rest_length
  refine ⟨n, m1, _, h, serialNext_eos (by rw [ha]; exact hs) (by rw [ha, State.rest_advance]; exact List.drop_of_length_le (by omega)), ?_, by simp⟩
  rw [he, ha]
  have : m.arch.pc + n = m.arch.input.length := by have := hw.1; omega
  simp only [State.truncate, State.advance, this]

theorem serialEos_mid {m1 : Serial} (h : m1.scratch.phase = .fixed ∨ m1.scratch.phase = .str ∨ m1.scratch.phase = .var) :
    serialEos params m1 = { m1 with arch := m1.arch.raise params (.truncated m1.scratch.tagR m1.scratch.lenR) } := by
  unfold serialEos; rcases h with e | e | e <;> rw [e]

theorem Memory.wf_advance {s : State} {n : Nat} (h : Memory.wf s) (hn : n ≤ s.rest.length) : Memory.wf (s.advance n) := by
  have := s.rest_length
  exact ⟨by have := h.1; simp; omega, h.2⟩

/-- Prefix a reach by a read. -/
theorem Reads.then_reaches {n} {m m1 : Serial} {t : State} (h : Reads n m m1) (h1 : Reaches m1 t) : Reaches m t := by
  obtain ⟨k, m2, m3, hr, h2⟩ := h1
  exact ⟨n + k, m2, m3, h.trans hr, h2⟩

theorem boundedCount_eq_none (l : Nat) (bs : List Byte) (h : boundedCount l bs = none) : bs.length < l ∧ ∀ b ∈ bs, b ≠ 0 := by
  induction l generalizing bs with
  | zero => simp [boundedCount] at h
  | succ l ih =>
    cases bs with
    | nil => simp
    | cons b bs =>
      by_cases hb : b = 0
      · simp [boundedCount, hb] at h
      · simp only [boundedCount, if_neg hb, Option.map_eq_none_iff] at h
        have := ih bs h
        simp; exact ⟨by omega, hb, this.2⟩

/-- A whole bounded read. -/
theorem reads_string {m : Serial} {n : Nat} (hs : m.arch.runState = .run) (hp : m.scratch.phase = .str) (hc : m.scratch.scnt = 0)
    (hcap : m.scratch.scap = 128 ∨ m.scratch.scap = 2048) (h : boundedCount (m.scratch.scap.toNat - 1) m.arch.rest = some n) :
    ∃ c, Reads n m { arch := m.arch.advance n, scratch := c } ∧ c.tagR = m.scratch.tagR ∧ c.lenR = m.scratch.lenR ∧
     (if m.scratch.slast then c.phase = .tag else (c.phase = .str ∧ c.scnt = 0 ∧ c.scap = 2048 ∧ c.slast = true)) := by
  have hcap' : 2 ≤ m.scratch.scap.toNat ∧ m.scratch.scap.toNat ≤ 2048 := by rcases hcap with e | e <;> rw [e] <;> decide
  obtain ⟨h1, h2, h3, h4, h5⟩ := (boundedCount_eq_some_iff hcap'.1 _ _).mp h
  obtain ⟨q, rfl⟩ : ∃ q, n = q + 1 := ⟨n - 1, by omega⟩
  have R := reads_str q m hs hp hc hcap (by omega) (by omega) h4
  obtain ⟨r, hr⟩ := getD_cons_drop (bs := m.arch.rest) (n := q) (by omega)
  have hend : m.arch.rest.getD q 0 = 0 ∨ q + 1 = m.scratch.scap.toNat - 1 := by
    rcases h5 with e | e
    · exact .inr e
    · left; simp only [Nat.add_sub_cancel] at e; simp [List.getD_eq_getElem?_getD, e]
  have e2 : (BitVec.ofNat 11 q + 1 : BitVec 11).toNat = q + 1 := by
    rw [BitVec.toNat_add, BitVec.toNat_ofNat, show (1 : BitVec 11).toNat = 1 from rfl]; omega
  have key : ∃ c, serialByte params (m.arch.rest.getD q 0) { arch := m.arch.advance q, scratch := { m.scratch with scnt := BitVec.ofNat 11 q } }
      = { arch := (m.arch.advance q).advance 1, scratch := c } ∧ c.tagR = m.scratch.tagR ∧ c.lenR = m.scratch.lenR ∧
     (if m.scratch.slast then c.phase = .tag else (c.phase = .str ∧ c.scnt = 0 ∧ c.scap = 2048 ∧ c.slast = true)) := by
    simp only [serialByte, hp, Scratch.stringByte, e2]
    rw [if_pos hend]
    cases hl : m.scratch.slast
    · refine ⟨_, rfl, ?_⟩
      simp [Scratch.startString]
    · refine ⟨_, rfl, ?_⟩
      simp
  obtain ⟨c, e, k1, k2, k3⟩ := key
  refine ⟨c, ?_, k1, k2, k3⟩
  have := R.trans (Reads.one (m := { arch := m.arch.advance q, scratch := { m.scratch with scnt := BitVec.ofNat 11 q } }) hs (by rw [State.rest_advance]; exact hr) e)
  simpa [State.advance_advance] using this

theorem reaches_string_truncated {m : Serial} (hs : m.arch.runState = .run) (hw : Memory.wf m.arch) (hp : m.scratch.phase = .str)
    (hc : m.scratch.scnt = 0)
    (hcap : m.scratch.scap = 128 ∨ m.scratch.scap = 2048) (h : boundedCount (m.scratch.scap.toNat - 1) m.arch.rest = none) :
    Reaches m (m.arch.truncate params m.scratch.tagR m.scratch.lenR) := by
  obtain ⟨h1, h2⟩ := boundedCount_eq_none _ _ h
  have R := reads_str _ m hs hp hc hcap h1 (Nat.le_refl _) (fun b hb => h2 b (List.mem_of_mem_take hb))
  exact R.eos hs hw rfl (serialEos_mid (.inr (.inl hp)))

theorem serialNext_at {s : State} {c : Scratch} {n : Nat} {b : Byte} {r : List Byte} (hs : s.runState = .run) (hr : s.rest.drop n = b :: r) :
    serialNext params { arch := s.advance n, scratch := c } = some (serialByte params b { arch := s.advance n, scratch := c }) :=
  serialNext_byte hs (by rw [State.rest_advance]; exact hr)

theorem reads_tag {m : Serial} {tag : Byte} {r : List Byte} (hs : m.arch.runState = .run) (hp : m.scratch.phase = .tag)
    (hr : m.arch.rest = tag :: r) :
    Reads 1 m { arch := m.arch.advance 1, scratch := { m.scratch with tagR := tag, k := 0, phase := .len } } :=
  Reads.one hs hr (by simp only [serialByte, hp])

/-- The header but its last byte. -/
theorem reads_header {m : Serial} {tag : Byte} {r : List Byte} (hs : m.arch.runState = .run) (hp : m.scratch.phase = .tag)
    (hr : m.arch.rest = tag :: r)
    (n : Nat) (hn : n ≤ 7) (hl : n ≤ r.length) :
    ∃ c : Scratch, (c.phase = .len ∧ c.tagR = tag ∧ c.k.toNat = n ∧ Assembled r n c.lenR) ∧
      Reads (1 + n) m { arch := m.arch.advance (1 + n), scratch := c } := by
  have R := reads_tag hs hp hr
  have hr1 : (m.arch.advance 1).rest = r := by simp [hr]
  obtain ⟨c, h1, h2⟩ := reads_len n { arch := m.arch.advance 1, scratch := { m.scratch with tagR := tag, k := 0, phase := .len } } hs rfl rfl hn (by rw [hr1]; exact hl)
  rw [hr1] at h1
  refine ⟨c, h1, ?_⟩
  have := R.trans h2
  simpa [State.advance_advance] using this

theorem header_step {m : Serial} {tag : Byte} {r : List Byte} (hs : m.arch.runState = .run) (hp : m.scratch.phase = .tag)
    (hr : m.arch.rest = tag :: r)
    (hl : 8 ≤ r.length) :
    ∃ c m1 : Serial, Reads 8 m m1 ∧ m1.arch.runState = .run ∧ serialNext params m1 = some (serialDispatch params c) ∧ c.arch = m.arch.advance 9 ∧
      c.scratch.tagR = tag ∧ c.scratch.lenR = le64 (r.take 8) := by
  obtain ⟨c, ⟨h1, h2, h3, h4⟩, R⟩ := reads_header hs hp hr 7 (by omega) (by omega)
  obtain ⟨r', hr'⟩ := getD_cons_drop (bs := m.arch.rest) (n := 8) (by rw [hr]; simp; omega)
  have hb : m.arch.rest.getD 8 0 = r.getD 7 0 := by rw [hr]; rfl
  refine ⟨{ arch := m.arch.advance 9, scratch := { c with lenR := setByte c.lenR 7 (r.getD 7 0) } }, _, R, hs, ?_, rfl, h2, ?_⟩
  · rw [serialNext_at hs hr', hb]
    simp only [serialByte, h1, h3]
    rw [if_neg (by omega)]
    simp [State.advance_advance]
  · exact (h4.succ (by omega) rfl).eq

/-- A read goes on by a transition that only reads. -/
theorem Reads.step {n} {m m1 m2 : Serial} (h : Reads n m m1) (h1 : serialNext params m1 = some m2) (h2 : m2.arch = m.arch.advance (n + 1)) :
    Reads (n + 1) m m2 := by
  have hs : serialStep params m1 = some m2 :=
    serialStep_of_not_wait h1 (State.not_mustWait_of_silent (by rw [h2, h.arch]; exact Nat.le_refl _)
      (by have := serialNext_run h1; rw [h.arch] at this; rw [h2]; exact this))
  have e : serialRun params (n + 1) m = some m2 := by rw [serialRun_add, h.run]; simp [serialRun, hs]
  refine ⟨e, fun j hj => ?_⟩
  rcases Nat.lt_or_ge n j with h' | h'
  · obtain rfl : j = n + 1 := by omega
    exact ⟨m2, e, h2⟩
  · exact h.mid j h'

theorem reads_fixed_part {m : Serial} (tag : Byte) (len : Word) (hs : m.arch.runState = .run) (hp : m.scratch.phase = .fixed) (hk : m.scratch.k = 0)
    (ht : m.scratch.tagR = tag) (hlen : m.scratch.lenR = len) (F : Nat) (hF : fixedLen params tag = F + 1) (hl : F + 1 ≤ m.arch.rest.length) :
    ∃ (m1 : Serial) (c : Scratch), Reads F m m1 ∧ m1.arch.runState = .run ∧ FixedInv tag len m.arch.rest (F + 1) c ∧
      serialNext params m1 = some (serialEndFixed params { arch := m.arch.advance (F + 1), scratch := c }) := by
  obtain ⟨c, ⟨h1, h2, h3⟩, R⟩ := reads_fixed F tag len m hs hp hk ht hlen (by omega) (by omega)
  obtain ⟨r, hr⟩ := getD_cons_drop (bs := m.arch.rest) (n := F) (by omega)
  refine ⟨_, c.latchFixed params (m.arch.rest.getD F 0), R, hs, h3.succ h2 (by omega), ?_⟩
  rw [serialNext_at hs hr]
  simp only [serialByte, h1]
  rw [if_neg (by rw [h2, h3.1]; omega)]
  simp [State.advance_advance]

theorem reaches_fixed_truncated {m : Serial} (tag : Byte) (len : Word) (hs : m.arch.runState = .run) (hw : Memory.wf m.arch)
    (hp : m.scratch.phase = .fixed) (hk : m.scratch.k = 0)
    (ht : m.scratch.tagR = tag) (hlen : m.scratch.lenR = len) (hl : m.arch.rest.length < fixedLen params tag) :
    Reaches m (m.arch.truncate params tag len) := by
  obtain ⟨c, ⟨h1, h2, h3⟩, R⟩ := reads_fixed _ tag len m hs hp hk ht hlen hl (Nat.le_refl _)
  refine R.eos hs hw rfl ?_
  rw [serialEos_mid (.inl h1), h3.1, h3.2.1]

/-- The variable part of a message. -/
theorem reads_variable_part {m : Serial} (hs : m.arch.runState = .run) (hp : m.scratch.phase = .var) (N : Nat)
    (hN : m.scratch.rem.toNat = N + 1) (hl : N + 1 ≤ m.arch.rest.length) :
    ∃ (m1 : Serial) (c : Scratch), Reads N m m1 ∧ c.tagR = m.scratch.tagR ∧ c.lenR = m.scratch.lenR ∧
      c.hwAcc = (if m.scratch.tagR = 0x03 then m.scratch.hwAcc + BitVec.ofNat 67 (hammingWeight (m.arch.rest.take (N + 1))) else m.scratch.hwAcc) ∧
      serialNext params m1 = some (if m.scratch.tagR = 0x03 then serialCommit params { arch := m.arch.advance (N + 1), scratch := c }
        else { arch := m.arch.advance (N + 1), scratch := { c with phase := .tag } }) := by
  have R := reads_var N m hs hp (by omega) (by omega)
  obtain ⟨r, hr⟩ := getD_cons_drop (bs := m.arch.rest) (n := N) (by omega)
  have hlt := m.scratch.rem.isLt
  have e : (m.scratch.rem - BitVec.ofNat 68 N - 1 : BitVec 68) = 0 := by
    rw [BitVec.sub_sub]
    have : m.scratch.rem = BitVec.ofNat 68 N + 1 := by
      apply BitVec.eq_of_toNat_eq
      rw [hN, BitVec.toNat_add, BitVec.toNat_ofNat, show (1 : BitVec 68).toNat = 1 from rfl]; omega
    rw [this]; simp
  have e3 : params.tagMemory = 0x03 := rfl
  refine ⟨_, { m.scratch with rem := 0, hwAcc := if m.scratch.tagR = 0x03 then m.scratch.hwAcc + BitVec.ofNat 67 (hammingWeight (m.arch.rest.take (N + 1))) else m.scratch.hwAcc },
    R, rfl, rfl, rfl, ?_⟩
  rw [serialNext_at hs hr]
  simp only [serialByte, hp, serialVarByte, e, if_true, e3]
  by_cases h3 : m.scratch.tagR = 0x03
  · simp only [h3, if_true, State.advance_advance]
    rw [hammingWeight_take_succ _ _ (by omega), BitVec.ofNat_add, BitVec.add_assoc]
  · simp only [h3, if_false, State.advance_advance]

theorem reaches_variable_truncated {m : Serial} (hs : m.arch.runState = .run) (hw : Memory.wf m.arch) (hp : m.scratch.phase = .var)
    (hl : m.arch.rest.length < m.scratch.rem.toNat) :
    Reaches m (m.arch.truncate params m.scratch.tagR m.scratch.lenR) := by
  have R := reads_var _ m hs hp hl (Nat.le_refl _)
  exact R.eos hs hw rfl (serialEos_mid (.inr (.inr hp)))

theorem reaches_info {m : Serial} {len} (hs : m.arch.runState = .run) (hw : Memory.wf m.arch) (ht : m.scratch.tagR = 0) (hl : m.scratch.lenR = len)
    (hp : m.scratch.phase = .str) (hc : m.scratch.scnt = 0) (hcap : m.scratch.scap = 128) (hlast : m.scratch.slast = false) :
    (doInfo params len m.arch).runState = .fatal ∧ Reaches m (doInfo params len m.arch) ∨
    ∃ n m', 1 ≤ n ∧ Reads n m m' ∧ m'.scratch.phase = .tag ∧ m'.arch = doInfo params len m.arch := by
  have e1 : m.scratch.scap.toNat - 1 = 128 - 1 := by rw [hcap]; rfl
  unfold doInfo State.readInfo State.boundedRead
  cases h : boundedCount (128 - 1) m.arch.rest with
  | none =>
    left
    simp only [Config.keyCap, h]
    have := reaches_string_truncated hs hw hp hc (.inl hcap) (by rw [e1]; exact h)
    rw [ht, hl] at this
    exact ⟨by simp, this⟩
  | some n =>
    obtain ⟨c, R, k1, k2, k3⟩ := reads_string hs hp hc (.inl hcap) (by rw [e1]; exact h)
    rw [hlast] at k3
    obtain ⟨k3, k4, k5, k6⟩ := k3
    have hn := ((boundedCount_eq_some_iff (by omega) _ _).mp h)
    simp only [Config.keyCap, h, Option.map_some, Option.bind_some, Config.valueCap]
    have e2 : c.scap.toNat - 1 = 2048 - 1 := by rw [k5]; rfl
    cases h2 : boundedCount (2048 - 1) (m.arch.advance n).rest with
    | none =>
      left
      have := reaches_string_truncated (m := { arch := m.arch.advance n, scratch := c }) hs (Memory.wf_advance hw hn.2.2.1) k3 k4 (.inr k5) (by rw [e2]; exact h2)
      have := R.then_reaches this
      simp only [State.truncate_advance, k1, k2, ht, hl] at this
      exact ⟨by simp, this⟩
    | some n2 =>
      right
      obtain ⟨c', R', _, _, j3⟩ := reads_string (m := { arch := m.arch.advance n, scratch := c }) hs k3 k4 (.inr k5) (by rw [e2]; exact h2)
      rw [k6] at j3
      exact ⟨n + n2, _, by omega, R.trans R', j3, rfl⟩

theorem reads_name {m : Serial} (hs : m.arch.runState = .run) (hw : Memory.wf m.arch)
    (hp : m.scratch.phase = .str) (hc : m.scratch.scnt = 0) (hcap : m.scratch.scap = 2048) (hlast : m.scratch.slast = true) :
    match m.arch.boundedRead 2048 with
    | none => Reaches m (m.arch.truncate params m.scratch.tagR m.scratch.lenR)
    | some t => ∃ n m', 1 ≤ n ∧ Reads n m m' ∧ m'.scratch.phase = .tag ∧ m'.arch = t := by
  have e1 : m.scratch.scap.toNat - 1 = 2048 - 1 := by rw [hcap]; rfl
  unfold State.boundedRead
  cases h : boundedCount (2048 - 1) m.arch.rest with
  | none => exact reaches_string_truncated hs hw hp hc (.inr hcap) (by rw [e1]; exact h)
  | some n =>
    obtain ⟨c, R, k1, k2, k3⟩ := reads_string hs hp hc (.inr hcap) (by rw [e1]; exact h)
    rw [hlast] at k3
    have hn := ((boundedCount_eq_some_iff (by omega) _ _).mp h)
    exact ⟨n, _, hn.1, R, k3, rfl⟩

/-- What a transition takes is what the next byte would do. -/
theorem serialNext_of_step {m m' : Serial} (h : serialStep params m = some m') : serialNext params m = some m' :=
  (Option.filter_eq_some_iff.mp h).1

/-- A read that ends the message reaches its state. -/
theorem Reads.done {n} {m m' : Serial} {t : State} (hn : 1 ≤ n) (h : Reads n m m') (ht : m'.arch = t) (hp : m'.scratch.phase = .tag) : Reaches m t := by
  obtain ⟨k, rfl⟩ : ∃ k, n = k + 1 := ⟨n - 1, by omega⟩
  obtain ⟨mk, h1, h2⟩ := h.mid k (by omega)
  have e := h.run
  rw [serialRun_add, h1] at e
  refine ⟨k, mk, m', ⟨h1, fun j hj => h.mid j (by omega)⟩, serialNext_of_step ?_, ht, fun _ => hp⟩
  cases hs : serialStep params mk <;> simp_all [serialRun]

end Sys2Proof.Machine
end

