-- ==== Sys2Proof/Laws/Handshake.lean ====
section
/-!
SUPPORT. The output handshake (70_reset_and_hazards.md R216, R222): what a message, a byte or an end of the run does, once it takes place, does
not depend on the sink or on the events to come, so these can be put into a state before a transition or after it.
-/

namespace Sys2Proof.Machine

/-- The state with `es` as the events to come and a sink that is not ready and has taken `taken` samples; at an end of the run all have been
delivered (R101, R190). -/
def State.withSlowSink (es : List HostEvent) (taken : Nat) (s : State) : State :=
  { s with events := es, outReady := false, delivered := if s.runState = .run then taken else s.out.length }

theorem State.withSlowSink_of_run {s : State} (h : s.runState = .run) (es : List HostEvent) (taken : Nat) :
    s.withSlowSink es taken = { s with events := es, outReady := false, delivered := taken } := by
  simp [State.withSlowSink, h]

@[simp] theorem State.withSlowSink_rest (es : List HostEvent) (taken : Nat) (s : State) : (s.withSlowSink es taken).rest = s.rest := rfl
@[simp] theorem State.withSlowSink_runState (es : List HostEvent) (taken : Nat) (s : State) : (s.withSlowSink es taken).runState = s.runState := rfl
@[simp] theorem State.withSlowSink_out (es : List HostEvent) (taken : Nat) (s : State) : (s.withSlowSink es taken).out = s.out := rfl
@[simp] theorem State.withSlowSink_advance (es : List HostEvent) (taken n : Nat) (s : State) :
    (s.withSlowSink es taken).advance n = (s.advance n).withSlowSink es taken := rfl

@[simp] theorem State.withSlowSink_raise (es : List HostEvent) (taken : Nat) (p : Params) (c : Cause) (s : State) :
    (s.withSlowSink es taken).raise p c = (s.raise p c).withSlowSink es taken := by
  cases c <;> rfl

@[simp] theorem State.withSlowSink_truncate (es : List HostEvent) (taken : Nat) (p : Params) (tag : Byte) (d : Word) (s : State) :
    (s.withSlowSink es taken).truncate p tag d = (s.truncate p tag d).withSlowSink es taken := rfl

@[simp] theorem State.withSlowSink_cleanEnd (es : List HostEvent) (taken : Nat) (s : State) :
    (s.withSlowSink es taken).cleanEnd = s.cleanEnd.withSlowSink es taken := rfl

/-- What the sink does is forgotten. -/
@[simp] theorem State.withSlowSink_of_accept (es : List HostEvent) (taken : Nat) (s : State) :
    s.accept.withSlowSink es taken = s.withSlowSink es taken := by
  unfold State.accept
  split <;> rfl

@[simp] theorem State.withSlowSink_of_setOutReady (es : List HostEvent) (taken : Nat) (b : Bool) (s : State) :
    (s.setOutReady b).withSlowSink es taken = s.withSlowSink es taken := rfl

/-- An observation by a machine that runs. -/
theorem State.withSlowSink_observe {s : State} (hs : s.runState = .run) (es : List HostEvent) (taken : Nat) (p : Params) (declared : Word) (hw : Weight) :
    (s.withSlowSink es taken).observe p declared hw = (s.observe p declared hw).withSlowSink es taken := by
  unfold State.observe
  by_cases h1 : s.CtrFull p
  · rw [if_pos h1, if_pos (show (s.withSlowSink es taken).CtrFull p from h1)]
    exact s.withSlowSink_raise es taken p _
  rw [if_neg h1, if_neg (show ¬ (s.withSlowSink es taken).CtrFull p from h1)]
  by_cases h2 : s.InRange
  · rw [if_pos h2, if_pos (show (s.withSlowSink es taken).InRange from h2)]
    unfold State.fold
    by_cases h3 : s.Warm p
    · rw [if_pos h3, if_pos (show (s.withSlowSink es taken).Warm p from h3)]
      simp [State.withSlowSink, State.countEvent, State.emit, State.updateWindow, State.newSum, hs]
    · rw [if_neg h3, if_neg (show ¬ (s.withSlowSink es taken).Warm p from h3)]
      rfl
  · rw [if_neg h2, if_neg (show ¬ (s.withSlowSink es taken).InRange from h2)]
    rfl

/-! ### Message by message -/

theorem State.withSlowSink_boundedRead (es : List HostEvent) (taken cap : Nat) (s : State) :
    (s.withSlowSink es taken).boundedRead cap = (s.boundedRead cap).map (State.withSlowSink es taken) := by
  simp only [State.boundedRead, State.withSlowSink_rest, Option.map_map]
  rfl

theorem doInfo_withSlowSink (es : List HostEvent) (taken : Nat) (p : Params) (len : Word) (s : State) :
    doInfo p len (s.withSlowSink es taken) = (doInfo p len s).withSlowSink es taken := by
  have h : (s.withSlowSink es taken).readInfo = s.readInfo.map (State.withSlowSink es taken) := by
    unfold State.readInfo
    rw [State.withSlowSink_boundedRead]
    cases s.boundedRead Config.keyCap <;> simp [State.withSlowSink_boundedRead]
  unfold doInfo
  rw [h]
  cases s.readInfo <;> rfl

theorem doLib_withSlowSink (es : List HostEvent) (taken : Nat) (p : Params) (len : Word) (s : State) :
    doLib p len (s.withSlowSink es taken) = (doLib p len s).withSlowSink es taken := by
  have h : (s.withSlowSink es taken).readLib = s.readLib.map (State.withSlowSink es taken) := by
    simp only [State.readLib, State.skip_eq, bind_guard, apply_ite (Option.map (State.withSlowSink es taken)), Option.map_none]
    refine if_congr Iff.rfl (if_congr Iff.rfl ?_ rfl) rfl
    exact State.withSlowSink_boundedRead es taken Config.nameCap ((s.advance 8).advance 8)
  unfold doLib
  rw [h]
  cases s.readLib <;> rfl

theorem doExec_withSlowSink (es : List HostEvent) (taken : Nat) (p : Params) (len : Word) (s : State) :
    doExec p len (s.withSlowSink es taken) = (doExec p len s).withSlowSink es taken := by
  simp only [doExec_eq, apply_ite (State.withSlowSink es taken)]
  exact if_congr Iff.rfl (if_congr Iff.rfl (if_congr Iff.rfl rfl rfl)
    (State.withSlowSink_raise es taken p _ (s.advance 32))) rfl

theorem doMemory_withSlowSink {s : State} (hs : s.runState = .run) (es : List HostEvent) (taken : Nat) (p : Params) (len : Word) :
    doMemory p len (s.withSlowSink es taken) = (doMemory p len s).withSlowSink es taken := by
  simp only [doMemory_eq, apply_ite (State.withSlowSink es taken)]
  exact if_congr Iff.rfl (if_congr Iff.rfl (if_congr Iff.rfl (State.withSlowSink_observe (s := s.advance _) hs es taken p len _) rfl)
    (State.withSlowSink_raise es taken p _ (s.advance 33))) rfl

theorem doThread_withSlowSink (es : List HostEvent) (taken : Nat) (p : Params) (len : Word) (s : State) :
    doThread p len (s.withSlowSink es taken) = (doThread p len s).withSlowSink es taken := by
  simp only [doThread_eq, apply_ite (State.withSlowSink es taken)]
  exact if_congr Iff.rfl rfl rfl

/-- Whatever the instruction, running it does not look at the sink. -/
theorem exec_withSlowSink {i : Instr} {s t : State} (hs : s.runState = .run) (es : List HostEvent) (taken : Nat) (h : exec i s = .next t) :
    exec i (s.withSlowSink es taken) = .next (t.withSlowSink es taken) := by
  cases i <;> cases h
  · exact congrArg Host.Outcome.next (doInfo_withSlowSink es taken params _ s)
  · exact congrArg Host.Outcome.next (doLib_withSlowSink es taken params _ s)
  · exact congrArg Host.Outcome.next (doExec_withSlowSink es taken params _ s)
  · exact congrArg Host.Outcome.next (doMemory_withSlowSink hs es taken params _)
  · exact congrArg Host.Outcome.next (doThread_withSlowSink es taken params _ s)
  · exact congrArg Host.Outcome.next (State.withSlowSink_raise es taken params _ s)

/-- A message step does not look at the sink (R222, R230). -/
theorem messageStep_withSlowSink {s t : State} (hs : s.runState = .run) (es : List HostEvent) (taken : Nat) (h : messageStep s = .next t) :
    messageStep (s.withSlowSink es taken) = .next (t.withSlowSink es taken) := by
  obtain ⟨hr, e⟩ | ⟨tag, r, hr, h8, e⟩ | ⟨tag, r, hr, h8, e⟩ := messageStep_cases s
  · rw [e] at h; cases h
    exact messageStep_of_end (s := s.withSlowSink es taken) hr
  · rw [e] at h; cases h
    exact messageStep_of_short (s := s.withSlowSink es taken) hr h8
  · rw [e] at h
    rw [messageStep_of_header (s := s.withSlowSink es taken) hr h8]
    exact exec_withSlowSink (by simpa using hs) es taken h

/-- No effect of an instruction drives `out_ready` or takes an event. -/
theorem Effect.outside {p : Params} {s t : State} (h : Effect p s t) : t.outReady = s.outReady ∧ t.events = s.events := by
  cases h with
  | skipped | raised | truncated => simp
  | observed n _ d w =>
    obtain ⟨_, e⟩ | ⟨_, _, e⟩ | ⟨_, _, e⟩ := (s.advance n).observe_cases p d w <;> simp [e]

/-- What an effect does at the output: nothing, one sample (taken at once by a ready sink, else outstanding), or the end of the run with every
sample delivered. -/
theorem Effect.output_cases {p : Params} {s t : State} (h : Effect p s t) :
    (t.out = s.out ∧ t.delivered = s.delivered ∧ t.outClosed = s.outClosed ∧ t.runState = s.runState) ∨
    (t.out.length = s.out.length + 1 ∧ t.delivered = (if s.outReady then s.out.length + 1 else s.delivered) ∧
      t.outClosed = s.outClosed ∧ t.runState = s.runState) ∨
    (t.out = s.out ∧ t.delivered = s.out.length ∧ t.outClosed = true ∧ t.runState = .fatal) := by
  cases h with
  | skipped => exact .inl ⟨rfl, rfl, rfl, rfl⟩
  | raised => exact .inr (.inr (by simp))
  | truncated => exact .inr (.inr (by simp))
  | observed n _ d w =>
    obtain ⟨_, e⟩ | ⟨_, _, e⟩ | ⟨_, _, e⟩ := (s.advance n).observe_cases p d w
    · exact .inr (.inr (by simp [e]))
    · by_cases hw : (s.advance n).Warm p
      · refine .inr (.inl ?_)
        simp only [e, State.countEvent_out, State.fold_out, State.countEvent_delivered, State.fold_delivered, if_pos hw]
        exact ⟨by simp, rfl, by simp, by simp⟩
      · refine .inl ?_
        simp only [e, State.countEvent_out, State.fold_out, State.countEvent_delivered, State.fold_delivered, if_neg hw]
        simp
    · exact .inl (by simp [e])

/-- A message step with the sink not ready, taken as the handshake lets it be, delivers no sample (R222): a further sample stays outstanding, and
an end of the run finds every sample taken. -/
theorem State.delivered_of_not_ready {s t : State} (hw : Memory.wf s) (hr : s.outReady = false) (h : messageStep s = .next t)
    (hn : ¬ s.MustWait t) : t.delivered = s.delivered := by
  have taken : t.runState ≠ .run → s.delivered = s.out.length := fun ht => by
    have : ¬ s.Outstanding := fun ho => hn ⟨hr, ho, .inr ht⟩
    have := hw.2
    omega
  obtain ⟨u, e, ⟨_, rfl⟩ | h' | ⟨_, h'⟩⟩ := messageStep_effect s <;> rw [h] at e <;> cases e
  · exact (taken (by simp)).symm
  all_goals
    obtain ⟨_, e, _⟩ | ⟨_, e, _⟩ | ⟨_, e, _, hf⟩ := h'.output_cases
    · exact e
    · rw [e]; exact if_neg (by simp [hr])
    · rw [e]; exact (taken (by simp [hf])).symm

theorem messageStep_outside {s t : State} (h : messageStep s = .next t) : t.outReady = s.outReady ∧ t.events = s.events := by
  obtain ⟨u, e, ⟨_, rfl⟩ | h' | ⟨_, h'⟩⟩ := messageStep_effect s <;> rw [h] at e <;> cases e
  · simp
  · exact h'.outside
  · exact h'.outside

/-- A message step that emits adds one sample, which a ready sink takes at once, and the run goes on. -/
theorem messageStep_of_emit {s t : State} (h : messageStep s = .next t) (ht : s.out.length < t.out.length) :
    t.out.length = s.out.length + 1 ∧ t.delivered = (if s.outReady then s.out.length + 1 else s.delivered) ∧
      t.outClosed = s.outClosed ∧ t.runState = s.runState := by
  obtain ⟨u, e, ⟨_, rfl⟩ | h' | ⟨_, h'⟩⟩ := messageStep_effect s <;> rw [h] at e <;> cases e
  · simp at ht
  all_goals
    obtain ⟨e, _⟩ | h'' | ⟨e, _⟩ := h'.output_cases
    · rw [e] at ht; exact absurd ht (Nat.lt_irrefl _)
    · exact h''
    · rw [e] at ht; exact absurd ht (Nat.lt_irrefl _)

/-- A message step that ends the run adds no sample, has every sample delivered and closes the output (R101, R190). -/
theorem messageStep_of_end_of_run {s t : State} (hs : s.runState = .run) (h : messageStep s = .next t) (ht : t.runState ≠ .run) :
    t.out = s.out ∧ t.delivered = t.out.length ∧ t.outClosed = true := by
  obtain ⟨u, e, ⟨_, rfl⟩ | h' | ⟨_, h'⟩⟩ := messageStep_effect s <;> rw [h] at e <;> cases e
  · simp
  all_goals
    obtain ⟨_, _, _, e⟩ | ⟨_, _, _, e⟩ | ⟨e1, e2, e3, _⟩ := h'.output_cases
    · exact absurd (e.trans hs) ht
    · exact absurd (e.trans hs) ht
    · exact ⟨e1, by rw [e1]; exact e2, e3⟩

/-! ### Byte by byte -/

/-- The byte-serial machine with a slow sink. -/
def Serial.withSlowSink (es : List HostEvent) (taken : Nat) (m : Serial) : Serial := { m with arch := m.arch.withSlowSink es taken }

@[simp] theorem Serial.withSlowSink_arch (es : List HostEvent) (taken : Nat) (m : Serial) : (m.withSlowSink es taken).arch = m.arch.withSlowSink es taken := rfl
@[simp] theorem Serial.withSlowSink_scratch (es : List HostEvent) (taken : Nat) (m : Serial) : (m.withSlowSink es taken).scratch = m.scratch := rfl

theorem serialCommit_withSlowSink (es : List HostEvent) (taken : Nat) {m : Serial} (hs : m.arch.runState = .run) :
    serialCommit params (m.withSlowSink es taken) = (serialCommit params m).withSlowSink es taken := by
  simp only [serialCommit, Serial.withSlowSink, State.withSlowSink_observe hs]

theorem raise_withSlowSink (es : List HostEvent) (taken : Nat) (c : Cause) (m : Serial) :
    { m.withSlowSink es taken with arch := (m.withSlowSink es taken).arch.raise params c } =
      ({ m with arch := m.arch.raise params c } : Serial).withSlowSink es taken :=
  congrArg (Serial.mk · m.scratch) (State.withSlowSink_raise es taken params c m.arch)

theorem serialDispatch_withSlowSink (es : List HostEvent) (taken : Nat) (m : Serial) :
    serialDispatch params (m.withSlowSink es taken) = (serialDispatch params m).withSlowSink es taken := by
  simp only [serialDispatch, apply_ite (Serial.withSlowSink es taken)]
  exact if_congr Iff.rfl rfl (if_congr Iff.rfl rfl (raise_withSlowSink es taken _ m))

theorem serialEndFixed_withSlowSink (es : List HostEvent) (taken : Nat) {m : Serial} (hs : m.arch.runState = .run) :
    serialEndFixed params (m.withSlowSink es taken) = (serialEndFixed params m).withSlowSink es taken := by
  simp only [serialEndFixed, apply_ite (Serial.withSlowSink es taken)]
  refine if_congr Iff.rfl rfl (if_congr Iff.rfl (if_congr Iff.rfl rfl (raise_withSlowSink es taken _ m))
    (if_congr Iff.rfl (if_congr Iff.rfl ?_ (raise_withSlowSink es taken _ m)) rfl))
  exact if_congr Iff.rfl (serialCommit_withSlowSink es taken (m := ⟨m.arch, _⟩) hs) rfl

theorem serialVarByte_withSlowSink (es : List HostEvent) (taken : Nat) (b : Byte) {m : Serial} (hs : m.arch.runState = .run) :
    serialVarByte params b (m.withSlowSink es taken) = (serialVarByte params b m).withSlowSink es taken := by
  simp only [serialVarByte, apply_ite (Serial.withSlowSink es taken)]
  exact if_congr Iff.rfl (if_congr Iff.rfl (serialCommit_withSlowSink es taken (m := ⟨m.arch, _⟩) hs) rfl) rfl

theorem serialByte_withSlowSink (es : List HostEvent) (taken : Nat) (b : Byte) {m : Serial} (hs : m.arch.runState = .run) :
    serialByte params b (m.withSlowSink es taken) = (serialByte params b m).withSlowSink es taken := by
  cases hp : m.scratch.phase <;> simp only [serialByte, Serial.withSlowSink_scratch, hp, apply_ite (Serial.withSlowSink es taken)]
  · rfl
  · exact if_congr Iff.rfl rfl (serialDispatch_withSlowSink es taken ⟨m.arch.advance 1, _⟩)
  · exact if_congr Iff.rfl rfl (serialEndFixed_withSlowSink es taken (m := ⟨m.arch.advance 1, _⟩) hs)
  · rfl
  · exact serialVarByte_withSlowSink es taken b (m := ⟨m.arch.advance 1, _⟩) hs

/-- What the next byte would do does not look at the sink. -/
theorem serialNext_withSlowSink (es : List HostEvent) (taken : Nat) {m m' : Serial} (h : serialNext params m = some m') :
    serialNext params (m.withSlowSink es taken) = some (m'.withSlowSink es taken) := by
  have hs := serialNext_run h
  rcases hr : m.arch.rest with _ | ⟨b, r⟩
  · rw [serialNext_eos hs hr] at h; cases h
    rw [serialNext_eos (m := m.withSlowSink es taken) hs hr]
    unfold serialEos
    cases hp : m.scratch.phase <;> simp [Serial.withSlowSink, hp]
  · rw [serialNext_byte hs hr] at h; cases h
    rw [serialNext_byte (m := m.withSlowSink es taken) hs hr, serialByte_withSlowSink es taken b hs]

theorem serialCommit_pc (m : Serial) : (serialCommit params m).arch.pc = m.arch.pc := by
  obtain ⟨_, e⟩ | ⟨_, _, e⟩ | ⟨_, _, e⟩ := m.arch.observe_cases params m.scratch.lenR m.scratch.hwAcc <;> simp [serialCommit, e]

/-- A byte moves `pc` by one, whatever it completes (R160). -/
theorem serialByte_pc (b : Byte) (m : Serial) : (serialByte params b m).arch.pc = m.arch.pc + 1 := by
  have h1 : ∀ m, (serialDispatch params m).arch.pc = m.arch.pc := fun m => by
    unfold serialDispatch; dsimp only; split_ifs <;> simp
  have h2 : ∀ m, (serialEndFixed params m).arch.pc = m.arch.pc := fun m => by
    unfold serialEndFixed; dsimp only; split_ifs <;> simp [serialCommit_pc]
  have h3 : ∀ m, (serialVarByte params b m).arch.pc = m.arch.pc := fun m => by
    unfold serialVarByte; dsimp only; split_ifs <;> simp [serialCommit_pc]
  cases hp : m.scratch.phase <;> simp only [serialByte, hp]
  · rfl
  · split_ifs <;> simp [h1]
  · split_ifs <;> simp [h2]
  · rfl
  · simp [h3]

/-- A transition consumes one byte, or takes the end of the stream and ends the run (R160, R162, R170). -/
theorem serialNext_pc {m m' : Serial} (h : serialNext params m = some m') :
    m'.arch.pc = m.arch.pc + 1 ∨
      (m'.arch.pc = m.arch.pc ∧ m.arch.rest = [] ∧ m'.arch.runState ≠ .run ∧ m'.arch.out = m.arch.out) := by
  have hs := serialNext_run h
  rcases hr : m.arch.rest with _ | ⟨b, r⟩
  · rw [serialNext_eos hs hr] at h; cases h
    refine .inr ?_
    unfold serialEos
    cases m.scratch.phase <;> simp
  · rw [serialNext_byte hs hr] at h; cases h
    exact .inl (serialByte_pc b m)

end Sys2Proof.Machine
end

