-- ==== Sys2Proof/Laws/PerInstr.lean ====
section
/-!
SUPPORT. Statements made per instruction, about the instruction as syntax: its encoding.
-/

namespace Sys2Proof.Laws

/-- The header of an instruction is 9 bytes, its first byte the instruction's tag and the other eight its declared length (30_encoding.md
R70). -/
def HeaderEncoding.Statement (i : Instr) : Prop :=
  ∀ p : Params, (encode p i).length = 9 ∧ (encode p i).head? = some (i.tag p) ∧ le64 (encode p i).tail = i.len

theorem HeaderEncoding.info (len : Word) : HeaderEncoding.Statement (.info len) := fun _ =>
  ⟨by simp [encode], rfl, Machine.le64_encode64 len⟩

theorem HeaderEncoding.lib (len : Word) : HeaderEncoding.Statement (.lib len) := fun _ =>
  ⟨by simp [encode], rfl, Machine.le64_encode64 len⟩

theorem HeaderEncoding.exec (len : Word) : HeaderEncoding.Statement (.exec len) := fun _ =>
  ⟨by simp [encode], rfl, Machine.le64_encode64 len⟩

theorem HeaderEncoding.memory (len : Word) : HeaderEncoding.Statement (.memory len) := fun _ =>
  ⟨by simp [encode], rfl, Machine.le64_encode64 len⟩

theorem HeaderEncoding.thread (len : Word) : HeaderEncoding.Statement (.thread len) := fun _ =>
  ⟨by simp [encode], rfl, Machine.le64_encode64 len⟩

theorem HeaderEncoding.unknown (tag : Byte) (len : Word) : HeaderEncoding.Statement (.unknown tag len) := fun _ =>
  ⟨by simp [encode], rfl, Machine.le64_encode64 len⟩

end Sys2Proof.Laws
end

