-- ==== Sys2Proof/Tests/Slice0.lean ====
section
/-!
SUPPORT. Tests on words and streams written out from the spec (30_encoding.md, 95_test_vectors.md), the smoke test of WellFormed, and for each
statement with hypotheses a witness that meets them.
-/

namespace Sys2Proof.Tests

open Sys2Proof.Machine

/-! ### Helpers -/

/-- The state an outcome answers, if it does. -/
def after : Host.Outcome State Fault Refusal → Option State
  | .next s => some s
  | .fault _ => none
  | .refused _ => none

/-- A started run on the given bytes, default bounds (the convention of 95_test_vectors.md). -/
def started (input : List Byte) : State := { State.reset with input := input, runState := .run }

/-- The state after one message step on the given bytes. -/
def oneStep (input : List Byte) : Option State := after (step (started input))

/-- The bytes of V13: `Memory(1, 0x400000, 0, 0x7000, [0F])`. -/
def v13 : List Byte :=
  [0x03, 0x2B, 0, 0, 0, 0, 0, 0, 0, 0x01, 0, 0, 0, 0, 0, 0, 0, 0, 0, 0x40, 0, 0, 0, 0, 0, 0,
   0, 0x70, 0, 0, 0, 0, 0, 0, 0x01, 0, 0, 0, 0, 0, 0, 0, 0x0F]

/-- A run nine records in, its window as nine records of weight 8 leave it: the next qualifying record is the first to emit. -/
def warming (input : List Byte) : State :=
  { started input with buf := (Vector.replicate 10 8).set 9 0, sum := 72, cursor := 9, ctr := 9 }

/-- A run ten records in whose first sample, 80, the sink has not taken and is not ready for. -/
def waiting (input : List Byte) : State :=
  { started input with buf := Vector.replicate 10 8, sum := 80, cursor := 0, ctr := 10, out := [80], outReady := false }

/-- The bytes of V9: `Exec(7, 1, [0x1000, 0x1002], [2, 3], [90 90 90 90 90])`. -/
def v9 : List Byte :=
  [0x02, 0x40, 0, 0, 0, 0, 0, 0, 0, 0x07, 0, 0, 0, 0, 0, 0, 0, 0x01, 0, 0, 0, 0, 0, 0, 0,
   0x02, 0, 0, 0, 0, 0, 0, 0, 0x05, 0, 0, 0, 0, 0, 0, 0, 0, 0x10, 0, 0, 0, 0, 0, 0,
   0x02, 0x10, 0, 0, 0, 0, 0, 0, 0x02, 0x03, 0x90, 0x90, 0x90, 0x90, 0x90]

/-- The bytes of V7: `Lib(0x400000, 0x401000, "a")`. -/
def v7 : List Byte :=
  [0x01, 0x1B, 0, 0, 0, 0, 0, 0, 0, 0, 0, 0x40, 0, 0, 0, 0, 0, 0, 0x10, 0x40, 0, 0, 0, 0, 0, 0x61, 0]

/-- The bytes of V17: `Thread(1, 2, 0)`. -/
def v17 : List Byte :=
  [0x04, 0x1A, 0, 0, 0, 0, 0, 0, 0, 0x01, 0, 0, 0, 0, 0, 0, 0, 0x02, 0, 0, 0, 0, 0, 0, 0, 0]

/-- The bytes of V2: `Info("k","v")`. -/
def v2 : List Byte := [0x00, 0x0D, 0, 0, 0, 0, 0, 0, 0, 0x6B, 0x00, 0x76, 0x00]

/-! ### WellFormed smoke test: an ill-formed term for each check -/

theorem test_wf_unknown_with_legal_tag : (Instr.unknown 0x03 9).wf params = false := by decide
theorem test_wf_unknown : (Instr.unknown 0x05 9).wf params = true := by decide
theorem test_wf_key_with_nul : (Message.info [0x41, 0x00] []).wf = false := by decide
/-- R79: a key of 127 bytes or more does not fit, one of 126 does. -/
theorem test_wf_key_too_long (key : List Byte) (h : 127 ≤ key.length) : (Message.info key []).wf = false := by
  have : ¬ key.length + 2 ≤ Config.keyCap := by simp only [Config.keyCap]; omega
  simp [Message.wf, stringFits, this]
theorem test_wf_key_longest : (Message.info (List.replicate 126 0x41) []).wf = true := by
  simp [Message.wf, stringFits, Config.keyCap, Config.valueCap]
theorem test_wf_value_with_nul : (Message.info [] [0x00]).wf = false := by decide
theorem test_wf_name_with_nul : (Message.lib 0 0 [0x00]).wf = false := by decide
/-- R79: a name of 2047 bytes or more does not fit. -/
theorem test_wf_name_too_long (name : List Byte) (h : 2047 ≤ name.length) : (Message.lib 0 0 name).wf = false := by
  have : ¬ name.length + 2 ≤ Config.nameCap := by simp only [Config.nameCap]; omega
  simp [Message.wf, stringFits, this]
/-- R70: the declared length must fit its 64-bit field. -/
theorem test_wf_data_too_long (data : List Byte) (h : 2 ^ 64 - 42 ≤ data.length) : (Message.mem data).wf = false :=
  decide_eq_false (show ¬ 42 + data.length < 2 ^ 64 by omega)
theorem test_wf_code_too_long (code : List Byte) (h : 2 ^ 64 - 41 ≤ code.length) :
    (Message.exec 0 0 [] code).wf = false :=
  decide_eq_false (show ¬ 41 + 9 * 0 + code.length < 2 ^ 64 by omega)

/-! ### Decoding: words written out from 30_encoding.md R70, R71; one per constructor, and the refusals -/

theorem test_decode_info : decode params v2 = .ok (.info 13, [0x6B, 0x00, 0x76, 0x00]) := by rfl
theorem test_decode_lib : decode params (v7.take 9) = .ok (.lib 27, []) := by rfl
theorem test_decode_exec : decode params (v9.take 9) = .ok (.exec 64, []) := by rfl
theorem test_decode_memory : decode params (v13.take 9) = .ok (.memory 43, []) := by rfl
theorem test_decode_thread : decode params (v17.take 9) = .ok (.thread 26, []) := by rfl
theorem test_decode_unknown : decode params [0x05, 0x09, 0, 0, 0, 0, 0, 0, 0] = .ok (.unknown 0x05 9, []) := by rfl
/-- A length byte in each position: the last byte is the most significant (R51). -/
theorem test_decode_length_order :
    decode params [0x04, 1, 2, 3, 4, 5, 6, 7, 8] = .ok (.thread 0x0807060504030201, []) := by rfl
theorem test_decode_end : decode params [] = .error .endOfStream := by rfl
/-- V19: an illegal tag with a short length field. -/
theorem test_decode_short : decode params [0x05, 0x09, 0, 0] = .error (.truncatedHeader 0x05) := by rfl
theorem test_decode_table_word : decodeTableWord 8 0x03 = some (.memory 0) := by rfl

/-- The encoder against bytes written out from R84: V9, V13, V7, V17, V2. -/
theorem test_encode_exec :
    (Message.exec 7 1 [(0x1000, 2), (0x1002, 3)] [0x90, 0x90, 0x90, 0x90, 0x90]).bytes params = v9 := by decide
theorem test_encode_memory : (Message.memory 1 0x400000 0 0x7000 [0x0F]).bytes params = v13 := by decide
theorem test_encode_lib : (Message.lib 0x400000 0x401000 [0x61]).bytes params = v7 := by decide
theorem test_encode_thread : (Message.thread 1 2 0).bytes params = v17 := by decide
theorem test_encode_info : (Message.info [0x6B] [0x76]).bytes params = v2 := by decide

/-- V1: little-endian assembly. -/
theorem test_le64_43 : le64 [0x2B, 0, 0, 0, 0, 0, 0, 0] = 43 := by decide
theorem test_le64_high : le64 [0x29, 0, 0, 0, 0, 0, 0, 0x20] = 2305843009213693993 := by decide

/-! ### One message step per instruction (95_test_vectors.md) -/

/-- V2: 13 bytes, nothing but `pc`. -/
theorem test_step_info : oneStep v2 = some { started v2 with pc := 13 } := by decide
/-- V4: a wrong declared length is not caught. -/
theorem test_step_info_wrong_length :
    (oneStep [0x00, 0xE7, 0x03, 0, 0, 0, 0, 0, 0, 0x6B, 0x00, 0x76, 0x00]).map (fun s => (s.pc, s.runState))
      = some (13, .run) := by decide
/-- V7. -/
theorem test_step_lib : oneStep v7 = some { started v7 with pc := 27 } := by decide
theorem test_step_lib_truncated :
    (oneStep (v7.take 26)).map (fun s => (s.errCode, s.errTag, s.errDeclared, s.pc))
      = some (.truncated, 0x01, 27, 26) := by decide
/-- V9. -/
theorem test_step_exec : oneStep v9 = some { started v9 with pc := 64 } := by decide
/-- V11: the bytes of V9 with `len=65`. -/
theorem test_step_exec_mismatch :
    (oneStep (v9.set 1 0x41)).map (fun s => (s.runState, s.errCode, s.errTag, s.errExecId, s.errDeclared, s.errComputed))
      = some (.fatal, .framingExec, 0x02, 7, 65, 64) := by decide
/-- V13. -/
theorem test_step_memory :
    (oneStep v13).map (fun s => (s.pc, s.ctr, s.cursor, s.sum)) = some (43, 1, 1, 4) ∧
    (oneStep v13).map (fun s => (s.buf.toList, s.out)) = some ([4, 0, 0, 0, 0, 0, 0, 0, 0, 0], []) := by decide
/-- V16: a truncated payload leaves no trace in the estimator. -/
theorem test_step_memory_truncated :
    (oneStep (v13.take 42)).map (fun s => (s.errCode, s.errDeclared, s.pc, s.ctr, s.sum)) = some (.truncated, 43, 42, 0, 0) := by
  decide
/-- V17. -/
theorem test_step_thread : oneStep v17 = some { started v17 with pc := 26 } := by decide
/-- V18. -/
theorem test_step_unknown :
    (oneStep [0x05, 0x09, 0, 0, 0, 0, 0, 0, 0]).map (fun s => (s.errCode, s.errTag, s.errDeclared, s.pc, s.exitStatus))
      = some (.unknownType, 0x05, 9, 9, 1) := by decide
/-- V19: `Truncated`, not `UnknownType`. -/
theorem test_step_unknown_short :
    (oneStep [0x05, 0x09, 0, 0]).map (fun s => (s.errCode, s.errTag, s.errDeclared, s.pc)) = some (.truncated, 0x05, 0, 4) := by
  decide
/-- V27: the empty stream. -/
theorem test_step_empty :
    (oneStep []).map (fun s => (s.runState, s.outClosed, s.exitStatus)) = some (.done, true, 0) := by decide
/-- V12: the length check does not wrap. -/
theorem test_exec_no_wrap : (execComputed params 0x2000000000000000 0).toNat = 20752587082923245609 := by decide
/-- V26(a): counter overflow, whatever the bounds. -/
theorem test_ctr_overflow :
    (after (step { started v13 with ctr := BitVec.allOnes 64 })).map (fun s => (s.errCode, s.errTag, s.errDeclared, s.pc, s.sum))
      = some (.ctrOverflow, 0x03, 43, 43, 0) := by decide

/-- A table word placed right after reset runs as the first instruction: R76's 26 bytes for tag 0x04, R81's 9 for 0x05. -/
theorem test_first_instruction :
    ((after (step (State.reset.withFetchWord 8 0x04))).map (fun s => (s.pc, s.runState)),
      (after (step (State.reset.withFetchWord 8 0x05))).map (fun s => (s.pc, s.runState)))
      = (some (26, .run), some (9, .fatal)) := by decide

/-! ### Estimator -/

/-- S1 to S3. -/
theorem test_hamming : hammingWeight [0x00] = 0 ∧ hammingWeight [0xFF] = 8 ∧ hammingWeight [1, 2, 4] = 3 := by decide
/-- V20: nine records of weight 8 emit nothing, ten emit 80, eleven emit 80 twice. -/
theorem test_warm_up :
    ([9, 10, 11].map fun n => (State.reset.observeAll params (List.replicate n 8)).out) = [[], [80], [80, 80]] := by decide
/-- V20, last column: the literal reading `WARM = 10`. -/
theorem test_warm_up_literal :
    ([9, 10, 11].map fun n => (State.reset.observeAll { params with warm := 10 } (List.replicate n 8)).out)
      = [[], [], [80]] := by decide
/-- V24: ring wrap-around with distinct weights. -/
theorem test_ring_wrap :
    (State.reset.observeAll params [1, 2, 3, 4, 5, 6, 7, 8, 9, 10, 11, 0, 3]).out = [55, 65, 63, 63] := by decide
/-- V22, row [2, 14). -/
theorem test_bounds :
    (({ State.reset with boundMin := 2, boundMax := 14, boundMaxInf := false } : State).observeAll params
      [1, 2, 3, 4, 5, 6, 7, 8, 1, 2, 3, 4, 5, 6, 7, 8]).out = [43, 45, 47] := by decide
/-- V28: large weights do not wrap. -/
theorem test_large_weights :
    (State.reset.observeAll params (List.replicate 10 0x100000000)).out = [42949672960] := by decide

/-! ### Parameters (R8) at other values than those the spec takes -/

/-- V20's last column by steps: at `WARM` = 10 the tenth record emits nothing where the step at 9 emits. -/
theorem test_step_warm_10 :
    ((after (stepFor { params with warm := 10 } (warming v13))).map State.out,
      (after (stepFor params (warming v13))).map State.out) = (some [], some [76]) := by decide
/-- R71: with the tags of Memory and Thread exchanged, V13's bytes under tag 0x04 are a Memory message. -/
theorem test_step_other_tags :
    (after (stepFor { params with tagMemory := 0x04, tagThread := 0x03 } (started (v13.set 0 0x04)))).map
      (fun s => (s.pc, s.ctr, s.sum)) = some (43, 1, 4) := by decide
/-- Narrower registers hold the low bits: a weight of 4 in two bits, and an overflow at `2^1 − 1` with a one-bit counter (the model's choice of
the place, log 14). -/
theorem test_step_narrow :
    ((after (stepFor { params with sampleW := 2 } (started v13))).map (fun s => (s.ctr, s.sum, s.buf[0])),
      (after (stepFor { params with ctrW := 1 } { started v13 with ctr := 1 })).map State.errCode)
      = (some (1, 0, 0), some .ctrOverflow) := by decide

/-! ### The output handshake (R222) -/

/-- An emitting message is not consumed while the sink has a sample to take; nothing changes however often the MAE tries. -/
theorem test_sink_holds : after (steps 2 { waiting v13 with events := [.quiet] }) = some (waiting v13) := by decide
/-- Once the sample is taken the message is, and its own sample (80 − 8 + 4) is the one outstanding. -/
theorem test_sink_releases :
    (after (steps 3 { waiting v13 with events := [.quiet, .accept] })).map (fun s => (s.pc, s.out, s.delivered, s.outputs.outSum))
      = some (43, [80, 76], 1, some 76) := by decide
/-- A message that emits nothing is not held back, and delivers nothing. -/
theorem test_sink_silent_message : (after (step (waiting v2))).map (fun s => (s.pc, s.delivered)) = some (13, 0) := by decide
/-- R216: the end of the stream, and a fatal end (V18's bytes), close the output only after the sink has taken the outstanding sample. -/
theorem test_sink_holds_ends :
    (∀ bs ∈ [[], 0x05 :: 0x09 :: List.replicate 7 0], after (step (waiting bs)) = some (waiting bs)) ∧
    (after (steps 2 { waiting [] with events := [.accept] })).map (fun s => (s.runState, s.pc, s.delivered, s.outClosed))
      = some (.done, 0, 1, true) ∧
    (after (steps 2 { waiting (0x05 :: 0x09 :: List.replicate 7 0) with events := [.accept] })).map
      (fun s => (s.runState, s.pc, s.delivered, s.outClosed)) = some (.fatal, 9, 1, true) := by decide
/-- The byte-serial machine takes 42 of V13's 43 bytes, then `in_ready` is 0; with the sample taken the 43rd completes the message. -/
theorem test_serial_withholds :
    (serialRun params 42 { arch := waiting v13, scratch := Scratch.reset }).map
      (fun m => (m.arch.pc, m.inReady params, (serialStep params { m with arch := m.arch.accept }).map fun m => (m.arch.pc, m.arch.out)))
      = some (42, false, some (43, [80, 76])) := by decide

/-- V18 byte by byte: 8 of the 9 header bytes are taken, the one that ends the run is not; the end of the stream is withheld likewise. -/
theorem test_serial_withholds_ends :
    ((serialRun params 8 { arch := waiting (0x05 :: 0x09 :: List.replicate 7 0), scratch := Scratch.reset }).map
      (fun m => (m.inReady params, (serialStep params { m with arch := m.arch.accept }).map fun m => (m.arch.pc, m.arch.runState))),
      ({ arch := waiting [], scratch := Scratch.reset } : Serial).inReady params,
      (serialStep params { arch := (waiting []).accept, scratch := Scratch.reset }).map fun m => m.arch.runState)
      = (some (false, some (9, .fatal)), false, some .done) := by decide

/-! ### Port, rendering, byte-serial machine -/

/-- R33, R40: writing START in IDLE. -/
theorem test_start : (State.reset.regWrite params 0x03 1).runState = .run := by decide
/-- R40: STATUS after V18 is `{1, 01, 001, 11}`. -/
theorem test_status_word :
    (oneStep [0x05, 0x09, 0, 0, 0, 0, 0, 0, 0]).map (fun s => s.regRead 0x04) = some 0xA7 := by decide
/-- V25: "12.3" and LF; "0.0" and LF. -/
theorem test_render : renderSample 123 = [0x31, 0x32, 0x2E, 0x33, 0x0A] ∧ renderSample 0 = [0x30, 0x2E, 0x30, 0x0A] := by decide
/-- V25: the file for `OUT = [40, 40, 44]`. -/
theorem test_render_file :
    renderOut [40, 40, 44] = [0x34, 0x2E, 0x30, 0x0A, 0x34, 0x2E, 0x30, 0x0A, 0x34, 0x2E, 0x34, 0x0A] := by decide
/-- R210: reset puts the byte-serial machine, whatever it was doing, in `P_TAG` with the run idle. -/
theorem test_serial_reset :
    (serialRun params 9 { arch := started v13, scratch := Scratch.reset }).map
      (fun m => (m.resetLine.scratch.phase, m.resetLine.arch.runState, m.resetLine.arch.pc)) = some (.tag, .idle, 0) := by decide
/-- V29: after event 9 the machine is in `P_FIXED` with `len_r = 43`. -/
theorem test_serial_header :
    (serialRun params 9 { arch := started v13, scratch := Scratch.reset }).map (fun m => (m.scratch.phase, m.scratch.lenR))
      = some (.fixed, 43) := by decide
/-- V29: after event 43 the message is committed. -/
theorem test_serial_commit :
    (serialRun params 43 { arch := started v13, scratch := Scratch.reset }).map
      (fun m => (m.scratch.phase, m.arch.buf[0], m.arch.sum, m.arch.cursor, m.arch.ctr)) = some (.tag, 4, 4, 1, 1) := by decide
/-- V30: after event 11 the key read is finished. -/
theorem test_serial_key :
    (serialRun params 11 { arch := started v2, scratch := Scratch.reset }).map
      (fun m => (m.scratch.phase, m.scratch.scap, m.scratch.scnt, m.scratch.slast)) = some (.str, 2048, 0, true) := by decide

/-! ### Witnesses: for each statement with hypotheses, concrete data that meets them, clause by clause -/

/-- A run whose header bytes have been read. -/
def inMessage (input : List Byte) : State := { started input with pc := 9 }

/-- `n` zero bytes. -/
def zeros (n : Nat) : List Byte := List.replicate n 0

theorem witness_reset_accepted (r : RunState) :
    ({ State.reset with runState := r, events := [.reset, .quiet] } : State).events = .reset :: [.quiet] := rfl

theorem witness_configuration_idle (a d : BitVec 8) :
    ({ State.reset with events := [.write a (d.setWidth 64)] } : State).runState = .idle ∧
    ({ State.reset with events := [.write a (d.setWidth 64)] } : State).events = .write a (d.setWidth 64) :: [] := ⟨rfl, rfl⟩
theorem witness_configuration_not_idle :
    ({ started v2 with events := [.write 0x00 5] } : State).runState ≠ .idle ∧
    ({ started v2 with events := [.write 0x00 5] } : State).events = .write 0x00 5 :: [] := by decide
theorem witness_configuration_unwritten :
    (∃ t, step (started v13) = .next t) ∧ (∀ addr data, (started v13).events.head? ≠ some (.write addr data)) ∧
    (started v13).events.head? ≠ some .reset := ⟨⟨_, rfl⟩, (by intro a d h; cases h), by decide⟩

/-- START in IDLE, 0 in IDLE, and START in RUN: the three cases of the write differ. -/
theorem witness_start_control :
    ((after (step { State.reset with events := [.write 0x03 1] })).map State.runState,
      (after (step { State.reset with events := [.write 0x03 0xFE] })).map State.runState,
      (after (step { started v2 with events := [.write 0x03 1] })).map State.runState)
      = (some .run, some .idle, some .run) := by decide

/-- The edges of the unassigned register numbers and of the read-only ones. -/
theorem witness_register_map :
    (∀ a ∈ ([0x0C, 0x0F, 0x1A, 0xFF] : List Byte), (0x0C ≤ a.toNat ∧ a.toNat < 0x10) ∨ 0x1A ≤ a.toNat) ∧
    (∀ a ∈ ([0x10, 0x19, 0x0B] : List Byte), ¬ ((0x0C ≤ a.toNat ∧ a.toNat < 0x10) ∨ 0x1A ≤ a.toNat)) ∧
    0x04 ≤ (0x04 : Byte).toNat ∧ State.reset.runState = .idle ∧ (started []).runState ≠ .idle := by decide

/-- R40: a write in IDLE to a read-only number is ignored. -/
theorem witness_configuration_read_only :
    ({ State.reset with events := [.write 0x04 5] } : State).runState = .idle ∧ 0x04 ≤ (0x04 : Byte).toNat ∧
    ({ State.reset with events := [.write 0x04 5] } : State).events = .write 0x04 5 :: [] := by decide

/-- One sample outstanding, and none; the sink becomes ready, and ceases to be. -/
theorem witness_sink :
    ({ waiting [] with events := [.accept] } : State).events = .accept :: [] ∧
    (after (step { waiting [] with events := [.accept] })).map State.delivered = some 1 ∧
    (after (step { waiting [] with delivered := 1, events := [.accept] })).map State.delivered = some 1 ∧
    (after (step { waiting [] with events := [.sinkReady true] })).map (fun t => (t.outReady, t.delivered)) = some (true, 1) ∧
    (after (step { waiting [] with events := [.sinkReady false] })).map (fun t => (t.outReady, t.delivered)) = some (false, 0) := by
  decide

/-- A sink that is not ready, and a step that leaves the run going, one that emits with nothing outstanding, and one that ends the run so. -/
theorem witness_not_ready :
    (∀ s ∈ [waiting v2, { waiting v13 with delivered := 1 }, { waiting [] with delivered := 1 }],
      Memory.wf s ∧ s.outReady = false ∧ s.events.head? ≠ some .accept ∧ s.events.head? ≠ some (.sinkReady true) ∧
      s.events.head? ≠ some .reset ∧ (after (step s)).isSome) := by decide

theorem witness_decode_encode :
    params.Distinct ∧ (Instr.unknown 0x05 0).wf params = true ∧ (Instr.unknown 0xFF 9).wf params = true ∧
    (Instr.memory (BitVec.allOnes 64)).wf params = true := by decide

/-- An accepted header, the end of the stream, and the longest and shortest short header. -/
theorem witness_decode_accepts :
    decode params [0xFF, 9, 0, 0, 0, 0, 0, 0, 0] = .ok (.unknown 0xFF 9, []) ∧ decode params [] = .error .endOfStream ∧
    decode params (0x03 :: zeros 7) = .error (.truncatedHeader 0x03) ∧ decode params [0x03] = .error (.truncatedHeader 0x03) :=
  ⟨rfl, rfl, rfl, rfl⟩

theorem witness_message_bytes :
    params.Distinct ∧ (Message.info [0x6B] [0x76]).wf = true ∧ (Message.lib 0 0 []).wf = true ∧
    (Message.exec 7 1 [(0x1000, 2)] [0x90]).wf = true ∧ (Message.mem []).wf = true ∧ (Message.thread 1 2 0).wf = true := by
  decide

theorem witness_step_runs :
    (Instr.thread 26).wf params = true ∧ (started v17).runState = .run ∧ (started v17).events = [] ∧
    (started v17).rest = encode params (.thread 26) ++ v17.drop 9 ∧
    ({ started v17 with events := [.quiet] } : State).events = .quiet :: [] ∧
    ({ started v17 with events := [.quiet] } : State).rest = encode params (.thread 26) ++ v17.drop 9 := by decide

/-- The same instruction with nothing outstanding, and one that emits where the step waits. -/
theorem witness_step_waits :
    (started v17).outReady = true ∧ (Instr.memory 43).wf params = true ∧ (waiting v13).runState = .run ∧ (waiting v13).events = [] ∧
    (waiting v13).rest = encode params (.memory 43) ++ v13.drop 9 ∧ (waiting v13).outReady = false ∧
    (waiting v13).out.length = (waiting v13).delivered + 1 ∧
    (after (exec (.memory 43) { waiting v13 with events := [], pc := 9 })).map (fun t => t.out.length) = some 2 := by decide

/-- An outstanding sample, and a step that a ready sink lets end the run: at the end of the stream, in a short header, at an illegal tag. -/
theorem witness_end_waits :
    ∀ s ∈ [waiting [], waiting [0x05], waiting (0x05 :: zeros 8)],
      s.runState = .run ∧ s.outReady = false ∧ s.out.length = s.delivered + 1 ∧
      ((after (step { s with events := [], outReady := true })).map fun t => decide (t.runState ≠ .run)) = some true := by decide

/-- A ready sink and a step that emits, one that does not, and one that ends the run. -/
theorem witness_sink_decides :
    (∀ s ∈ [warming v13, started v2, started []], s.runState = .run ∧ s.events = [] ∧ s.outReady = true ∧ (after (step s)).isSome) := by
  decide

/-- Every kind of sink event. -/
theorem witness_any_sink :
    (waiting v13).runState = .run ∧
    ∀ e ∈ ({ waiting v13 with events := [.quiet, .accept, .quiet, .sinkReady true] } : State).events,
      e = .quiet ∨ e = .accept ∨ ∃ level, e = .sinkReady level :=
  ⟨rfl, by simp⟩

/-- Tags in the opposite order and `WARM` = 10. -/
def otherParams : Params :=
  { params with tagInfo := 0x04, tagLib := 0x03, tagExec := 0x02, tagMemory := 0x01, tagThread := 0x00, warm := 10 }
theorem witness_any_parameters :
    otherParams.Distinct ∧ (Instr.unknown 0x05 0).wf otherParams = true ∧ (Instr.memory 43).wf otherParams = true ∧
    (started (v13.set 0 0x01)).runState = .run ∧ (started (v13.set 0 0x01)).events = [] ∧
    (started (v13.set 0 0x01)).rest = encode otherParams (.memory 43) ++ v13.drop 9 ∧ (started (v13.set 0 0x01)).outReady = true ∧
    (waiting (v13.set 0 0x01)).rest = encode otherParams (.memory 43) ++ v13.drop 9 ∧
    (after (execFor otherParams (.memory 43) { waiting (v13.set 0 0x01) with pc := 9 })).map (fun t => t.out.length) = some 2 := by
  decide

/-- The end waits: a sample is outstanding. -/
theorem witness_clean_end_waits :
    (waiting []).StatusInv ∧ (waiting []).runState = .run ∧ (waiting []).events = [] ∧ (waiting []).pc = (waiting []).input.length ∧
    (waiting []).outReady = false ∧ (waiting []).delivered < (waiting []).out.length := by decide
/-- Both clauses: the end of a stream of one message, which a step reaches, with a ready sink and with one that is not but has taken all. -/
theorem witness_clean_end :
    ({ started v2 with pc := 13 } : State).StatusInv ∧ ({ started v2 with pc := 13 } : State).runState = .run ∧
    ({ started v2 with pc := 13 } : State).events = [] ∧ 13 = (started v2).input.length ∧
    Memory.wf { started v2 with pc := 13 } ∧ (started v2).outReady = true ∧
    ({ waiting [] with delivered := 1 } : State).StatusInv ∧ (waiting []).out.length ≤ 1 ∧
    ∃ t, step { started v2 with pc := 13 } = .next t ∧ t.runState = .done :=
  ⟨by decide, rfl, rfl, rfl, by decide, rfl, by decide, by decide, _, rfl, rfl⟩

theorem witness_incomplete_header :
    (started (0x03 :: zeros 7)).runState = .run ∧ (started (0x03 :: zeros 7)).events = [] ∧
    (started (0x03 :: zeros 7)).rest = 0x03 :: zeros 7 ∧ (zeros 7).length < 8 ∧
    (started [0x05]).rest = 0x05 :: [] ∧ ([] : List Byte).length < 8 ∧
    (waiting [0x05]).rest = 0x05 :: [] ∧ (waiting [0x05]).outReady = false ∧ (waiting [0x05]).delivered < (waiting [0x05]).out.length := by decide

theorem witness_no_step (r : RunState) :
    ({ State.reset with runState := r } : State).events = [] ∧ ({ State.reset with runState := r } : State).runState = r := ⟨rfl, rfl⟩

/-- The shortest reads (two empty strings), and the longest first one (127 bytes without a NUL). -/
theorem witness_info :
    (ReadEnds 128 (inMessage (zeros 11)).rest 1 ∧ ReadEnds 2048 ((inMessage (zeros 11)).rest.drop 1) 1) ∧
    (ReadEnds 128 (List.replicate 127 0x41 ++ [0x42, 0]) 127 ∧
      ReadEnds 2048 ((List.replicate 127 0x41 ++ [(0x42 : Byte), 0]).drop 127) 2) := by
  refine ⟨by decide, ?_, ?_⟩
  · simp [ReadEnds]
  · rw [List.drop_left' (by simp)]
    decide
/-- The stream ends in the key, and in the value. -/
theorem witness_info_truncated :
    (∀ m n, ReadEnds 128 (inMessage (zeros 9)).rest m → ¬ ReadEnds 2048 ((inMessage (zeros 9)).rest.drop m) n) ∧
    (∀ m n, ReadEnds 128 (inMessage (zeros 10)).rest m → ¬ ReadEnds 2048 ((inMessage (zeros 10)).rest.drop m) n) := by
  refine ⟨fun m n h => ?_, fun m n h h' => ?_⟩
  · exact absurd h.1 (by have := h.2.2.1; simp [inMessage, started, State.rest, zeros] at this; omega)
  · have h1 := h.1
    have h2 := h'.1
    have h3 := h'.2.2.1
    simp [inMessage, started, State.rest, zeros] at h3
    omega

theorem witness_lib :
    16 ≤ (inMessage (zeros 26)).rest.length ∧ ReadEnds 2048 ((inMessage (zeros 26)).rest.drop 16) 1 ∧
    (inMessage (zeros 24)).rest.length < 16 := by decide
/-- The longest name read: 2047 bytes without a NUL, the byte after them not read. -/
theorem witness_lib_longest (n : Nat) (h : n = 2047) : ReadEnds 2048 (List.replicate n 0x42 ++ [0x42, 0]) n := by
  refine ⟨by omega, by omega, by simp, fun b hb => ?_, .inl (by omega)⟩
  rw [List.take_append_of_le_length (by simp), List.take_replicate] at hb
  rw [List.eq_of_mem_replicate hb]
  decide
/-- The stream ends where the name should begin. -/
theorem witness_lib_no_name : ∀ n, ¬ ReadEnds 2048 ((inMessage (zeros 25)).rest.drop 16) n := by
  intro n h
  have h1 := h.1
  have h3 := h.2.2.1
  simp [inMessage, started, State.rest, zeros] at h3
  omega

theorem witness_thread : 17 ≤ (inMessage (zeros 26)).rest.length ∧ (inMessage (zeros 25)).rest.length < 17 := by decide

theorem witness_unknown :
    0x05 ≤ (0x05 : Byte).toNat ∧ (started (0x05 :: zeros 8)).runState = .run ∧ (started (0x05 :: zeros 8)).events = [] ∧
    (started (0x05 :: zeros 8)).rest = 0x05 :: zeros 8 ∧ 8 ≤ (zeros 8).length ∧ (waiting (0x05 :: zeros 8)).rest = 0x05 :: zeros 8 ∧
    (waiting (0x05 :: zeros 8)).runState = .run ∧ (waiting (0x05 :: zeros 8)).events = [] := by decide

/-- A read that stops at a NUL, and one that meets the end of the stream one byte short of its limit. -/
theorem witness_bounded_read :
    ReadEnds 128 (started [0x41, 0, 0x42]).rest 2 ∧
    ((started (List.replicate 126 0x41)).rest.length < 128 - 1 ∧ ∀ b ∈ (started (List.replicate 126 0x41)).rest, b ≠ 0) := by
  refine ⟨by decide, ?_⟩
  simp [started, State.rest, State.reset]

/-- R79's boundary for both capacities: the longest string that fits, and the shortest that does not. -/
theorem witness_string (cap : Nat) :
    (∀ b ∈ List.replicate (cap - 2) (0x41 : Byte), b ≠ 0) ∧ (List.replicate (cap - 2) (0x41 : Byte)).length ≤ cap - 2 ∧
    (∀ b ∈ List.replicate (cap - 1) (0x41 : Byte), b ≠ 0) ∧ cap - 1 ≤ (List.replicate (cap - 1) (0x41 : Byte)).length ∧
    (started (List.replicate (cap - 1) (0x41 : Byte) ++ 0 :: [0x42])).rest = List.replicate (cap - 1) 0x41 ++ 0 :: [0x42] := by
  simp [started, State.rest, State.reset]

/-- Two instructions and five code bytes; and no variable part at all. -/
theorem witness_exec :
    (field64 (inMessage v9).rest 16).toNat = 2 ∧ (field64 (inMessage v9).rest 24).toNat = 5 ∧
    (64 : Word).toNat = 41 + 9 * 2 + 5 ∧ 32 + 9 * 2 + 5 ≤ (inMessage v9).rest.length ∧
    (field64 (inMessage (zeros 41)).rest 16).toNat = 0 ∧ (41 : Word).toNat = 41 + 9 * 0 + 0 ∧
    32 + 9 * 0 + 0 ≤ (inMessage (zeros 41)).rest.length := by decide
/-- V12: the computed length is above `2^64`, so the 64-bit field cannot hold it. -/
theorem witness_exec_framing :
    32 ≤ (inMessage (zeros 31 ++ [0, 0x20] ++ zeros 8)).rest.length ∧
    (field64 (inMessage (zeros 31 ++ [0, 0x20] ++ zeros 8)).rest 16).toNat = 2 ^ 61 ∧
    (41 : Word).toNat ≠ 41 + 9 * 2 ^ 61 + 0 := by decide
theorem witness_exec_truncated :
    (inMessage (zeros 40)).rest.length < 32 ∧
    (32 ≤ (inMessage (v9.take 63)).rest.length ∧ (64 : Word).toNat = 41 + 9 * 2 + 5 ∧
      (inMessage (v9.take 63)).rest.length < 32 + 9 * 2 + 5) := by decide

theorem witness_hamming : ([1, 2, 4] : List Byte).Perm [4, 1, 2] := by decide

/-- The first record of a run, the first record in bounds, the last counter value that counts, and the first record that emits. -/
theorem witness_memory_folds :
    (field64 (inMessage v13).rest 25).toNat = 1 ∧ 33 + 1 ≤ (inMessage v13).rest.length ∧ (43 : Word).toNat = 42 + 1 ∧
    (∀ c ∈ ([0, 8, 9, 2 ^ 64 - 2] : List Nat), (BitVec.ofNat 64 c : Word).toNat < 2 ^ 64 - 1) ∧
    ({ inMessage v13 with boundMin := 3, boundMax := 4, boundMaxInf := false, ctr := 3 } : State).InRange ∧
    ({ warming v13 with pc := 9 } : State).InRange ∧ 9 ≤ ({ warming v13 with pc := 9 } : State).ctr.toNat - 0 := by decide
/-- Just below and at the two bounds. -/
theorem witness_memory_out_of_range :
    ¬ ({ inMessage v13 with boundMin := 3, ctr := 2 } : State).InRange ∧
    (({ inMessage v13 with boundMax := 4, boundMaxInf := false, ctr := 4 } : State).boundMaxInf = false ∧
      (4 : Word).toNat ≤ (4 : Word).toNat) := by decide
/-- A declared length one too large, and 0. -/
theorem witness_memory_framing :
    33 ≤ (inMessage (v13.take 42)).rest.length ∧ (44 : Word).toNat ≠ 42 + 1 ∧ (0 : Word).toNat ≠ 42 + 1 := by decide
theorem witness_memory_truncated :
    (inMessage (v13.take 41)).rest.length < 33 ∧
    (33 ≤ (inMessage (v13.take 42)).rest.length ∧ (43 : Word).toNat = 42 + 1 ∧
      (inMessage (v13.take 42)).rest.length < 33 + 1) := by decide
theorem witness_memory_overflow :
    (field64 (inMessage v13).rest 25).toNat = 1 ∧ 33 + 1 ≤ (inMessage v13).rest.length ∧ (43 : Word).toNat = 42 + 1 ∧
    ({ inMessage v13 with ctr := BitVec.allOnes 64 } : State).ctr.toNat = 2 ^ 64 - 1 := by decide
theorem witness_window_update : (warming v13).SumInv ∧ State.reset.SumInv := by decide

theorem witness_discarded :
    (Message.memory 1 0x400000 0 0x7000 [0x0F]).wf = true ∧ (started v13).runState = .run ∧ (started v13).events = [] ∧
    (started v13).rest = (Message.memory 1 0x400000 0 0x7000 [0x0F]).bytes params ++ [] ∧
    ({ started v13 with input := (Message.memory 2 3 255 5 [0x0F]).bytes params ++ [0x05] } : State).rest
      = (Message.memory 2 3 255 5 [0x0F]).bytes params ++ [0x05] ∧
    (oneStep v13).isSome := by decide

theorem witness_fatal_entry : (inMessage v13).StatusInv ∧ (inMessage v13).runState = .run := by decide
theorem witness_fatal_end :
    (started (0x05 :: zeros 8)).runState ≠ .fatal ∧
    ∃ t, step (started (0x05 :: zeros 8)) = .next t ∧ t.runState = .fatal := ⟨by decide, _, rfl, rfl⟩
theorem witness_only_memory :
    (∀ len, Instr.thread 26 ≠ .memory len) ∧ ∃ t, exec (.thread 26) (inMessage v17) = .next t :=
  ⟨(fun _ h => by cases h), _, rfl⟩
/-- At the end of `IN`, and before it. -/
theorem witness_message_frame :
    (∃ t, exec (.thread 26) (inMessage (zeros 9)) = .next t) ∧ (inMessage (zeros 9)).pc ≤ (inMessage (zeros 9)).input.length ∧
    (∃ t, exec (.thread 26) (inMessage v17) = .next t) ∧ (inMessage v17).pc ≤ (inMessage v17).input.length :=
  ⟨⟨_, rfl⟩, by decide, ⟨_, rfl⟩, by decide⟩

/-- Each of the four alternatives: unchanged, started, ended, reset. -/
theorem witness_run_state :
    (∃ t, step (started v2) = .next t ∧ t.runState = .run) ∧
    (∃ t, step { State.reset with events := [.write 0x03 1] } = .next t ∧ t.runState = .run) ∧
    (∃ t, step (started []) = .next t ∧ t.runState = .done) ∧
    (∃ t, step { started v2 with runState := .fatal, events := [.reset] } = .next t ∧ t.runState = .idle) :=
  ⟨⟨_, rfl, rfl⟩, ⟨_, rfl, rfl⟩, ⟨_, rfl, rfl⟩, ⟨_, rfl, rfl⟩⟩

/-- A step that counts, and one that emits and counts, without a reset; the tag at `pc` is Memory's. -/
theorem witness_output_grows :
    (warming v13).events.head? ≠ some .reset ∧ (warming v13).rest.head? = some 0x03 ∧
    (oneStep v13).map State.out = some [] ∧ (after (step (warming v13))).map (fun t => (t.out, t.ctr, t.delivered)) = some ([76], 10, 1) := by
  decide

/-- States a step leads on from: before the first record, at the first emission, waiting for the sink, idle, and after a
fatal end. -/
def invariantStates : List State :=
  [started v13, warming v13, waiting v13, { State.reset with events := [.write 0x00 5] },
    { ((oneStep (v9.set 1 0x41)).getD State.reset) with events := [.quiet] }]

/-- They meet every invariant, and a step leads on from each. -/
theorem witness_invariants :
    (∀ s ∈ invariantStates, s.SumInv ∧ s.IdleInv ∧ s.WindowInv) ∧
    (∀ s ∈ invariantStates, s.StatusInv ∧ s.SinkInv ∧ Memory.wf s) := by decide
theorem witness_latch_invariant : ∀ s ∈ invariantStates, s.LatchInv := by decide
theorem witness_invariants_step : ∀ s ∈ invariantStates, (after (step s)).isSome := by decide
theorem witness_invariants_fatal : (invariantStates.map State.runState) = [.run, .run, .run, .idle, .fatal] := by decide

/-- R140's hypotheses at reset, with and without bounds; the weights of V20. -/
theorem witness_samples :
    State.reset.buf = Vector.replicate 10 0 ∧ State.reset.sum = 0 ∧ State.reset.cursor = 0 ∧ State.reset.ctr = 0 ∧
    State.reset.out = [] ∧ (List.replicate 11 (8 : Weight)).length < 2 ^ 64 ∧
    State.reset.qualifying (List.replicate 11 8) = List.replicate 11 8 ∧
    ({ State.reset with boundMin := 2, boundMax := 4, boundMaxInf := false } : State).qualifying [1, 2, 3, 4, 5, 6] = [3, 4] := by
  decide

/-- At the widths taken and at narrow ones, in a state that has emitted. -/
theorem witness_widths :
    (∀ p ∈ [params, { params with sampleW := 4, sumW := 7, ctrW := 4, compW := 8 }],
      (∀ i : Fin 10, (warming v13).buf[i].toNat < 2 ^ p.sampleW) ∧ (warming v13).sum.toNat < 2 ^ p.sumW ∧
      (warming v13).cursor.val < 2 ^ p.cursorW ∧ (warming v13).ctr.toNat < 2 ^ p.ctrW ∧
      (warming v13).boundMin.toNat < 2 ^ p.ctrW ∧ (warming v13).boundMax.toNat < 2 ^ p.ctrW) := by decide
theorem witness_any_threshold : State.reset.ctr = 0 ∧ State.reset.out = [] ∧ (List.replicate 11 (8 : Weight)).length < 2 ^ 64 := by
  decide
theorem witness_skipped_running : (started v2).runState = .run ∧ (started v2).events = [] := ⟨rfl, rfl⟩
theorem witness_skipped :
    (∀ m ∈ [Message.info [0x6B] [0x76], .lib 0x400000 0x401000 [0x61], .exec 7 1 [(0x1000, 2), (0x1002, 3)] [0x90], .thread 1 2 0],
      m.wf = true ∧ (started (m.bytes params ++ [0x05])).rest = m.bytesWithLen params (BitVec.ofNat 64 m.size) ++ [0x05]) ∧
    (∀ m ∈ [Message.info [0x6B] [0x76], .lib 0x400000 0x401000 [0x61], .thread 1 2 0],
      (started (m.bytesWithLen params 999 ++ [0x05])).rest = m.bytesWithLen params 999 ++ [0x05]) := by decide

theorem witness_stream :
    (∀ m ∈ [Message.info [0x6B] [], .mem [0x0F]], m.wf = true) ∧
    (started (streamOf params [Message.info [0x6B] [], .mem [0x0F]])).rest = streamOf params [Message.info [0x6B] [], .mem [0x0F]] ∧
    Memory.wf (started (streamOf params [Message.info [0x6B] [], .mem [0x0F]])) ∧
    (0 : Word).toNat + memoryCount [Message.info [0x6B] [], .mem [0x0F]] < 2 ^ 64 ∧
    Memory.wf (started (streamOf params [])) ∧ (started (streamOf params [])).runState = .run ∧
    (started (streamOf params [])).events = [] ∧ (started (streamOf params [])).outReady = true := by decide

/-- A run of one message, and one whose stream is empty. -/
theorem witness_halts :
    (∀ s ∈ [started v13, started []], s.runState = .run ∧ s.events = [] ∧ s.outReady = true ∧ Memory.wf s) := by decide

/-- The scratch registers other than `phase` hold values no message left. -/
theorem witness_byte_serial :
    ({ Scratch.reset with lenR := 5, k := 63, slast := true, hwAcc := 9 } : Scratch).phase = .tag ∧
    (started v13).runState = .run ∧ Memory.wf (started v13) ∧ (started v13).outReady = true ∧ ∃ t, messageStep (started v13) = .next t :=
  ⟨rfl, rfl, by decide, rfl, _, rfl⟩
/-- The other two clauses: nothing outstanding, and a message that neither emits nor ends the run; and the premises of the withheld byte, at a
message that emits and at two ends of the run. -/
theorem witness_byte_serial_sink :
    (started v13).out.length ≤ (started v13).delivered ∧
    (after (messageStep (waiting v2))).map (fun t => (t.out.length, t.runState)) = some ((waiting v2).out.length, .run) ∧
    (∀ s ∈ [waiting [], waiting (0x05 :: zeros 8)], s.runState = .run ∧ Memory.wf s ∧ s.outReady = false ∧ s.out.length = s.delivered + 1 ∧
      ((after (messageStep s)).map fun t => decide (t.runState ≠ .run)) = some true) ∧
    (waiting v13).runState = .run ∧ Memory.wf (waiting v13) ∧ (waiting v13).outReady = false ∧
    (waiting v13).out.length = (waiting v13).delivered + 1 ∧
    (after (messageStep (waiting v13))).map (fun t => t.out.length) = some 2 := by decide

end Sys2Proof.Tests
end

/-!
PROOFS. The statements of 00_scope.md: every run halts, the parameters are arguments of the machine, the number of samples at any threshold,
and the widths bound the registers.
-/

namespace Sys2Proof.Machine

/-! ### A run with a ready sink halts (R15, R25) -/

/-- Where the sink is ready and no event is pending, a step in `RUN` is the message step (R100, R222). -/
theorem step_of_ready {s : State} (hs : s.runState = .run) (he : s.events = []) (hr : s.outReady = true) : step s = messageStep s := by
  obtain ⟨t, e, _⟩ := messageStep_outcome s
  rw [step_of_run he hs, e, runStep_of_not_wait e (s.not_mustWait_of_ready hr t)]

theorem steps_succ {s t : State} (h : step s = .next t) (n : Nat) : steps (n + 1) s = steps n t := by
  simp only [steps, h]

/-- An effect ends the run fatally, or leaves `RUN_STATE` and `IN` and does not move `pc` back (R25). -/
theorem Effect.fatal_or_keeps_position {p : Params} {s t : State} (h : Effect p s t) :
    t.runState = .fatal ∨ (t.runState = s.runState ∧ t.input = s.input ∧ s.pc ≤ t.pc) := by
  cases h with
  | skipped n _ => exact .inr ⟨rfl, rfl, Nat.le_add_right _ _⟩
  | raised => exact .inl rfl
  | truncated => exact .inl rfl
  | observed n _ d w =>
    obtain ⟨_, e⟩ | ⟨_, _, e⟩ | ⟨_, _, e⟩ := (s.advance n).observe_cases p d w
    · exact .inl (by simp [e])
    · exact .inr (by simp [e])
    · exact .inr (by simp [e])

/-- A message step in `RUN` ends the run, or leaves fewer bytes to consume (R25, R100). -/
theorem messageStep_halts_or_consumes {s : State} (hs : s.runState = .run) :
    ∃ t, messageStep s = .next t ∧
      ((t.runState = .done ∨ t.runState = .fatal) ∨ (t.runState = .run ∧ t.rest.length < s.rest.length)) := by
  obtain ⟨t, e, h⟩ := messageStep_outcome s
  refine ⟨t, e, ?_⟩
  obtain ⟨_, rfl⟩ | ⟨tag, rfl⟩ | ⟨h9, h⟩ := h
  · exact .inl (.inl rfl)
  · exact .inl (.inr rfl)
  · obtain hf | ⟨hrun, hin, hpc⟩ := h.fatal_or_keeps_position
    · exact .inl (.inr hf)
    · refine .inr ⟨hrun.trans hs, ?_⟩
      simp only [State.advance_input, State.advance_pc] at hin hpc
      rw [State.rest_length] at h9 ⊢
      rw [State.rest_length, hin]
      omega

/-- With a ready sink and at most `n` bytes left, the run is over after at most `n + 1` steps, wherever `pc` stands. -/
theorem run_halts_within (n : Nat) (s : State) (hn : s.rest.length ≤ n) (hs : s.runState = .run) (he : s.events = [])
    (hr : s.outReady = true) :
    ∃ (k : Nat) (t : State), k ≤ n + 1 ∧ steps k s = .next t ∧ (t.runState = .done ∨ t.runState = .fatal) := by
  induction n generalizing s with
  | zero =>
    obtain ⟨t, e, hend | ⟨_, hlt⟩⟩ := messageStep_halts_or_consumes hs
    · exact ⟨1, t, Nat.le_refl _, steps_succ ((step_of_ready hs he hr).trans e) 0, hend⟩
    · omega
  | succ n ih =>
    obtain ⟨t, e, h⟩ := messageStep_halts_or_consumes hs
    have hstep : step s = .next t := (step_of_ready hs he hr).trans e
    obtain hend | ⟨hrun, hlt⟩ := h
    · exact ⟨1, t, by omega, steps_succ hstep 0, hend⟩
    · obtain ⟨hready, hevents⟩ := messageStep_outside e
      obtain ⟨k, u, hk, hu, hend⟩ := ih t (by omega) hrun (hevents.trans he) (hready.trans hr)
      exact ⟨k + 1, u, by omega, (steps_succ hstep k).trans hu, hend⟩

/-- Settles O56, by induction on the bytes left: a message step that does not end the run consumes some. -/
theorem everyRunHalts : Obligations.EveryRunHalts := by
  intro s hs he hr _
  exact run_halts_within _ s (Nat.le_of_eq s.rest_length) hs he hr

/-! ### The machine at any parameters (R8) -/

/-- Decoding the header of a well-formed instruction gives it back, whatever bytes follow (R86). -/
theorem decode_encode_append {p : Params} {i : Instr} (hp : p.Distinct) (hi : i.wf p = true) (r : List Byte) :
    decode p (encode p i ++ r) = .ok (i, r) := by
  rw [encode, List.cons_append, decode_cons, if_neg (by simp), List.take_left' (encode64_length _), List.drop_left' (encode64_length _),
    le64_encode64, instrOf_tag_len p i hp hi]

/-- At the header of a well-formed instruction a message step runs that instruction after the 9 header bytes (R100, R102). -/
theorem messageStepWith_of_encode {p : Params} {i : Instr} {s : State} {r : List Byte} (hp : p.Distinct) (hi : i.wf p = true)
    (h : s.rest = encode p i ++ r) (run : Meanings) : messageStepWith p run s = run i (s.advance 9) := by
  simp only [messageStepWith, State.fetch, h, decode_encode_append hp hi, Config.hdrLen]

/-- Every instruction has a meaning at any parameters. -/
theorem execFor_next (p : Params) (i : Instr) (s : State) : ∃ t, execFor p i s = .next t := by
  cases i <;> exact ⟨_, rfl⟩

/-- With no event pending, a step in `RUN` of the machine at any parameters is its message step under the handshake. -/
theorem stepFor_of_run {p : Params} {s : State} (he : s.events = []) (hs : s.runState = .run) :
    stepFor p s = runStepWith p (execFor p) s := by
  simp only [stepFor, stepWith, he, machineStepWith, hs]

/-- The machine at any parameters at a header: the meaning's result, or the state kept where the MAE must wait (R222, R216). -/
theorem stepFor_of_encode {p : Params} {i : Instr} {s t : State} {r : List Byte} (hp : p.Distinct) (hi : i.wf p = true)
    (hs : s.runState = .run) (he : s.events = []) (h : s.rest = encode p i ++ r) (ht : execFor p i (s.advance 9) = .next t) :
    stepFor p s = .next (if s.MustWait t then s else t) := by
  simp only [stepFor_of_run he hs, runStepWith, messageStepWith_of_encode hp hi h, ht]

/-- The machine at the values the spec takes is the model's. -/
theorem stepFor_params (s : State) : stepFor params s = step s := by
  rw [stepFor, execFor_params, step]

/-- Settles O19, by the round trip of the header at any distinct tags. -/
theorem stepForAnyParameters : Obligations.StepForAnyParameters := by
  refine ⟨fun p s i r hp hi hs he h => ⟨fun hsink => ?_, fun t ht => stepFor_of_encode hp hi hs he h ht⟩, stepFor_params⟩
  obtain ⟨t, ht⟩ := execFor_next p i (s.advance 9)
  have hwait : ¬ s.MustWait t := hsink.elim (s.not_mustWait_of_ready · t) (s.not_mustWait_of_taken · t)
  rw [stepFor_of_encode hp hi hs he h ht, if_neg hwait]
  exact ht.symm

/-! ### The number of samples (R145, R146) -/

/-- A record in range is the one after those that qualified before it (R131). -/
theorem State.qualified_of_inRange {s : State} (h : s.InRange) : s.qualified = s.ctr.toNat - s.boundMin.toNat := by
  obtain ⟨_, hmax⟩ := h
  unfold State.qualified
  cases hinf : s.boundMaxInf with
  | true => rfl
  | false =>
    have := hmax.resolve_left (by simp [hinf])
    simp only [cond_false]
    omega

/-- Counting a record in range counts one more that qualifies (R140(e)). -/
theorem State.qualified_countEvent_of_inRange {s : State} (hc : s.ctr ≠ BitVec.allOnes 64) (h : s.InRange) :
    s.countEvent.qualified = s.qualified + 1 := by
  rw [State.qualified_of_inRange h]
  obtain ⟨hmin, hmax⟩ := h
  simp only [State.qualified, State.countEvent_ctr, State.countEvent_boundMin, State.countEvent_boundMax, State.countEvent_boundMaxInf,
    ctr_succ hc]
  cases hinf : s.boundMaxInf with
  | true => simp only [cond_true]; omega
  | false =>
    have := hmax.resolve_left (by simp [hinf])
    simp only [cond_false]
    omega

/-- Counting a record out of range changes nothing in how many qualify (R140(e)). -/
theorem State.qualified_countEvent_of_not_inRange {s : State} (hc : s.ctr ≠ BitVec.allOnes 64) (h : ¬ s.InRange) :
    s.countEvent.qualified = s.qualified := by
  simp only [State.qualified, State.countEvent_ctr, State.countEvent_boundMin, State.countEvent_boundMax, State.countEvent_boundMaxInf,
    ctr_succ hc]
  obtain hmin | hmax := not_and_or.mp h
  · cases s.boundMaxInf <;> simp only [cond_true, cond_false] <;> omega
  · obtain ⟨hinf, hmax⟩ := not_or.mp hmax
    simp only [hinf, cond_false]
    omega

/-- How many weights qualify (R131). -/
theorem State.qualifying_length (s : State) (ws : List Weight) :
    (s.qualifying ws).length = (bif s.boundMaxInf then ws.length else min ws.length s.boundMax.toNat) - s.boundMin.toNat := by
  unfold State.qualifying
  cases s.boundMaxInf <;> simp [Nat.min_comm]

/-- As many samples as records qualified, less the threshold (R140(e), R145). -/
abbrev State.SampleInv (w : Nat) (s : State) : Prop := s.out.length = s.qualified - w

/-- The bounds are the same. -/
abbrev State.SameBounds (s t : State) : Prop :=
  t.boundMin = s.boundMin ∧ t.boundMax = s.boundMax ∧ t.boundMaxInf = s.boundMaxInf

/-- A counter that is not full at its width has a 0 among its bits (log 14). -/
theorem State.ctr_ne_allOnes {p : Params} {s : State} (h : ¬ s.CtrFull p) : s.ctr ≠ BitVec.allOnes 64 := fun e => by
  have hle : 2 ^ min p.ctrW 64 ≤ 2 ^ 64 := Nat.pow_le_pow_right (by decide) (Nat.min_le_right _ _)
  apply h
  rw [State.CtrFull, e, BitVec.toNat_allOnes]
  omega

/-- A folded record adds a sample exactly where the records that qualified before it reach the threshold (R135). -/
theorem State.fold_keeps_sampleInv {p : Params} {s : State} (hc : s.ctr ≠ BitVec.allOnes 64) (hr : s.InRange) (hi : s.SampleInv p.warm)
    (hw : Weight) : (s.fold p hw).countEvent.SampleInv p.warm := by
  have hq : (s.fold p hw).countEvent.qualified = s.countEvent.qualified := by simp [State.qualified]
  have hq0 := State.qualified_of_inRange hr
  rw [State.SampleInv, hq, State.qualified_countEvent_of_inRange hc hr, State.countEvent_out, State.fold_out]
  simp only [State.SampleInv, State.Warm] at hi ⊢
  split
  · rw [List.length_append, List.length_singleton]; omega
  · omega

/-- Where the overflow test lets it through, `Observe` counts the record and keeps the bounds and the number of samples right (R135, R136). -/
theorem State.observe_keeps_sampleInv {p : Params} {s : State} (hfull : ¬ s.CtrFull p) (hi : s.SampleInv p.warm) (d : Word) (hw : Weight) :
    (s.observe p d hw).ctr = s.ctr + 1 ∧ s.SameBounds (s.observe p d hw) ∧ (s.observe p d hw).SampleInv p.warm := by
  have hc := State.ctr_ne_allOnes hfull
  obtain ⟨h, _⟩ | ⟨_, hr, e⟩ | ⟨_, hr, e⟩ := s.observe_cases p d hw
  · exact absurd h hfull
  · rw [e]
    exact ⟨by simp, by simp [State.SameBounds], State.fold_keeps_sampleInv hc hr hi _⟩
  · rw [e]
    exact ⟨rfl, ⟨rfl, rfl, rfl⟩, hi.trans (by rw [State.qualified_countEvent_of_not_inRange hc hr])⟩

/-- After fewer records than a fresh counter can count, `ctr` is their number and OUT holds a sample for each that qualified, less the
threshold. -/
theorem State.observeAll_sampleInv {p : Params} {s : State} (hctr : s.ctr = 0) (hout : s.out = []) (ws : List Weight)
    (hlen : ws.length < 2 ^ min p.ctrW 64) :
    (s.observeAll p ws).ctr.toNat = ws.length ∧ s.SameBounds (s.observeAll p ws) ∧ (s.observeAll p ws).SampleInv p.warm := by
  induction ws using List.reverseRecOn with
  | nil => simp [State.observeAll, State.SameBounds, State.SampleInv, State.qualified, hctr, hout]
  | append_singleton ws hw ih =>
    rw [List.length_append, List.length_singleton] at hlen
    obtain ⟨hc, ⟨hmin, hmax, hinf⟩, hi⟩ := ih (by omega)
    have hfull : ¬ (s.observeAll p ws).CtrFull p := by rw [State.CtrFull, hc]; omega
    obtain ⟨hc', ⟨hmin', hmax', hinf'⟩, hi'⟩ := State.observe_keeps_sampleInv hfull hi 0 hw
    rw [observeAll_append, List.length_append, List.length_singleton]
    exact ⟨by rw [hc', ctr_succ (State.ctr_ne_allOnes hfull), hc],
      ⟨hmin'.trans hmin, hmax'.trans hmax, hinf'.trans hinf⟩, hi'⟩

/-- Settles O52, by induction on the records: each that qualifies past the threshold adds one sample. -/
theorem sampleCountForAnyThreshold : Obligations.SampleCountForAnyThreshold := by
  intro w s ws hctr hout hlen
  obtain ⟨hc, ⟨hmin, hmax, hinf⟩, hi⟩ := State.observeAll_sampleInv (p := { params with warm := w }) hctr hout ws hlen
  rw [hi, State.qualifying_length, State.qualified, hc, hmin, hmax, hinf]

/-! ### Widths (R8) -/

/-- What a register of `w` bits holds is below `2^w`. -/
theorem narrow_toNat_lt {n : Nat} (w : Nat) (v : BitVec n) : (narrow w v).toNat < 2 ^ w := by
  unfold narrow
  split
  · exact Nat.lt_of_lt_of_le v.isLt (Nat.pow_le_pow_right (by decide) ‹_›)
  · rw [BitVec.toNat_ofNat]
    exact Nat.lt_of_le_of_lt (Nat.mod_le _ _) (Nat.mod_lt _ (Nat.two_pow_pos w))

theorem nextCursor_lt (p : Params) (c : Fin 10) : (nextCursor p c).val < 2 ^ p.cursorW :=
  Nat.mod_lt _ (Nat.two_pow_pos _)

/-- Below its last value the counter goes up within `CTR_W` bits (R136, R137; log 14). -/
theorem State.countEvent_ctr_lt {p : Params} {s : State} (h : ¬ s.CtrFull p) : s.countEvent.ctr.toNat < 2 ^ p.ctrW := by
  have hle : 2 ^ min p.ctrW 64 ≤ 2 ^ p.ctrW := Nat.pow_le_pow_right (by decide) (Nat.min_le_left _ _)
  have hsucc : s.countEvent.ctr.toNat ≤ s.ctr.toNat + 1 := by
    rw [State.countEvent_ctr, BitVec.toNat_add]
    exact Nat.mod_le _ _
  unfold State.CtrFull at h
  omega

/-- Slots, `sum`, `cursor`, `ctr` and the samples fit their widths (R8). -/
structure State.FitsWidths (p : Params) (s : State) : Prop where
  buf : ∀ i : Fin 10, s.buf[i].toNat < 2 ^ p.sampleW
  sum : s.sum.toNat < 2 ^ p.sumW
  cursor : s.cursor.val < 2 ^ p.cursorW
  ctr : s.ctr.toNat < 2 ^ p.ctrW
  out : ∀ v ∈ s.out, v.toNat < 2 ^ p.sumW

theorem State.FitsWidths.raise {p : Params} {s : State} (h : s.FitsWidths p) (c : Cause) : (s.raise p c).FitsWidths p where
  buf := by simpa using h.buf
  sum := by simpa using h.sum
  cursor := by simpa using h.cursor
  ctr := by simpa using h.ctr
  out := by simpa using h.out

/-- Counting fits `CTR_W` where the overflow test let it through. -/
theorem State.FitsWidths.countEvent {p : Params} {s : State} (h : s.FitsWidths p) (hc : ¬ s.CtrFull p) : s.countEvent.FitsWidths p where
  buf := h.buf
  sum := h.sum
  cursor := h.cursor
  ctr := State.countEvent_ctr_lt hc
  out := h.out

theorem State.newSum_toNat_lt (p : Params) (hw : Weight) (s : State) : (s.newSum p hw).toNat < 2 ^ p.sumW := narrow_toNat_lt _ _

/-- A folded weight that fits `SAMPLE_W` leaves everything within its width. -/
theorem State.FitsWidths.fold {p : Params} {s : State} {hw : Weight} (h : s.FitsWidths p) (hfit : hw.toNat < 2 ^ p.sampleW) :
    (s.fold p hw).FitsWidths p where
  buf i := by
    rw [State.fold_buf]
    by_cases hi : s.cursor = i
    · simpa [hi] using hfit
    · have := h.buf i
      simpa [Vector.getElem_set, Fin.val_inj, hi] using this
  sum := by simpa using s.newSum_toNat_lt p hw
  cursor := by simpa using nextCursor_lt p s.cursor
  ctr := by simpa using h.ctr
  out v hv := by
    rw [State.fold_out] at hv
    split at hv
    · obtain hv | hv := List.mem_append.mp hv
      · exact h.out v hv
      · rw [List.mem_singleton.mp hv]
        exact s.newSum_toNat_lt p hw
    · exact h.out v hv

theorem State.FitsWidths.observe {p : Params} {s : State} (h : s.FitsWidths p) (d : Word) (hw : Weight) :
    (s.observe p d hw).FitsWidths p := by
  obtain ⟨_, e⟩ | ⟨hc, _, e⟩ | ⟨hc, _, e⟩ := s.observe_cases p d hw <;> rw [e]
  · exact h.raise _
  · exact (h.fold (narrow_toNat_lt _ _)).countEvent (by simpa [State.CtrFull] using hc)
  · exact h.countEvent hc

/-- A register write keeps both bounds within `CTR_W` bits. -/
theorem State.regWrite_bounds_lt {p : Params} {s : State} (hmin : s.boundMin.toNat < 2 ^ p.ctrW) (hmax : s.boundMax.toNat < 2 ^ p.ctrW)
    (a : Byte) (d : Word) :
    (s.regWrite p a d).boundMin.toNat < 2 ^ p.ctrW ∧ (s.regWrite p a d).boundMax.toNat < 2 ^ p.ctrW := by
  unfold State.regWrite
  split_ifs
  · exact ⟨narrow_toNat_lt _ _, hmax⟩
  · exact ⟨hmin, narrow_toNat_lt _ _⟩
  all_goals exact ⟨hmin, hmax⟩

/-- Settles O53: every register is written through `narrow`, and the counter only below its last value. -/
theorem widthsBoundTheRegisters : Obligations.WidthsBoundTheRegisters := by
  refine ⟨?_, ?_, fun p n c => ⟨narrow_toNat_lt _ _, narrow_toNat_lt _ _⟩⟩
  · rintro p s _ d hw rfl hbuf hsum hcursor hctr hout
    obtain ⟨hbuf', hsum', hcursor', hctr', hout'⟩ := State.FitsWidths.observe ⟨hbuf, hsum, hcursor, hctr, hout⟩ d hw
    exact ⟨hbuf', hsum', hcursor', hctr', hout'⟩
  · rintro p s _ a d rfl hmin hmax
    exact State.regWrite_bounds_lt hmin hmax a d

end Sys2Proof.Machine

/-!
PROOFS. The statements of 10_state.md: the reset state, the register port, who writes the registers, and the invariants that every step keeps.
-/

namespace Sys2Proof.Machine

/-! ### The reset state (R44) -/

/-- Settles O1: the reset state is a literal. -/
theorem resetStateValues : Obligations.ResetStateValues :=
  ⟨by decide, rfl, rfl, rfl, rfl, rfl, rfl, rfl, rfl, rfl, rfl, rfl, rfl, rfl, rfl, rfl, rfl⟩

/-- Settles O45: the reset state is a literal, and each invariant is decidable of it. -/
theorem resetMeetsInvariants : Obligations.ResetMeetsInvariants :=
  ⟨by decide, fun _ => ⟨rfl, rfl, rfl, rfl, rfl, rfl⟩, by decide, by decide, by decide, by decide, Memory.wf_reset⟩

/-! ### Writes through the register port (R32, R33, R40) -/

/-- Outside `IDLE` every write is ignored (R32, R33). -/
theorem State.regWrite_of_not_idle {s : State} (h : s.runState ≠ .idle) (p : Params) (a : Byte) (d : Word) : s.regWrite p a d = s :=
  if_neg h

/-- Only the numbers below 0x04 are writable (R40). -/
theorem State.regWrite_of_four_le {a : Byte} (h : 0x04 ≤ a.toNat) (d : Word) (s : State) : s.regWrite params a d = s := by
  obtain e | ⟨_, ⟨rfl, _⟩ | ⟨rfl, _⟩ | ⟨rfl, _⟩ | ⟨rfl, _⟩⟩ := s.regWrite_cases a d
  · exact e
  all_goals exact absurd h (by decide)

theorem State.regWrite_boundMin {s : State} (h : s.runState = .idle) (d : Word) : s.regWrite params 0x00 d = { s with boundMin := d } :=
  if_pos h

theorem State.regWrite_boundMax {s : State} (h : s.runState = .idle) (d : Word) : s.regWrite params 0x01 d = { s with boundMax := d } :=
  if_pos h

theorem State.regWrite_boundMaxInf {s : State} (h : s.runState = .idle) (d : Word) :
    s.regWrite params 0x02 d = { s with boundMaxInf := d.getLsbD 0 } :=
  if_pos h

/-- `START` (R33). -/
theorem State.regWrite_control (d : Word) (s : State) :
    s.regWrite params 0x03 d = { s with runState := if s.runState = .idle ∧ d.getLsbD 0 = true then .run else s.runState } := by
  by_cases hidle : s.runState = .idle
  · by_cases hd : d.getLsbD 0 = true
    · rw [if_pos ⟨hidle, hd⟩]
      exact (if_pos hidle).trans (if_pos hd)
    · rw [if_neg fun h => hd h.2]
      exact (if_pos hidle).trans (if_neg hd)
  · rw [State.regWrite_of_not_idle hidle, if_neg fun h => hidle h.1]

theorem step_of_write {s : State} {a : Byte} {d : Word} {es : List HostEvent} (he : s.events = .write a d :: es) :
    step s = .next ({ s with events := es }.regWrite params a d) :=
  step_of_event he

/-- Settles O4: `regWrite_control` on the state whose first event is taken. -/
theorem startControl : Obligations.StartControl :=
  ⟨fun s d es he => by rw [step_of_write he, State.regWrite_control], fun _ => rfl⟩

/-! ### Reads through the register port (R40) -/

/-- A register narrower than `reg_rdata` is read whole (R220). -/
theorem State.regRead_toNat {n : Nat} {a : Byte} {s : State} (v : BitVec n) (hn : n ≤ 71) (h : s.regRead a = v.setWidth 71) :
    (s.regRead a).toNat = v.toNat := by
  rw [h, BitVec.toNat_setWidth_of_le hn]

theorem State.regRead_boundMin (s : State) : (s.regRead 0x00).toNat = s.boundMin.toNat :=
  State.regRead_toNat s.boundMin (by decide) rfl

theorem State.regRead_boundMax (s : State) : (s.regRead 0x01).toNat = s.boundMax.toNat :=
  State.regRead_toNat s.boundMax (by decide) rfl

theorem State.regRead_boundMaxInf (s : State) : (s.regRead 0x02).toNat = if s.boundMaxInf then 1 else 0 := by
  rw [State.regRead_toNat (BitVec.ofBool s.boundMaxInf) (by decide) rfl, BitVec.toNat_ofBool]
  cases s.boundMaxInf <;> rfl

/-- Concatenation over the naturals. -/
theorem toNat_append_eq_add {m n : Nat} (x : BitVec m) (y : BitVec n) : (x ++ y).toNat = x.toNat * 2 ^ n + y.toNat := by
  rw [BitVec.toNat_append, ← Nat.shiftLeft_add_eq_or_of_lt y.isLt, Nat.shiftLeft_eq]

/-- The packing of `STATUS` from bit 7 down (R40). -/
theorem State.statusWord_toNat (s : State) :
    s.statusWord.toNat = 128 * s.outClosed.toNat + 32 * s.exitStatus.toNat + 4 * s.errCode.code.toNat + s.runState.code.toNat := by
  simp only [State.statusWord, toNat_append_eq_add, BitVec.toNat_ofBool]
  omega

theorem State.regRead_cursor (s : State) : (s.regRead 0x0B).toNat = s.cursor.val :=
  Nat.mod_eq_of_lt (Nat.lt_trans s.cursor.isLt (by decide))

/-- From 0x0C on the only registers are the ten slots (R40). -/
theorem State.regRead_of_twelve_le {a : Byte} (h : 0x0C ≤ a.toNat) (s : State) :
    s.regRead a = if hslot : 0x10 ≤ a.toNat ∧ a.toNat < 0x1A then (s.buf[a.toNat - 0x10]).setWidth 71 else 0 := by
  have ne : ∀ b : Byte, b.toNat < 0x0C → a ≠ b := fun b hb e => by subst e; omega
  unfold State.regRead
  rw [if_neg (ne regBoundMin (by decide)), if_neg (ne regBoundMax (by decide)), if_neg (ne regBoundMaxInf (by decide)),
    if_neg (ne regStatus (by decide)), if_neg (ne regErrTag (by decide)), if_neg (ne regErrExecId (by decide)),
    if_neg (ne regErrDeclared (by decide)), if_neg (ne regErrComputed (by decide)), if_neg (ne regCtr (by decide)),
    if_neg (ne regSum (by decide)), if_neg (ne regCursor (by decide))]

/-- `BUF[i]` is number `0x10 + i` (R40). -/
theorem State.regRead_slot (i : Fin 10) (s : State) : (s.regRead (BitVec.ofNat 8 (0x10 + i.val))).toNat = s.buf[i].toNat := by
  have hi := i.isLt
  have ha : (BitVec.ofNat 8 (0x10 + i.val)).toNat = 0x10 + i.val := Nat.mod_eq_of_lt (by omega)
  rw [State.regRead_of_twelve_le (by omega), dif_pos (by omega), BitVec.toNat_setWidth_of_le (by decide)]
  simp only [ha, Nat.add_sub_cancel_left, Fin.getElem_fin]

/-- The numbers the table leaves out read 0 (R40). -/
theorem State.regRead_unassigned {a : Byte} (h : (0x0C ≤ a.toNat ∧ a.toNat < 0x10) ∨ 0x1A ≤ a.toNat) (s : State) : s.regRead a = 0 := by
  rw [State.regRead_of_twelve_le (by omega), dif_neg (by omega)]

/-- Settles O5: the table of R40, number by number. -/
theorem registerMap : Obligations.RegisterMap := by
  refine ⟨⟨rfl, rfl, rfl, rfl⟩, fun s => ⟨s.regRead_boundMin, s.regRead_boundMax, s.regRead_boundMaxInf, rfl, ?status,
    State.regRead_toNat s.errTag (by decide) rfl, State.regRead_toNat s.errExecId (by decide) rfl,
    State.regRead_toNat s.errDeclared (by decide) rfl, State.regRead_toNat s.errComputed (by decide) rfl,
    State.regRead_toNat s.ctr (by decide) rfl, rfl, s.regRead_cursor, s.regRead_slot, fun a ha => State.regRead_unassigned ha s,
    fun a d ha => State.regWrite_of_four_le ha d s, fun a d hs => State.regWrite_of_not_idle hs params a d, fun d hs => ?write⟩⟩
  case status => exact (State.regRead_toNat s.statusWord (by decide) rfl).trans s.statusWord_toNat
  case write =>
    refine ⟨State.regWrite_boundMin hs d, State.regWrite_boundMax hs d, State.regWrite_boundMaxInf hs d, ?_⟩
    rw [State.regWrite_control, hs]
    simp only [true_and]

/-! ### Who writes the configuration (R32) -/

theorem Effect.sameBounds {p : Params} {s t : State} (h : Effect p s t) : s.SameBounds t := by
  cases h with
  | skipped | raised | truncated => simp [State.SameBounds]
  | observed n _ d w =>
    obtain ⟨_, e⟩ | ⟨_, _, e⟩ | ⟨_, _, e⟩ := (s.advance n).observe_cases p d w <;> simp [State.SameBounds, e]

/-- The MAE never writes a configuration register (R32). -/
theorem runStep_sameBounds {s t : State} (h : runStep s = .next t) : s.SameBounds t := by
  obtain ⟨rfl, _⟩ | ⟨h, _⟩ := runStep_cases h
  · exact ⟨rfl, rfl, rfl⟩
  obtain ⟨u, e, ⟨_, rfl⟩ | heff | ⟨_, heff⟩⟩ := messageStep_effect s <;> rw [h] at e <;> cases e
  · exact ⟨rfl, rfl, rfl⟩
  · exact heff.sameBounds
  · exact Effect.sameBounds (s := s.advance 9) heff

/-- A step on neither a write nor a reset leaves the configuration registers (R32). -/
theorem step_sameBounds {s t : State} (h : step s = .next t) (hwrite : ∀ a d, s.events.head? ≠ some (.write a d))
    (hreset : s.events.head? ≠ some .reset) : s.SameBounds t := by
  obtain ⟨_, _, h⟩ | ⟨e, es, he, h⟩ := step_cases h
  · exact runStep_sameBounds h
  obtain ⟨a, d, rfl, rfl⟩ | ⟨rfl, rfl⟩ | ⟨rfl, rfl⟩ | ⟨b, rfl, rfl⟩ | ⟨rfl, _, h⟩ | ⟨rfl, _, rfl⟩ := h
  · exact absurd (by simp [he]) (hwrite a d)
  · exact absurd (by simp [he]) hreset
  · simp [State.SameBounds]
  · exact ⟨rfl, rfl, rfl⟩
  · exact runStep_sameBounds (s := { s with events := es }) h
  · exact ⟨rfl, rfl, rfl⟩

/-- Settles O3: the write and read equations of the port, and `step_sameBounds`. -/
theorem configurationAccess : Obligations.ConfigurationAccess := by
  refine ⟨fun s d es hs => ⟨fun he => ?_, fun he => ?_, fun he => ?_, fun a ha he => ?_⟩, fun s a d es hs he => ?_,
    fun s => ⟨s.regRead_boundMin, s.regRead_boundMax, s.regRead_boundMaxInf⟩, fun s t h hwrite hreset => step_sameBounds h hwrite hreset⟩
  · rw [step_of_write he, State.regWrite_boundMin (s := { s with events := es }) hs]
  · rw [step_of_write he, State.regWrite_boundMax (s := { s with events := es }) hs]
  · rw [step_of_write he, State.regWrite_boundMaxInf (s := { s with events := es }) hs]
  · rw [step_of_write he, State.regWrite_of_four_le ha]
  · rw [step_of_write he, State.regWrite_of_not_idle (s := { s with events := es }) hs]

/-! ### `sum` is the total of the window (R27, R140(a)) -/

/-- A folded weight moves `sum` and the window's total alike (R134). -/
theorem State.SumInv.fold {s : State} (h : s.SumInv) (hw : Weight) : (s.fold params hw).SumInv := by
  have hsum := newSum_toNat s h hw
  have htotal := bufTotal_set s s.cursor hw
  have hbuf : (s.fold params hw).bufTotal = ({ s with buf := s.buf.set s.cursor hw } : State).bufTotal := by
    simp only [State.bufTotal, State.fold_buf]
  rw [State.SumInv, State.fold_sum, hbuf]
  rw [State.SumInv] at h
  omega

theorem Effect.keeps_sumInv {s t : State} (h : Effect params s t) (hi : s.SumInv) : t.SumInv := by
  cases h with
  | skipped => exact hi
  | raised => exact hi.of_eq (by simp) (by simp)
  | truncated => exact hi
  | observed n _ d w =>
    have hi' : (s.advance n).SumInv := hi
    obtain ⟨_, e⟩ | ⟨_, _, e⟩ | ⟨_, _, e⟩ := (s.advance n).observe_params_cases d w <;> rw [e]
    · exact hi'.of_eq (by simp) (by simp)
    · exact hi'.fold w
    · exact hi'

/-- Settles O46: only a folded record moves `sum` or a slot, and it moves the two totals alike. -/
theorem stepKeepsSumInv : Obligations.StepKeepsSumInv := by
  refine step_keeps State.SumInv (fun _ _ hi => hi) ?write ?reset ?accept ?sinkReady (fun _ _ hi => hi) ?effect
  case write => exact fun s a d hi => hi.of_eq (by simp) (by simp)
  case reset => exact fun s _ => show State.reset.SumInv by decide
  case accept => exact fun s hi => hi.of_eq (by simp) (by simp)
  case sinkReady => exact fun s b hi => hi
  case effect => exact fun s t _ h _ hi => h.keeps_sumInv hi

/-! ### Cursor, slots and samples as functions of the counter (R140, R145) -/

/-- How many records have qualified depends on the counter and the bounds alone. -/
theorem State.qualified_congr {s t : State} (hc : t.ctr = s.ctr) (h : s.SameBounds t) : t.qualified = s.qualified := by
  obtain ⟨hmin, hmax, hinf⟩ := h
  simp only [State.qualified, hc, hmin, hmax, hinf]

theorem State.WindowInv.of_eq {s t : State} (h : s.WindowInv) (hq : t.qualified = s.qualified) (hcursor : t.cursor = s.cursor)
    (hbuf : t.buf = s.buf) (hout : t.out = s.out) : t.WindowInv := by
  simpa only [State.WindowInv, hq, hcursor, hbuf, hout] using h

/-- While nothing has been observed, every setting of the bounds agrees with the estimator. -/
theorem State.windowInv_of_fresh {s : State} (hctr : s.ctr = 0) (hcursor : s.cursor = 0) (hbuf : s.buf = Vector.replicate 10 0)
    (hout : s.out = []) : s.WindowInv := by
  have hq : s.qualified = 0 := by cases hinf : s.boundMaxInf <;> simp [State.qualified, hctr, hinf]
  simp [State.WindowInv, hq, hcursor, hbuf, hout]

theorem State.WindowInv.raise {s : State} (h : s.WindowInv) (p : Params) (c : Cause) : (s.raise p c).WindowInv :=
  h.of_eq (State.qualified_congr (by simp) (by simp [State.SameBounds])) (by simp) (by simp) (by simp)

/-- The slot at the cursor is the one the next qualifying record fills: with `q` slots touched it is slot `q`, then the oldest (R28). -/
theorem State.WindowInv.fold {s : State} (h : s.WindowInv) (hc : s.ctr ≠ BitVec.allOnes 64) (hr : s.InRange) (hw : Weight) :
    (s.fold params hw).countEvent.WindowInv := by
  obtain ⟨hcursor, hslots, hout⟩ := h
  have hq : (s.fold params hw).countEvent.qualified = s.qualified + 1 := by
    rw [← State.qualified_countEvent_of_inRange hc hr]
    exact State.qualified_congr (by simp) (by simp [State.SameBounds])
  refine ⟨?_, fun i hi => ?_, State.fold_keeps_sampleInv (p := params) hc hr hout hw⟩
  · rw [hq, State.countEvent_cursor, State.fold_cursor, nextCursor_params, Fin.val_add, hcursor]
    exact Nat.mod_add_mod _ _ _
  · rw [hq] at hi
    have hne : s.cursor.val ≠ i.val := by have := i.isLt; omega
    have := hslots i (by omega)
    simpa [Vector.getElem_set, hne] using this

theorem Effect.keeps_windowInv {s t : State} (h : Effect params s t) (hi : s.WindowInv) : t.WindowInv := by
  cases h with
  | skipped => exact hi
  | raised n _ c => exact State.WindowInv.raise (s := s.advance n) hi params c
  | truncated => exact hi
  | observed n _ d w =>
    have hi' : (s.advance n).WindowInv := hi
    obtain ⟨_, e⟩ | ⟨hc, hr, e⟩ | ⟨hc, hr, e⟩ := (s.advance n).observe_params_cases d w <;> rw [e]
    · exact hi'.raise params _
    · exact hi'.fold hc hr w
    · exact hi'.of_eq (State.qualified_countEvent_of_not_inRange hc hr) rfl rfl rfl

/-- No effect leads to `IDLE` from `RUN`. -/
theorem Effect.not_idle {p : Params} {s t : State} (h : Effect p s t) (hs : s.runState = .run) : t.runState ≠ .idle := by
  obtain e | ⟨e, _⟩ := h.fatal_or_keeps_position <;> simp [e, hs]

/-- The host can write the bounds only while nothing has been observed (R32). -/
theorem State.regWrite_keeps_windowInv {s : State} (a : Byte) (d : Word) (hi : s.IdleInv) (hw : s.WindowInv) :
    (s.regWrite params a d).IdleInv ∧ (s.regWrite params a d).WindowInv := by
  by_cases hidle : s.runState = .idle
  · obtain ⟨hctr, hcursor, _, hbuf, hout, _⟩ := hi hidle
    exact ⟨fun _ => by simpa using hi hidle,
      State.windowInv_of_fresh (by simpa using hctr) (by simpa using hcursor) (by simpa using hbuf) (by simpa using hout)⟩
  · rw [State.regWrite_of_not_idle hidle]
    exact ⟨hi, hw⟩

/-- Settles O47: the bounds change only where nothing has been observed, and each qualifying record moves cursor, slots and samples on. -/
theorem stepKeepsWindowInv : Obligations.StepKeepsWindowInv := by
  intro s t hidle hwin
  refine step_keeps (fun s => s.IdleInv ∧ s.WindowInv) (fun _ _ hi => hi) ?write ?reset ?accept ?sinkReady ?cleanEnd ?effect
    s t ⟨hidle, hwin⟩
  case write => exact fun s a d hi => State.regWrite_keeps_windowInv a d hi.1 hi.2
  case reset => exact fun s _ => ⟨fun _ => ⟨rfl, rfl, rfl, rfl, rfl, rfl⟩, State.windowInv_of_fresh rfl rfl rfl rfl⟩
  case accept =>
    intro s ⟨hi, hw⟩
    exact ⟨by simpa [State.IdleInv] using hi,
      hw.of_eq (State.qualified_congr (by simp) (by simp [State.SameBounds])) (by simp) (by simp) (by simp)⟩
  case sinkReady => exact fun s b hi => hi
  case cleanEnd => exact fun s _ ⟨_, hw⟩ => ⟨nofun, hw⟩
  case effect => exact fun s t hs h _ ⟨_, hw⟩ => ⟨fun e => absurd e (h.not_idle hs), h.keeps_windowInv hw⟩

/-! ### What a step can do to the status registers (R34 to R38) -/

/-- The cause reported is the one that occurred, with the counter at `ctr` (R180): a tag outside the five, two lengths that differ, the counter
at its last value. -/
def Cause.Justified (ctr : Word) : Cause → Prop
  | .unknownType tag _ => 0x05 ≤ tag.toNat
  | .framingExec _ declared computed | .framingMemory _ declared computed => declared.toNat ≠ computed.toNat
  | .truncated _ _ => True
  | .ctrOverflow _ => ctr = BitVec.allOnes 64

theorem State.SameStatus.refl (s : State) : s.SameStatus s := ⟨rfl, rfl, rfl, rfl, rfl, rfl, rfl, rfl⟩

theorem State.SameStatus.runState {s t : State} (h : s.SameStatus t) : t.runState = s.runState := h.1

/-- The status registers are kept, or the run has ended fatally for a justified cause, uncounted. -/
abbrev KeepsOrReports (s t : State) : Prop :=
  s.SameStatus t ∨ ∃ c : Cause, c.Justified s.ctr ∧ (s.raise params c).SameStatus t ∧ t.ctr = s.ctr

/-- Neither `pc` nor the events to come have a part in what the status registers say. -/
theorem KeepsOrReports.of_moved {s t : State} {n : Nat} {es : List HostEvent}
    (h : KeepsOrReports { s with pc := n, events := es } t) : KeepsOrReports s t := by
  obtain hst | ⟨c, hc, hst, hctr⟩ := h
  · exact .inl hst
  · exact .inr ⟨c, hc, by cases c <;> exact hst, hctr⟩

theorem keepsOrReports_advance (n : Nat) (s : State) : KeepsOrReports s (s.advance n) :=
  .inl (.refl _)

theorem keepsOrReports_raise {s : State} {c : Cause} (hc : c.Justified s.ctr) : KeepsOrReports s (s.raise params c) :=
  .inr ⟨c, hc, .refl _, by simp⟩

theorem keepsOrReports_truncate (tag : Byte) (d : Word) (s : State) : KeepsOrReports s (s.truncate params tag d) :=
  .inr ⟨.truncated tag d, trivial, .refl _, rfl⟩

theorem SkipsOrTruncates.keepsOrReports {tag : Byte} {len : Word} {s t : State} (h : SkipsOrTruncates params tag len s t) :
    KeepsOrReports s t := by
  obtain ⟨n, _, rfl⟩ | rfl := h
  · exact keepsOrReports_advance n s
  · exact keepsOrReports_truncate tag len s

theorem doExec_keepsOrReports (len : Word) (s : State) : KeepsOrReports s (doExec params len s) := by
  rw [doExec_eq]
  split_ifs with hfixed hlen hvar
  · exact keepsOrReports_advance _ s
  · exact keepsOrReports_truncate _ _ s
  · exact KeepsOrReports.of_moved (keepsOrReports_raise (s := s.advance 32) (mt (lengthMatches_iff _ _).mpr hlen))
  · exact keepsOrReports_truncate _ _ s

theorem observe_keepsOrReports (len : Word) (hw : Weight) (s : State) : KeepsOrReports s (s.observe params len hw) := by
  obtain ⟨hc, e⟩ | ⟨_, _, e⟩ | ⟨_, _, e⟩ := s.observe_params_cases len hw <;> rw [e]
  · exact keepsOrReports_raise hc
  · exact .inl (by simp [State.SameStatus])
  · exact .inl (.refl _)

theorem doMemory_keepsOrReports (len : Word) (s : State) : KeepsOrReports s (doMemory params len s) := by
  rw [doMemory_eq]
  split_ifs with hfixed hlen hpayload
  · exact (observe_keepsOrReports len _ (s.advance _)).of_moved
  · exact keepsOrReports_truncate _ _ s
  · exact KeepsOrReports.of_moved (keepsOrReports_raise (s := s.advance 33) (mt (lengthMatches_iff _ _).mpr hlen))
  · exact keepsOrReports_truncate _ _ s

/-- The tags outside the five are those from 0x05 on (R71). -/
theorem five_le_of_not_mem_tags {tag : Byte} (h : tag ∉ params.tags) : 0x05 ≤ tag.toNat := by
  simp only [Params.tags, params, List.mem_cons, List.not_mem_nil, or_false, not_or] at h
  bv_omega

theorem exec_keepsOrReports {i : Instr} (hi : i.wf params = true) {s t : State} (h : exec i s = .next t) : KeepsOrReports s t := by
  cases i with
  | info len => cases h; exact (doInfo_cases params len s).keepsOrReports
  | lib len => cases h; exact (doLib_cases params len s).keepsOrReports
  | exec len => cases h; exact doExec_keepsOrReports len s
  | memory len => cases h; exact doMemory_keepsOrReports len s
  | thread len => cases h; exact (doThread_cases params len s).keepsOrReports
  | unknown tag len => cases h; exact keepsOrReports_raise (five_le_of_not_mem_tags (of_decide_eq_true hi))

/-- What a message step under the handshake does to the status registers: it ends the run cleanly, or keeps them or reports a cause. -/
theorem runStep_status {s t : State} (h : runStep s = .next t) : t = s.cleanEnd ∨ KeepsOrReports s t := by
  obtain ⟨rfl, _⟩ | ⟨h, _⟩ := runStep_cases h
  · exact .inr (.inl (.refl _))
  obtain ⟨_, e⟩ | ⟨tag, r, _, _, e⟩ | ⟨tag, r, _, _, e⟩ := messageStep_cases s <;> rw [e] at h
  · cases h; exact .inl rfl
  · cases h; exact .inr (keepsOrReports_truncate tag 0 s)
  · exact .inr (exec_keepsOrReports (instrOf_wf params tag _).1 h).of_moved

/-- What a step can do to the status registers, with the event or the run state that lets it. -/
inductive StatusStep (s t : State) : Prop where
  /-- Kept; `ctr` is then kept too, but for a step in `RUN`. -/
  | kept (hst : s.SameStatus t) (hctr : s.runState = .run ∨ t.ctr = s.ctr)
  /-- A reset (R210). -/
  | reset (es : List HostEvent) (he : s.events = .reset :: es) (hst : State.reset.SameStatus t)
  /-- `START` written in `IDLE` (R33). -/
  | started (d : Word) (es : List HostEvent) (he : s.events = .write 0x03 d :: es) (hd : d.getLsbD 0 = true)
      (hidle : s.runState = .idle) (hst : State.SameStatus { s with runState := .run } t)
  /-- The clean end (R101). -/
  | ended (hrun : s.runState = .run) (hst : s.cleanEnd.SameStatus t)
  /-- A fatal end (R190). -/
  | raised (hrun : s.runState = .run) (c : Cause) (hc : c.Justified s.ctr) (hst : (s.raise params c).SameStatus t)
      (hctr : t.ctr = s.ctr)

/-- The events to come have no part in what a message step does to the status registers. -/
theorem StatusStep.of_runStep {s t : State} (es : List HostEvent) (hs : s.runState = .run)
    (h : runStep { s with events := es } = .next t) : StatusStep s t := by
  obtain rfl | h := runStep_status h
  · exact .ended hs (.refl _)
  · obtain hst | ⟨c, hc, hst, hctr⟩ := KeepsOrReports.of_moved h
    · exact .kept hst (.inl hs)
    · exact .raised hs c hc hst hctr

theorem StatusStep.of_regWrite {s : State} (a : Byte) (d : Word) (es : List HostEvent) (he : s.events = .write a d :: es) :
    StatusStep s ({ s with events := es }.regWrite params a d) := by
  obtain e | ⟨hidle, h⟩ := State.regWrite_cases a d { s with events := es }
  · rw [e]; exact .kept (.refl _) (.inr rfl)
  obtain ⟨_, e⟩ | ⟨_, e⟩ | ⟨_, e⟩ | ⟨rfl, hd, e⟩ := h <;> rw [e]
  · exact .kept (.refl _) (.inr rfl)
  · exact .kept (.refl _) (.inr rfl)
  · exact .kept (.refl _) (.inr rfl)
  · exact .started d es he hd hidle (.refl _)

/-- Every step that answers a next state is one of these: only resets, the start and the ends of a run write the status registers. -/
theorem step_status {s t : State} (h : step s = .next t) : StatusStep s t := by
  obtain ⟨_, hs, h⟩ | ⟨e, es, he, h⟩ := step_cases h
  · exact .of_runStep s.events hs h
  obtain ⟨a, d, rfl, rfl⟩ | ⟨rfl, rfl⟩ | ⟨rfl, rfl⟩ | ⟨b, rfl, rfl⟩ | ⟨rfl, hs, h⟩ | ⟨rfl, _, rfl⟩ := h
  · exact .of_regWrite a d es he
  · exact .reset es he (.refl _)
  · exact .kept (by simp [State.SameStatus]) (.inr (by simp))
  · exact .kept (.refl _) (.inr rfl)
  · exact .of_runStep es hs h
  · exact .kept (.refl _) (.inr rfl)

/-! ### The invariants on the status registers -/

theorem State.StatusInv.of_sameStatus {s t : State} (h : s.StatusInv) (hst : s.SameStatus t) : t.StatusInv := by
  obtain ⟨hrun, hcode, htag, hid, hdecl, hcomp, hexit, hclosed⟩ := hst
  simpa only [State.StatusInv, hrun, hcode, htag, hid, hdecl, hcomp, hexit, hclosed] using h

/-- The fatal entry brings the status registers into agreement, whatever they were (R190). -/
theorem State.statusInv_raise (p : Params) (c : Cause) (s : State) : (s.raise p c).StatusInv := by
  have hcode : c.code ≠ .none := by cases c <;> exact nofun
  simp [State.StatusInv, hcode]

theorem State.StatusInv.errCode_of_not_fatal {s : State} (h : s.StatusInv) (hs : s.runState ≠ .fatal) : s.errCode = .none :=
  not_not.mp (mt h.1.mp hs)

theorem State.StatusInv.latches_of_not_fatal {s : State} (h : s.StatusInv) (hs : s.runState ≠ .fatal) :
    s.exitStatus = 0 ∧ s.errTag = 0 ∧ s.errExecId = 0 ∧ s.errDeclared = 0 ∧ s.errComputed = 0 := by
  obtain ⟨_, _, _, hlatches⟩ := h
  exact hlatches hs

theorem State.StatusInv.cleanEnd {s : State} (h : s.StatusInv) (hs : s.runState = .run) : s.cleanEnd.StatusInv := by
  have hnf : s.runState ≠ .fatal := by simp [hs]
  have hcode := h.errCode_of_not_fatal hnf
  obtain ⟨_, htag, hid, hdecl, hcomp⟩ := h.latches_of_not_fatal hnf
  simp [State.StatusInv, hcode, htag, hid, hdecl, hcomp]

theorem State.StatusInv.start {s : State} (h : s.StatusInv) (hs : s.runState = .idle) :
    State.StatusInv { s with runState := .run } := by
  simpa [State.StatusInv, hs] using h

/-- Settles O48: the reset, the start and each end leave the status registers in agreement, and nothing else writes them. -/
theorem stepKeepsStatusInv : Obligations.StepKeepsStatusInv := by
  intro s t hi h
  cases step_status h with
  | kept hst => exact hi.of_sameStatus hst
  | reset es he hst => exact State.StatusInv.of_sameStatus (by decide) hst
  | started d es he hd hidle hst => exact (hi.start hidle).of_sameStatus hst
  | ended hrun hst => exact (hi.cleanEnd hrun).of_sameStatus hst
  | raised hrun c hc hst => exact (State.statusInv_raise params c s).of_sameStatus hst

/-- Without an error code the latches only have to be 0. -/
theorem State.latchInv_of_no_error {s : State} (h : s.StatusInv) (hs : s.runState ≠ .fatal) : s.LatchInv := by
  have hcode := h.errCode_of_not_fatal hs
  obtain ⟨_, _, hid, _, hcomp⟩ := h.latches_of_not_fatal hs
  simp [State.LatchInv, hcode, hid, hcomp]

theorem State.LatchInv.of_sameStatus {s t : State} (h : s.LatchInv) (hst : s.SameStatus t) (hctr : t.ctr = s.ctr) : t.LatchInv := by
  obtain ⟨_, hcode, htag, hid, hdecl, hcomp, _, _⟩ := hst
  simpa only [State.LatchInv, hcode, htag, hid, hdecl, hcomp, hctr] using h

/-- A justified cause leaves latches that fit it, where the latches it does not list were 0 (R36, R180). -/
theorem State.latchInv_raise {s : State} {c : Cause} (hc : c.Justified s.ctr) (hid : s.errExecId = 0) (hcomp : s.errComputed = 0) :
    (s.raise params c).LatchInv := by
  cases c with
  | unknownType tag d => simpa [State.LatchInv, Cause.code, Cause.Justified, hid, hcomp] using hc
  | framingExec i d n => simpa [State.LatchInv, Cause.code, Cause.Justified, params] using hc
  | framingMemory i d n => simpa [State.LatchInv, Cause.code, Cause.Justified, params] using hc
  | truncated tag d => simp [State.LatchInv, Cause.code, hid, hcomp]
  | ctrOverflow d =>
    have hfull : s.ctr = BitVec.allOnes 64 := hc
    simp [State.LatchInv, Cause.code, hid, hcomp, hfull, params]

/-- Settles O49: in a state without an error the latches are 0, and a fatal end reports a justified cause. -/
theorem stepKeepsLatchInv : Obligations.StepKeepsLatchInv := by
  intro s t hst hi h
  have hst' := stepKeepsStatusInv s t hst h
  cases step_status h with
  | kept hsame hctr =>
    by_cases hs : s.runState = .fatal
    · exact hi.of_sameStatus hsame (hctr.resolve_left (by simp [hs]))
    · exact State.latchInv_of_no_error hst' (by rwa [hsame.runState])
  | reset es he hsame => exact State.latchInv_of_no_error hst' (by simp [hsame.runState, State.reset])
  | started d es he hd hidle hsame => exact State.latchInv_of_no_error hst' (by simp [hsame.runState])
  | ended hrun hsame => exact State.latchInv_of_no_error hst' (by simp [hsame.runState])
  | raised hrun c hc hsame hctr =>
    obtain ⟨_, _, hid, _, hcomp⟩ := hst.latches_of_not_fatal (by simp [hrun])
    exact (State.latchInv_raise hc hid hcomp).of_sameStatus hsame (by simpa using hctr)

/-- Settles O41: the reset, the start and the two ends are the only steps that write the status registers. -/
theorem runStateTransitions : Obligations.RunStateTransitions := by
  intro s t h
  cases step_status h with
  | kept hst => exact .inl hst.runState
  | reset es he hst => exact .inr (.inr (.inr ⟨hst.runState, es, he⟩))
  | started d es he hd hidle hst => exact .inr (.inl ⟨hidle, hst.runState, d, es, he, hd⟩)
  | ended hrun hst => exact .inr (.inr (.inl ⟨hrun, .inl hst.runState⟩))
  | raised hrun c hc hst => exact .inr (.inr (.inl ⟨hrun, .inr (by simp [hst.runState])⟩))

/-! ### The streams' positions (R24, R43, R222) -/

/-- An effect consumes bytes that are there (R24). -/
theorem Effect.keeps_pc_le {p : Params} {s t : State} (h : Effect p s t) (hpc : s.pc ≤ s.input.length) : t.pc ≤ t.input.length := by
  have hrest := s.rest_length
  cases h with
  | skipped n hn => simp only [State.advance_pc, State.advance_input]; omega
  | raised n hn c => simp only [State.raise_pc, State.raise_input, State.advance_pc, State.advance_input]; omega
  | truncated => simp
  | observed n hn d w =>
    have hpos : s.pc + n ≤ s.input.length := by omega
    obtain ⟨_, e⟩ | ⟨_, _, e⟩ | ⟨_, _, e⟩ := (s.advance n).observe_cases p d w <;> simpa [e] using hpos

/-- The handshake lets a sample be emitted only where no other is outstanding (R43, R222). -/
theorem Effect.keeps_sinkInv {p : Params} {s t : State} (h : Effect p s t) (hopen : s.outClosed = false) (hn : ¬ s.MustWait t)
    (hi : s.SinkInv) : t.SinkInv := by
  obtain ⟨hle, hone, hready, hclosed⟩ := hi
  have hlevel := h.outside.1
  obtain ⟨hout, hdel, hcl, _⟩ | ⟨hout, hdel, hcl, _⟩ | ⟨hout, hdel, _⟩ := h.output_cases
  · simpa [State.SinkInv, hout, hdel, hcl, hlevel] using ⟨hle, hone, hready, hclosed⟩
  · cases hr : s.outReady with
    | true => simp [State.SinkInv, hout, hdel, hr]
    | false =>
      have htaken : ¬ s.Outstanding := fun ho => hn ⟨hr, ho, .inl (by omega)⟩
      simp only [hr, Bool.false_eq_true, if_false] at hdel
      simp only [State.SinkInv, hout, hdel, hlevel, hr, hcl, hopen, Bool.false_eq_true, false_implies, and_true]
      omega
  · simp [State.SinkInv, hout, hdel]

theorem runStep_keeps_positions {s t : State} (hopen : s.outClosed = false) (hi : s.SinkInv) (hwf : Memory.wf s)
    (h : runStep s = .next t) : t.SinkInv ∧ Memory.wf t := by
  obtain ⟨rfl, _⟩ | ⟨h, hn⟩ := runStep_cases h
  · exact ⟨hi, hwf⟩
  obtain ⟨u, e, ⟨_, rfl⟩ | ⟨tag, rfl⟩ | ⟨h9, heff⟩⟩ := messageStep_outcome s <;> rw [h] at e <;> cases e
  · exact ⟨by simp [State.SinkInv], Memory.wf_cleanEnd hwf⟩
  · exact ⟨by simp [State.SinkInv], Memory.wf_truncate _ _ _ _⟩
  · have hsink : t.SinkInv := heff.keeps_sinkInv hopen hn hi
    have hpos : (s.advance 9).pc ≤ (s.advance 9).input.length := Effect.keeps_pc_le (p := params) (.skipped 9 h9) hwf.1
    exact ⟨hsink, heff.keeps_pc_le hpos, hsink.1⟩

/-- The sink takes a sample only where one is outstanding (R222). -/
theorem State.SinkInv.accept {s : State} (h : s.SinkInv) : s.accept.SinkInv := by
  obtain ⟨hle, hone, hready, hclosed⟩ := h
  simp only [State.SinkInv, State.accept_delivered, State.accept_out, State.accept_outReady, State.accept_outClosed]
  split
  · exact ⟨by omega, by omega, fun _ => by omega, fun _ => by omega⟩
  · exact ⟨hle, hone, hready, hclosed⟩

/-- A sink that becomes ready takes what is outstanding (R222). -/
theorem State.SinkInv.setOutReady {s : State} (h : s.SinkInv) (level : Bool) : (s.setOutReady level).SinkInv := by
  obtain ⟨hle, hone, _, hclosed⟩ := h
  cases level with
  | true => simp [State.SinkInv]
  | false => simpa [State.SinkInv] using ⟨hle, hone, hclosed⟩

/-- The output is open in `RUN` (R38). -/
theorem State.StatusInv.open_of_run {s : State} (h : s.StatusInv) (hs : s.runState = .run) : s.outClosed = false := by
  obtain ⟨_, hclosed, _⟩ := h
  simpa [hs] using hclosed

/-- Settles O50: a message step emits only what the handshake lets it, and the sink takes only what it was offered. -/
theorem stepKeepsStreamPositions : Obligations.StepKeepsStreamPositions := by
  intro s t hst hi hwf h
  obtain ⟨_, hs, h⟩ | ⟨e, es, he, h⟩ := step_cases h
  · exact runStep_keeps_positions (hst.open_of_run hs) hi hwf h
  obtain ⟨a, d, rfl, rfl⟩ | ⟨rfl, rfl⟩ | ⟨rfl, rfl⟩ | ⟨b, rfl, rfl⟩ | ⟨rfl, hs, h⟩ | ⟨rfl, _, rfl⟩ := h
  · exact ⟨by simpa [State.SinkInv] using hi, by simpa [Memory.wf] using hwf⟩
  · exact ⟨by simp [State.SinkInv, State.reset], by simp [Memory.wf, State.reset]⟩
  · exact ⟨State.SinkInv.accept (s := { s with events := es }) hi, Memory.wf_accept hwf⟩
  · exact ⟨State.SinkInv.setOutReady (s := { s with events := es }) hi b, Memory.wf_setOutReady b hwf⟩
  · exact runStep_keeps_positions (s := { s with events := es }) (hst.open_of_run hs) hi hwf h
  · exact ⟨hi, hwf⟩

/-! ### Who writes the estimator (R22, R29, R136) -/

theorem SkipsOrTruncates.sameEstimator {p : Params} {tag : Byte} {len : Word} {s t : State} (h : SkipsOrTruncates p tag len s t) :
    s.SameEstimator t := by
  obtain ⟨n, _, rfl⟩ | rfl := h <;> exact ⟨rfl, rfl, rfl, rfl, rfl⟩

theorem State.sameEstimator_raise (p : Params) (c : Cause) (s : State) : s.SameEstimator (s.raise p c) := by
  simp [State.SameEstimator]

theorem doExec_sameEstimator (p : Params) (len : Word) (s : State) : s.SameEstimator (doExec p len s) := by
  rw [doExec_eq]
  split_ifs
  · exact ⟨rfl, rfl, rfl, rfl, rfl⟩
  · exact ⟨rfl, rfl, rfl, rfl, rfl⟩
  · exact (s.advance 32).sameEstimator_raise p _
  · exact ⟨rfl, rfl, rfl, rfl, rfl⟩

/-- Settles O39: the other messages are skipped or end the run, and neither touches the estimator. -/
theorem onlyMemoryTouchesTheEstimator : Obligations.OnlyMemoryTouchesTheEstimator := by
  intro i s t hmem h
  cases i with
  | info len => cases h; exact (doInfo_cases params len s).sameEstimator
  | lib len => cases h; exact (doLib_cases params len s).sameEstimator
  | exec len => cases h; exact doExec_sameEstimator params len s
  | memory len => exact absurd rfl (hmem len)
  | thread len => cases h; exact (doThread_cases params len s).sameEstimator
  | unknown tag len => cases h; exact s.sameEstimator_raise params _

/-- An effect counts one Memory message or none (R136). -/
theorem Effect.ctr_cases {s t : State} (h : Effect params s t) : t.ctr = s.ctr ∨ t.ctr.toNat = s.ctr.toNat + 1 := by
  cases h with
  | skipped => exact .inl rfl
  | raised => exact .inl (by simp)
  | truncated => exact .inl rfl
  | observed n _ d w =>
    obtain ⟨_, e⟩ | ⟨hc, _, e⟩ | ⟨hc, _, e⟩ := (s.advance n).observe_params_cases d w <;> rw [e]
    · exact .inl (by simp)
    · exact .inr (by simpa using ctr_succ hc)
    · exact .inr (ctr_succ hc)

/-- Only the tag 0x03 selects a Memory message (R71). -/
theorem instrOf_ne_memory {tag : Byte} (h : tag ≠ 0x03) (len n : Word) : instrOf params tag len ≠ .memory n := by
  intro e
  obtain ⟨_, htag, _⟩ := instrOf_wf params tag len
  rw [e] at htag
  exact h htag.symm

theorem exec_ctr_cases {i : Instr} {s t : State} (h : exec i s = .next t) : t.ctr = s.ctr ∨ t.ctr.toNat = s.ctr.toNat + 1 := by
  obtain ⟨u, e, heff⟩ := exec_effect i s
  rw [h] at e
  cases e
  exact heff.ctr_cases

theorem runStep_ctr {s t : State} (h : runStep s = .next t) :
    t.ctr = s.ctr ∨ (t.ctr.toNat = s.ctr.toNat + 1 ∧ s.rest.head? = some 0x03) := by
  obtain ⟨rfl, _⟩ | ⟨h, _⟩ := runStep_cases h
  · exact .inl rfl
  obtain ⟨_, e⟩ | ⟨tag, r, _, _, e⟩ | ⟨tag, r, hr, _, e⟩ := messageStep_cases s <;> rw [e] at h
  · cases h; exact .inl rfl
  · cases h; exact .inl rfl
  · by_cases htag : tag = 0x03
    · exact (exec_ctr_cases h).imp_right fun hctr => ⟨hctr, by simp [hr, htag]⟩
    · obtain ⟨_, _, _, hctr, _⟩ := onlyMemoryTouchesTheEstimator _ _ t (instrOf_ne_memory htag _) h
      exact .inl hctr

/-- Settles O43: no event but a reset writes `ctr`, and a message step counts only at the tag 0x03. -/
theorem counterCountsMemoryMessages : Obligations.CounterCountsMemoryMessages := by
  intro s t h hreset
  obtain ⟨_, hs, h⟩ | ⟨e, es, he, h⟩ := step_cases h
  · exact (runStep_ctr h).imp_right fun ⟨hctr, htag⟩ => ⟨hctr, hs, htag⟩
  obtain ⟨a, d, rfl, rfl⟩ | ⟨rfl, rfl⟩ | ⟨rfl, rfl⟩ | ⟨b, rfl, rfl⟩ | ⟨rfl, hs, h⟩ | ⟨rfl, _, rfl⟩ := h
  · exact .inl (by simp)
  · exact absurd (by simp [he]) hreset
  · exact .inl (by simp)
  · exact .inl rfl
  · exact (runStep_ctr h).imp_right fun ⟨hctr, htag⟩ => ⟨hctr, hs, htag⟩
  · exact .inl rfl

end Sys2Proof.Machine

/-!
PROOFS. The statements of 20_memory.md: byte order, `OUT` is append-only, `IN` is never written.
-/

namespace Sys2Proof.Machine

/-! ### Byte order (R51) -/

/-- Eight bytes fit the 64-bit field they are assembled into (R51). -/
theorem le64_toNat {bs : List Byte} (h : bs.length = 8) : (le64 bs).toNat = leNat bs := by
  have hlt := leNat_lt bs
  rw [h] at hlt
  rw [le64, BitVec.toNat_ofNat]
  omega

/-- Settles O7: the field is `leNat` of its bytes, whose nested form multiplies out to the sum. -/
theorem littleEndianAssembly : Obligations.LittleEndianAssembly := by
  intro b0 b1 b2 b3 b4 b5 b6 b7
  rw [le64_toNat rfl]
  simp only [leNat]
  omega

/-! ### `IN` is never written (R62, R64) -/

theorem Effect.input {p : Params} {s t : State} (h : Effect p s t) : t.input = s.input := by
  cases h with
  | skipped | raised | truncated => simp
  | observed n _ d w =>
    obtain ⟨_, e⟩ | ⟨_, _, e⟩ | ⟨_, _, e⟩ := (s.advance n).observe_cases p d w <;> simp [e]

/-- Settles O44: to hold one particular stream is an invariant that every step keeps. -/
theorem inputIsNeverWritten : Obligations.InputIsNeverWritten := by
  intro s t h
  refine step_keeps (fun u => u.input = s.input) (fun _ _ hi => hi) ?write (fun _ hi => hi) ?accept (fun _ _ hi => hi)
    (fun _ _ hi => hi) ?effect s t rfl h
  case write => exact fun u a d hi => (u.regWrite_input params a d).trans hi
  case accept => exact fun u hi => u.accept_input.trans hi
  case effect => exact fun u v _ heff _ hi => heff.input.trans hi

/-! ### `OUT` is append-only (R56, R135) -/

/-- `OUT` is kept, or one sample is appended to it. -/
abbrev State.AppendsAtMostOne (s t : State) : Prop :=
  ∃ l : List Total, t.out = s.out ++ l ∧ l.length ≤ 1

theorem State.appendsAtMostOne_of_eq {s t : State} (h : t.out = s.out) : s.AppendsAtMostOne t :=
  ⟨[], by simp [h], by simp⟩

/-- A folded record appends the new sum where the window is warm, and nothing elsewhere (R135). -/
theorem State.fold_appendsAtMostOne (p : Params) (hw : Weight) (s : State) : s.AppendsAtMostOne (s.fold p hw) := by
  by_cases hwarm : s.Warm p
  · exact ⟨[s.newSum p hw], by rw [State.fold_out, if_pos hwarm], by simp⟩
  · exact State.appendsAtMostOne_of_eq (by rw [State.fold_out, if_neg hwarm])

theorem Effect.appendsAtMostOne {p : Params} {s t : State} (h : Effect p s t) : s.AppendsAtMostOne t := by
  cases h with
  | skipped | raised | truncated => exact State.appendsAtMostOne_of_eq (by simp)
  | observed n _ d w =>
    obtain ⟨_, e⟩ | ⟨_, _, e⟩ | ⟨_, _, e⟩ := (s.advance n).observe_cases p d w <;> rw [e]
    · exact State.appendsAtMostOne_of_eq (by simp)
    · exact (s.advance n).fold_appendsAtMostOne p _
    · exact State.appendsAtMostOne_of_eq (by simp)

/-- A message step under the handshake appends at most one sample, and an end of the run or a wait none (R56). -/
theorem runStep_appendsAtMostOne {s t : State} (h : runStep s = .next t) : s.AppendsAtMostOne t := by
  obtain ⟨rfl, _⟩ | ⟨h, _⟩ := runStep_cases h
  · exact State.appendsAtMostOne_of_eq rfl
  obtain ⟨u, e, ⟨_, rfl⟩ | heff | ⟨_, heff⟩⟩ := messageStep_effect s <;> rw [h] at e <;> cases e
  · exact State.appendsAtMostOne_of_eq (by simp)
  · exact heff.appendsAtMostOne
  · exact Effect.appendsAtMostOne (s := s.advance 9) heff

/-- A step that neither resets nor takes a message step in `RUN` keeps `OUT`; the message step appends at most one sample. -/
theorem step_out {s t : State} (h : step s = .next t) (hreset : s.events.head? ≠ some .reset) :
    t.out = s.out ∨ (s.runState = .run ∧ s.AppendsAtMostOne t) := by
  obtain ⟨_, hs, h⟩ | ⟨e, es, he, h⟩ := step_cases h
  · exact .inr ⟨hs, runStep_appendsAtMostOne h⟩
  obtain ⟨a, d, rfl, rfl⟩ | ⟨rfl, rfl⟩ | ⟨rfl, rfl⟩ | ⟨b, rfl, rfl⟩ | ⟨rfl, hs, h⟩ | ⟨rfl, _, rfl⟩ := h
  · exact .inl (by simp)
  · exact absurd (by simp [he]) hreset
  · exact .inl (by simp)
  · exact .inl rfl
  · exact .inr ⟨hs, runStep_appendsAtMostOne (s := { s with events := es }) h⟩
  · exact .inl rfl

/-- Settles O42: only a message step in `RUN` appends, and at most one sample. -/
theorem outputOnlyGrows : Obligations.OutputOnlyGrows := by
  intro s t h hreset
  obtain hout | ⟨hs, l, hout, hl⟩ := step_out h hreset
  · exact ⟨[], by simp [hout], by simp, fun _ => rfl⟩
  · exact ⟨l, hout, hl, fun hn => absurd hs hn⟩

end Sys2Proof.Machine

/-!
PROOFS. The statements of 30_encoding.md: headers and messages as written, bounded reads, and what a well-formed message or a stream of them
makes the machine do.
-/

namespace Sys2Proof.Machine

/-! ### Headers (R70, R71, R81, R86, R102) -/

/-- Settles O8: the declared length survives its byte order, and dispatch on distinct tags its tag. -/
theorem decodeEncodeRoundTrip : Obligations.DecodeEncodeRoundTrip :=
  fun _ _ r hp hi => decode_encode_append hp hi r

/-- The header of what dispatch selects is the header it was selected by (R70, R81). -/
theorem encode_instrOf (p : Params) (tag : Byte) (len : Word) : encode p (instrOf p tag len) = tag :: encode64 len := by
  obtain ⟨_, htag, hlen⟩ := instrOf_wf p tag len
  rw [encode, htag, hlen]

/-- Settles O9: nothing, a tag with fewer than 8 bytes after it, or a complete header. -/
theorem decodeAcceptsOnlyHeaders : Obligations.DecodeAcceptsOnlyHeaders := by
  intro p bs
  cases bs with
  | nil => simp [decode]
  | cons tag rest =>
    rw [decode_cons]
    by_cases hshort : rest.length < 8
    · simp [hshort]
    · have hlen : (rest.take 8).length = 8 := List.length_take_of_le (not_lt.mp hshort)
      simp only [hshort, if_false]
      refine ⟨?_, by simp, ?_⟩
      · rintro i r ⟨⟩
        obtain ⟨hwf, _⟩ := instrOf_wf p tag (le64 (rest.take 8))
        exact ⟨hwf, by rw [encode_instrOf, encode64_le64 hlen, List.cons_append, List.take_append_drop]⟩
      · simpa using not_lt.mp hshort

/-- Settles O10, by evaluation of the decoder on each word. -/
theorem headerWordsDecode : Obligations.HeaderWordsDecode := by
  unfold Obligations.HeaderWordsDecode
  decide

/-! ### Messages as written (R70, R72 to R76, R84) -/

/-- A message is as long as its fields make it, whatever declared length it is written with. -/
@[simp] theorem Message.bytesWithLen_length (p : Params) (len : Word) (m : Message) : (m.bytesWithLen p len).length = m.size := by
  have := Message.body_length m
  simp only [Message.bytesWithLen, List.length_cons, List.length_append, encode64_length]
  omega

/-- The declared length of a well-formed message is its size: the size does not wrap (R70). -/
theorem Message.ofNat_size_toNat {m : Message} (h : m.wf = true) : (BitVec.ofNat 64 m.size).toNat = m.size := by
  rw [BitVec.toNat_ofNat, Nat.mod_eq_of_lt (Message.size_lt m h)]

/-- Settles O11: the header decodes to the instruction of its tag, and what is left is the body. -/
theorem messageBytesMatchTheirLength : Obligations.MessageBytesMatchTheirLength := by
  intro p m r _ hm
  obtain ⟨_, _, hlen⟩ := instrOf_wf p (m.tag p) (BitVec.ofNat 64 m.size)
  exact ⟨Message.bytesWithLen_length p _ m, Message.size_lt m hm, decode_bytesWithLen p _ m r, by rw [hlen, Message.ofNat_size_toNat hm]⟩

/-! ### Bounded reads (R78, R79) -/

/-- A bounded read fails exactly where the stream ends before both the limit and a NUL (R78). -/
theorem boundedCount_eq_none_iff {cap : Nat} (hcap : 2 ≤ cap) (bs : List Byte) :
    boundedCount (cap - 1) bs = none ↔ bs.length < cap - 1 ∧ ∀ b ∈ bs, b ≠ 0 := by
  refine ⟨boundedCount_eq_none _ _, fun ⟨hshort, hnz⟩ => Option.eq_none_iff_forall_ne_some.mpr fun n hn => ?_⟩
  obtain ⟨_, _, hle, _, hcut | hnul⟩ := (boundedCount_eq_some_iff hcap bs n).mp hn
  · omega
  · exact hnz 0 (List.mem_of_getElem? hnul) rfl

/-- Settles O24: the counts R78 allows are those the read answers, and it answers none where the stream ends first. -/
theorem boundedReadConsumption : Obligations.BoundedReadConsumption := by
  intro cap s hcap
  have h2 : 2 ≤ cap := by omega
  refine ⟨s.boundedRead_eq_some_iff h2, ?_⟩
  rw [State.boundedRead, Option.map_eq_none_iff, boundedCount_eq_none_iff h2]

theorem State.boundedRead_of_readEnds {cap n : Nat} {s : State} (hcap : 2 ≤ cap) (h : ReadEnds cap s.rest n) :
    s.boundedRead cap = some (s.advance n) :=
  (s.boundedRead_eq_some_iff hcap _).mpr ⟨n, h, rfl⟩

/-- No NUL among the first bytes of a string without one. -/
theorem ne_zero_of_mem_take {str r : List Byte} {n : Nat} (hn : n ≤ str.length) (hnz : ∀ b ∈ str, b ≠ 0) :
    ∀ b ∈ (str ++ r).take n, b ≠ 0 := by
  rw [List.take_append_of_le_length hn]
  exact fun b hb => hnz b (List.mem_of_mem_take hb)

/-- An oversize string is cut at the limit (R79). -/
theorem readEnds_of_oversize {cap : Nat} {str : List Byte} (hcap : 2 ≤ cap) (hlen : cap - 1 ≤ str.length) (hnz : ∀ b ∈ str, b ≠ 0)
    (r : List Byte) : ReadEnds cap (str ++ r) (cap - 1) :=
  ⟨by omega, le_rfl, by simp; omega, ne_zero_of_mem_take (by omega) hnz, .inl rfl⟩

/-- Settles O25: the read ends at the string's NUL where that is within the limit, and at the limit elsewhere. -/
theorem stringConsumption : Obligations.StringConsumption := by
  intro cap s str r hcap hnz hrest
  have h2 : 2 ≤ cap := by omega
  refine ⟨fun hfits => ?_, fun hover => ⟨?_, ?_⟩⟩
  · have hstr : stringFits cap str = true := by simpa [stringFits] using ⟨by omega, hnz⟩
    exact State.boundedRead_of_readEnds h2 (hrest ▸ readEnds_of_stringFits h2 hstr)
  · exact State.boundedRead_of_readEnds h2 (hrest ▸ readEnds_of_oversize h2 hover hnz _)
  · exact hrest ▸ ne_zero_of_mem_take hover hnz

/-! ### Each meaning at the body of a well-formed message (R80, R121) -/

theorem doInfo_of_body {p : Params} {key value r : List Byte} {s : State} (hwf : (Message.info key value).wf = true)
    (h : s.rest = (Message.info key value).body ++ r) (len : Word) :
    doInfo p len s = s.advance (Message.info key value).body.length := by
  obtain ⟨hkey, hvalue⟩ : stringFits 128 key = true ∧ stringFits 2048 value = true := by
    simpa [Message.wf, Config.keyCap, Config.valueCap] using hwf
  have hrest : s.rest = key ++ 0 :: (value ++ 0 :: r) := by simp [h, Message.body]
  have hread : s.readInfo = some (s.advance (Message.info key value).body.length) := by
    refine (s.readInfo_eq_some_iff _).mpr ⟨key.length + 1, value.length + 1, ?_, ?_, ?_⟩
    · exact hrest ▸ readEnds_of_stringFits (by decide) hkey
    · have hdrop : s.rest.drop (key.length + 1) = value ++ 0 :: r := by simp [hrest]
      exact hdrop ▸ readEnds_of_stringFits (by decide) hvalue
    · exact congrArg (State.advance · s) (by simp [Message.body]; omega)
  rw [doInfo, hread]

theorem doLib_of_body {p : Params} {base limit : Word} {name r : List Byte} {s : State} (hwf : (Message.lib base limit name).wf = true)
    (h : s.rest = (Message.lib base limit name).body ++ r) (len : Word) :
    doLib p len s = s.advance (Message.lib base limit name).body.length := by
  have hread : s.readLib = some (s.advance (Message.lib base limit name).body.length) := by
    refine (s.readLib_eq_some_iff _).mpr ⟨by simp [h, Message.body]; omega, name.length + 1, ?_, ?_⟩
    · have hdrop : s.rest.drop 16 = name ++ 0 :: r := by
        rw [h, Message.body, List.append_assoc, List.drop_left' (by simp)]
        simp
      exact hdrop ▸ readEnds_of_stringFits (by decide) hwf
    · exact congrArg (State.advance · s) (by simp [Message.body]; omega)
  rw [doLib, hread]

theorem doThread_of_body {p : Params} {execId threadId : Word} {eventType : Byte} {r : List Byte} {s : State}
    (h : s.rest = (Message.thread execId threadId eventType).body ++ r) (len : Word) :
    doThread p len s = s.advance (Message.thread execId threadId eventType).body.length := by
  rw [doThread_eq, if_pos (by simp [h, Message.body]; omega)]
  simp [Message.body]

/-- An encoded field is read at its place, whatever surrounds it (R51). -/
theorem field64_of_eq_append {bs pre post : List Byte} {v : Word} {n : Nat} (h : bs = pre ++ (encode64 v ++ post)) (hn : pre.length = n) :
    field64 bs n = v :=
  h ▸ field64_encode64 v pre post n hn

/-- A count that fits the field is read back as the number it is (R74, R75). -/
theorem toNat_of_eq_ofNat {v : Word} {n : Nat} (h : v = BitVec.ofNat 64 n) (hn : n < 2 ^ 64) : v.toNat = n := by
  rw [h, BitVec.toNat_ofNat, Nat.mod_eq_of_lt hn]

theorem field64_exec_count {execId threadId : Word} {instrs : List (Word × Byte)} {code r bs : List Byte}
    (h : bs = (Message.exec execId threadId instrs code).body ++ r) : field64 bs 16 = BitVec.ofNat 64 instrs.length :=
  field64_of_eq_append (pre := encode64 execId ++ encode64 threadId) (h.trans (by simp only [Message.body, List.append_assoc]; rfl)) (by simp)

theorem field64_exec_codeLen {execId threadId : Word} {instrs : List (Word × Byte)} {code r bs : List Byte}
    (h : bs = (Message.exec execId threadId instrs code).body ++ r) : field64 bs 24 = BitVec.ofNat 64 code.length :=
  field64_of_eq_append (pre := encode64 execId ++ encode64 threadId ++ encode64 (BitVec.ofNat 64 instrs.length))
    (h.trans (by simp only [Message.body, List.append_assoc]; rfl)) (by simp)

theorem field64_memory_dataLen {execId insAddress startAddress : Word} {accessMode : Byte} {data r bs : List Byte}
    (h : bs = (Message.memory execId insAddress accessMode startAddress data).body ++ r) : field64 bs 25 = BitVec.ofNat 64 data.length :=
  field64_of_eq_append (pre := encode64 execId ++ encode64 insAddress ++ [accessMode] ++ encode64 startAddress)
    (h.trans (by simp only [Message.body, List.append_assoc]; rfl)) (by simp)

theorem doExec_of_body {execId threadId len : Word} {instrs : List (Word × Byte)} {code r : List Byte} {s : State}
    (hwf : (Message.exec execId threadId instrs code).wf = true) (h : s.rest = (Message.exec execId threadId instrs code).body ++ r)
    (hlen : len.toNat = (Message.exec execId threadId instrs code).size) :
    doExec params len s = s.advance (Message.exec execId threadId instrs code).body.length := by
  have hlt := Message.size_lt _ hwf
  have hbody := Message.body_length (.exec execId threadId instrs code)
  have hrest : (Message.exec execId threadId instrs code).body.length ≤ s.rest.length := by simp [h]
  simp only [Message.size] at hlen hlt hbody
  have hcount := toNat_of_eq_ofNat (field64_exec_count h) (by omega)
  have hcode := toNat_of_eq_ofNat (field64_exec_codeLen h) (by omega)
  rw [doExec_eq, if_pos (by omega), if_pos ((lengthMatches_exec _ _ _).mpr (by omega)), if_pos (by omega)]
  congr 1
  omega

/-- A Memory message of the right length is consumed and its payload observed (R115 to R117). -/
theorem doMemory_of_body {execId insAddress startAddress len : Word} {accessMode : Byte} {data r : List Byte} {s : State}
    (hwf : (Message.memory execId insAddress accessMode startAddress data).wf = true)
    (h : s.rest = (Message.memory execId insAddress accessMode startAddress data).body ++ r)
    (hlen : len.toNat = (Message.memory execId insAddress accessMode startAddress data).size) :
    doMemory params len s = (s.advance (33 + data.length)).observe params len (BitVec.ofNat 67 (hammingWeight data)) := by
  have hlt := Message.size_lt _ hwf
  have hrest : 33 + data.length ≤ s.rest.length := by simp [h, Message.body]; omega
  simp only [Message.size] at hlen hlt
  have hdata := toNat_of_eq_ofNat (field64_memory_dataLen h) (by omega)
  have hpayload : (s.rest.drop 33).take data.length = data := by
    rw [h, Message.body, List.append_assoc, List.drop_left' (by simp), List.take_left]
  rw [doMemory_eq, if_pos (by omega), if_pos ((lengthMatches_mem _ _).mpr (by omega)), hdata, if_pos hrest, hpayload]

/-! ### The step at a well-formed message (R80, R82, R121) -/

/-- At a message as written, a message step runs the instruction of its tag, with the body next (R100, R102). -/
theorem messageStep_of_bytesWithLen {s : State} {len : Word} {m : Message} {r : List Byte} (h : s.rest = m.bytesWithLen params len ++ r) :
    messageStep s = exec (instrOf params (m.tag params) len) (s.advance 9) := by
  simp only [messageStep, messageStepWith, State.fetch, h, decode_bytesWithLen, Config.hdrLen]

/-- After the header the body is next. -/
theorem rest_of_bytesWithLen {s : State} {p : Params} {len : Word} {m : Message} {r : List Byte} (h : s.rest = m.bytesWithLen p len ++ r) :
    (s.advance 9).rest = m.body ++ r := by
  have hhdr : s.rest = (m.tag p :: encode64 len) ++ (m.body ++ r) := by simp [h, Message.bytesWithLen]
  rw [State.rest_advance, hhdr, List.drop_left' (by simp)]

/-- Each message but Memory is skipped by its meaning (R105, R108, R111, R119). -/
theorem exec_skips_body {s : State} {m : Message} {len : Word} {r : List Byte} (hwf : m.wf = true)
    (hmem : ∀ i a c b data, m ≠ .memory i a c b data) (hlen : (∃ i u instrs code, m = .exec i u instrs code) → len.toNat = m.size)
    (h : s.rest = m.body ++ r) : exec (instrOf params (m.tag params) len) s = .next (s.advance m.body.length) := by
  cases m with
  | info key value => exact congrArg _ (doInfo_of_body hwf h len)
  | lib base limit name => exact congrArg _ (doLib_of_body hwf h len)
  | exec i u instrs code => exact congrArg _ (doExec_of_body hwf h (hlen ⟨i, u, instrs, code, rfl⟩))
  | memory i a c b data => exact absurd rfl (hmem i a c b data)
  | thread i u ev => exact congrArg _ (doThread_of_body h len)

/-- Settles O54: the meaning skips the body, and nothing emitted is nothing to wait for. -/
theorem skippedMessageConsumedExactly : Obligations.SkippedMessageConsumedExactly := by
  intro s m len r hwf hmem hlen hs he h
  have hskip : messageStep s = .next (s.advance m.size) := by
    rw [messageStep_of_bytesWithLen h, exec_skips_body hwf hmem hlen (rest_of_bytesWithLen h), State.advance_advance, Nat.add_comm,
      Message.body_length]
  rw [step_of_run he hs, runStep_of_not_wait hskip (State.not_mustWait_of_silent le_rfl hs)]
  rfl

/-- At a well-formed Memory message a message step observes the payload, whatever the other fields (R82, R115). -/
theorem messageStep_of_memory {s : State} {i a b : Word} {c : Byte} {data r : List Byte} (hwf : (Message.memory i a c b data).wf = true)
    (h : s.rest = (Message.memory i a c b data).bytes params ++ r) :
    messageStep s = .next ((s.advance (42 + data.length)).observe params (BitVec.ofNat 64 (42 + data.length))
      (BitVec.ofNat 67 (hammingWeight data))) := by
  have hdo := doMemory_of_body hwf (rest_of_bytesWithLen h) (Message.ofNat_size_toNat hwf)
  rw [State.advance_advance, ← Nat.add_assoc] at hdo
  rw [messageStep_of_bytesWithLen h]
  exact congrArg _ hdo

/-- The same state before another stream. -/
def State.withInput (input : List Byte) (s : State) : State := { s with input }

theorem State.fold_withInput (p : Params) (hw : Weight) (s : State) (input : List Byte) :
    (s.withInput input).fold p hw = (s.fold p hw).withInput input :=
  (apply_ite (State.withInput input) (s.Warm p) ((s.updateWindow p hw).emit (s.newSum p hw)) (s.updateWindow p hw)).symm

/-- An observation neither reads nor writes `IN`. -/
theorem State.observe_withInput (p : Params) (declared : Word) (hw : Weight) (s : State) (input : List Byte) :
    (s.withInput input).observe p declared hw = (s.observe p declared hw).withInput input := by
  obtain ⟨hfull, e⟩ | ⟨hfull, hrange, e⟩ | ⟨hfull, hrange, e⟩ := s.observe_cases p declared hw <;> rw [e]
  · exact if_pos hfull
  · exact (if_neg hfull).trans ((if_pos hrange).trans (congrArg State.countEvent (s.fold_withInput p _ input)))
  · exact (if_neg hfull).trans (if_neg hrange)

/-- The handshake does not look at `IN` (R222): where two message steps differ in `IN` alone, so do the steps taken or waited with. -/
theorem runStep_withInput {s t u : State} {input : List Byte} (h : messageStep s = .next u)
    (h' : messageStep (s.withInput input) = .next (u.withInput input)) (ht : runStep s = .next t) :
    runStep (s.withInput input) = .next (t.withInput input) := by
  obtain ⟨rfl, v, hv, hwait⟩ | ⟨hv, hwait⟩ := runStep_cases ht <;> rw [h] at hv <;> cases hv <;> rw [runStep_eq h']
  · exact congrArg _ (if_pos hwait)
  · exact congrArg _ (if_neg hwait)

/-- Settles O36: both message steps are the observation of the one payload. -/
theorem discardedMemoryFieldsHaveNoEffect : Obligations.DiscardedMemoryFieldsHaveNoEffect := by
  intro s t input' i i' a a' b b' m m' data r r' hwf hs he h h' hstep
  have hwf' : (Message.memory i' a' m' b' data).wf = true := hwf
  have hobs : messageStep (s.withInput input') = _ := messageStep_of_memory hwf' h'
  rw [step_of_run he hs] at hstep
  have hrun := runStep_withInput (messageStep_of_memory hwf h) (hobs.trans (congrArg _ ((s.advance _).observe_withInput ..))) hstep
  exact (step_of_run (s := s.withInput input') he hs).trans hrun

/-! ### A stream of well-formed messages (R83) -/

/-- The machine runs undisturbed with `bs` the bytes left of `IN`: no event is pending and the sink is ready (R230). -/
structure State.Reading (s : State) (bs : List Byte) : Prop where
  run : s.runState = .run
  events : s.events = []
  ready : s.outReady = true
  rest : s.rest = bs
  inside : s.pc ≤ s.input.length

theorem State.Reading.advance {s : State} {bs r : List Byte} (h : s.Reading (bs ++ r)) : (s.advance bs.length).Reading r where
  run := h.run
  events := h.events
  ready := h.ready
  rest := by rw [State.rest_advance, h.rest, List.drop_left]
  inside := by
    have hlen := congrArg List.length h.rest
    have := h.inside
    simp only [State.rest_length, List.length_append] at hlen
    simp only [State.advance_pc, State.advance_input]
    omega

theorem State.Reading.countEvent {s : State} {bs : List Byte} (h : s.Reading bs) : s.countEvent.Reading bs :=
  ⟨h.run, h.events, h.ready, h.rest, h.inside⟩

theorem State.Reading.fold {s : State} {bs : List Byte} (h : s.Reading bs) (p : Params) (hw : Weight) : (s.fold p hw).Reading bs where
  run := by simpa using h.run
  events := by simpa using h.events
  ready := by simpa using h.ready
  rest := by simpa [State.rest] using h.rest
  inside := by simpa using h.inside

/-- An observation below the last value of `ctr` counts the record and reads on (R130, R136). -/
theorem State.Reading.observe {s : State} {bs : List Byte} (h : s.Reading bs) (hctr : s.ctr ≠ BitVec.allOnes 64) (d : Word) (hw : Weight) :
    (s.observe params d hw).Reading bs ∧ (s.observe params d hw).ctr.toNat = s.ctr.toNat + 1 := by
  obtain ⟨hfull, _⟩ | ⟨_, _, e⟩ | ⟨_, _, e⟩ := s.observe_params_cases d hw
  · exact absurd hfull hctr
  · exact e ▸ ⟨(h.fold params hw).countEvent, by simpa using ctr_succ hctr⟩
  · exact e ▸ ⟨h.countEvent, ctr_succ hctr⟩

/-- One well-formed message is consumed in one step and counted if it is a Memory message. -/
theorem State.Reading.step {s : State} {m : Message} {r : List Byte} (h : s.Reading (m.bytes params ++ r)) (hwf : m.wf = true)
    (hctr : s.ctr.toNat + memoryCount [m] < 2 ^ 64) :
    ∃ t, Machine.step s = .next t ∧ t.Reading r ∧ t.ctr.toNat = s.ctr.toNat + memoryCount [m] := by
  have hadv : (s.advance m.size).Reading r := by simpa [Message.bytes] using h.advance
  by_cases hmem : ∃ i a c b data, m = .memory i a c b data
  · obtain ⟨i, a, c, b, data, rfl⟩ := hmem
    have hnot : s.ctr ≠ BitVec.allOnes 64 := fun e => by simp [e, memoryCount] at hctr
    obtain ⟨hread, hcount⟩ := hadv.observe hnot (BitVec.ofNat 64 (42 + data.length)) (BitVec.ofNat 67 (hammingWeight data))
    exact ⟨_, (step_of_ready h.run h.events h.ready).trans (messageStep_of_memory hwf h.rest), hread, hcount⟩
  · push Not at hmem
    have hskip := skippedMessageConsumedExactly s m (BitVec.ofNat 64 m.size) r hwf hmem (fun _ => Message.ofNat_size_toNat hwf)
      h.run h.events h.rest
    have hzero : memoryCount [m] = 0 := by
      cases m with
      | memory i a c b data => exact absurd rfl (hmem i a c b data)
      | info | lib | exec | thread => rfl
    exact ⟨_, hskip, hadv, by rw [hzero]; rfl⟩

/-- At the end of the stream one more step ends the run (R101). -/
theorem State.Reading.step_end {s : State} (h : s.Reading []) : Machine.step s = .next s.cleanEnd :=
  (step_of_ready h.run h.events h.ready).trans (messageStep_of_end h.rest)

theorem memoryCount_cons (m : Message) (ms : List Message) : memoryCount (m :: ms) = memoryCount [m] + memoryCount ms :=
  List.countP_append (l₁ := [m])

/-- A stream of well-formed messages runs to its clean end. -/
theorem State.Reading.steps_stream {s : State} {ms : List Message} (h : s.Reading (streamOf params ms)) (hwf : ∀ m ∈ ms, m.wf = true)
    (hctr : s.ctr.toNat + memoryCount ms < 2 ^ 64) :
    ∃ t : State, steps (ms.length + 1) s = .next t ∧ t.runState = .done ∧ t.exitStatus = 0 ∧
      t.pc = t.input.length ∧ t.ctr.toNat = s.ctr.toNat + memoryCount ms := by
  induction ms generalizing s with
  | nil =>
    have hlen := congrArg List.length h.rest
    have := h.inside
    refine ⟨s.cleanEnd, steps_succ h.step_end 0, rfl, rfl, ?_, rfl⟩
    simp only [State.rest_length, streamOf, List.flatMap_nil, List.length_nil] at hlen
    simp only [State.cleanEnd_pc, State.cleanEnd_input]
    omega
  | cons m ms ih =>
    rw [memoryCount_cons] at hctr ⊢
    obtain ⟨hm, hms⟩ := List.forall_mem_cons.mp hwf
    obtain ⟨t, ht, hread, hcount⟩ := h.step hm (by omega)
    obtain ⟨u, hu, hdone, hexit, hpc, hcount'⟩ := ih hread hms (by omega)
    exact ⟨u, (steps_succ ht _).trans hu, hdone, hexit, hpc, by omega⟩

/-- Settles O55, by induction on the messages: each is consumed by its step, and the end of the stream by one more. -/
theorem wellFormedStreamEndsDone : Obligations.WellFormedStreamEndsDone := by
  intro s ms hwf hs he hr hrest hpos hctr
  have hread : s.Reading (streamOf params ms) := ⟨hs, he, hr, hrest, hpos.1⟩
  exact hread.steps_stream hwf hctr

end Sys2Proof.Machine

/-!
PROOFS. The statements of 40_framer.md: the message step with its ends, what each meaning answers, and what no meaning touches.
-/

namespace Sys2Proof.Machine

/-! ### The step and the meaning it runs (R100, R102, R222) -/

/-- Settles O18: without an event the step is the machine's own, which looks at the run state first. -/
theorem noStepOutsideRun : Obligations.NoStepOutsideRun := by
  intro s he
  have hstep : step s = machineStepWith params exec s := by simp only [step, stepWith, he]
  refine ⟨fun hs => ?_, fun hs => ?_, fun hs => ?_⟩ <;> rw [hstep, machineStepWith, hs]

/-- With no event, or with a quiet one, which is taken off, a step in `RUN` is a message step under the handshake (log 4). -/
theorem step_of_undisturbed {s : State} {es : List HostEvent} (hs : s.runState = .run)
    (he : (s.events = [] ∧ es = []) ∨ s.events = .quiet :: es) : step s = runStep { s with events := es } := by
  obtain ⟨he, rfl⟩ | he := he
  · rw [step_of_run he hs, ← he]
  · exact step_of_quiet he hs

theorem params_distinct : params.Distinct := by decide

/-- At the header of a well-formed instruction the step under the handshake is that instruction's, taken or waited with (R100, R222). -/
theorem runStep_of_encode {i : Instr} {s t : State} {r : List Byte} (hi : i.wf params = true) (h : s.rest = encode params i ++ r)
    (ht : exec i (s.advance 9) = .next t) : runStep s = .next (if s.MustWait t then s else t) :=
  runStep_eq ((messageStepWith_of_encode params_distinct hi h exec).trans ht)

/-- Settles O12: the header decodes to its instruction, and a ready sink or an empty output path is nothing to wait for. -/
theorem stepRunsDecodedInstruction : Obligations.StepRunsDecodedInstruction := by
  intro s i r es hi hs h he
  have hstep {t : State} (ht : exec i (State.advance 9 { s with events := es }) = .next t) :=
    runStep_of_encode (s := { s with events := es }) hi h ht
  rw [step_of_undisturbed hs he]
  refine ⟨fun hsink => ?_, fun t ht => hstep ht⟩
  obtain ⟨t, ht, _⟩ := exec_effect i (State.advance 9 { s with events := es })
  have hwait : ¬ State.MustWait { s with events := es } t :=
    hsink.elim (State.not_mustWait_of_ready · t) (State.not_mustWait_of_taken · t)
  rw [hstep ht, if_neg hwait]
  exact ht.symm

/-! ### Ends of the run found at the header (R101, R102, R120) -/

/-- An end of the run waits exactly while the sink, not ready, has a sample to take (R216, R222). -/
theorem State.mustWait_iff_of_end {s t : State} (ht : t.runState ≠ .run) : s.MustWait t ↔ s.outReady = false ∧ s.delivered < s.out.length :=
  and_congr_right fun _ => and_iff_left (.inr ht)

theorem step_of_end_of_run {s t : State} (hs : s.runState = .run) (he : s.events = []) (h : messageStep s = .next t)
    (ht : t.runState ≠ .run) : step s = .next (if s.outReady = false ∧ s.delivered < s.out.length then s else t) := by
  rw [step_of_run he hs, runStep_eq h, if_congr (State.mustWait_iff_of_end ht) rfl rfl]

/-- Only at the end of the stream does a message step end the run cleanly (R101). -/
theorem rest_eq_nil_of_runStep_done {s t : State} (hs : s.runState = .run) (h : runStep s = .next t) (ht : t.runState = .done) :
    s.rest = [] := by
  obtain ⟨rfl, _⟩ | ⟨h, _⟩ := runStep_cases h
  · simp [hs] at ht
  obtain ⟨u, e, ⟨hrest, _⟩ | ⟨tag, rfl⟩ | ⟨_, heff⟩⟩ := messageStep_outcome s <;> rw [h] at e <;> cases e
  · exact hrest
  · simp at ht
  · obtain hfatal | ⟨hkept, _⟩ := heff.fatal_or_keeps_position
    · simp [hfatal] at ht
    · simp [hkept, hs] at ht

/-- No event leads from `RUN` to `DONE`: it is a message step at the end of the stream. -/
theorem rest_eq_nil_of_step_done {s t : State} (hs : s.runState = .run) (h : step s = .next t) (ht : t.runState = .done) : s.rest = [] := by
  obtain ⟨_, _, h⟩ | ⟨e, es, _, h⟩ := step_cases h
  · exact rest_eq_nil_of_runStep_done hs h ht
  obtain ⟨a, d, rfl, rfl⟩ | ⟨rfl, rfl⟩ | ⟨rfl, rfl⟩ | ⟨b, rfl, rfl⟩ | ⟨rfl, _, h⟩ | ⟨rfl, hn, _⟩ := h
  · rw [State.regWrite_of_not_idle (by simp [hs])] at ht
    simp [hs] at ht
  · simp [State.reset] at ht
  · simp [hs] at ht
  · simp [hs] at ht
  · exact rest_eq_nil_of_runStep_done (s := { s with events := es }) hs h ht
  · exact absurd hs hn

/-- Settles O16: at the end of the stream the message step is the clean end, and no other leads to `DONE`. -/
theorem cleanEndAtEndOfStream : Obligations.CleanEndAtEndOfStream := by
  refine ⟨fun s hst hs he hpc => ?_, fun s t hwf hs h ht => ?_⟩
  · have hrest : s.rest = [] := List.drop_of_length_le hpc.ge
    have hstep := step_of_end_of_run hs he (messageStep_of_end hrest) (by simp)
    refine ⟨fun hsink => ⟨s.cleanEnd, ?_, rfl, ?_⟩, fun hr ho => ?_⟩
    · rw [hstep, if_neg]
      rintro ⟨hr, ho⟩
      exact hsink.elim (by simp [hr]) (by omega)
    · have hnf : s.runState ≠ .fatal := by simp [hs]
      obtain ⟨_, hlatches⟩ := hst.latches_of_not_fatal hnf
      exact ⟨hst.errCode_of_not_fatal hnf, hlatches⟩
    · rw [hstep, if_pos ⟨hr, ho⟩]
  · have hlen := s.rest_length
    rw [rest_eq_nil_of_step_done hs h ht, List.length_nil] at hlen
    have := hwf.1
    omega

/-- A truncation with every field it leaves (R12, R186, R190); the latches it does not list keep their values (log 9). -/
theorem State.truncate_eq_fatalWith (tag : Byte) (d : Word) (s : State) :
    s.truncate params tag d = { s with pc := s.input.length }.fatalWith .truncated tag s.errExecId d s.errComputed := rfl

@[simp] theorem State.fatalWith_runState (code : ErrCode) (tag : Byte) (execId declared : Word) (computed : Comp) (s : State) :
    (s.fatalWith code tag execId declared computed).runState = .fatal := rfl

/-- Settles O17: the message step is the truncation with no declared length, an end of the run. -/
theorem incompleteHeaderIsTruncated : Obligations.IncompleteHeaderIsTruncated := by
  intro s tag r hs he hrest hr
  rw [step_of_end_of_run hs he (messageStep_of_short hrest hr) (by simp), State.truncate_eq_fatalWith]

/-- A tag from 0x05 on selects UNKNOWN (R71, R103). -/
theorem instrOf_of_five_le {tag : Byte} (h : 0x05 ≤ tag.toNat) (len : Word) : instrOf params tag len = .unknown tag len := by
  have hne (k : Byte) (hk : k.toNat < 5) : tag ≠ k := by rintro rfl; omega
  rw [instrOf, if_neg (hne _ (by decide)), if_neg (hne _ (by decide)), if_neg (hne _ (by decide)), if_neg (hne _ (by decide)),
    if_neg (hne _ (by decide))]

/-- Settles O23: UNKNOWN is the fatal entry, and every tag from 0x05 on selects it. -/
theorem unknownTagIsFatal : Obligations.UnknownTagIsFatal := by
  refine ⟨fun tag len s => rfl, fun s tag r htag hs he hrest hr => ?_⟩
  have hmsg := messageStep_of_header hrest hr
  rw [instrOf_of_five_le htag] at hmsg
  exact step_of_end_of_run hs he hmsg (by simp)

/-! ### INFO, LIB and THREAD (R105, R108, R119) -/

theorem doInfo_of_read {s t : State} (h : s.readInfo = some t) (p : Params) (len : Word) : doInfo p len s = t := by
  rw [doInfo, h]

theorem doInfo_of_end {s : State} (h : s.readInfo = none) (p : Params) (len : Word) : doInfo p len s = s.truncate p p.tagInfo len := by
  rw [doInfo, h]

theorem doLib_of_read {s t : State} (h : s.readLib = some t) (p : Params) (len : Word) : doLib p len s = t := by
  rw [doLib, h]

theorem doLib_of_end {s : State} (h : s.readLib = none) (p : Params) (len : Word) : doLib p len s = s.truncate p p.tagLib len := by
  rw [doLib, h]

/-- Settles O20: the two reads together answer exactly the counts R78 allows them. -/
theorem infoResult : Obligations.InfoResult := by
  refine fun len s => ⟨fun m n hm hn => ?_, fun hend => ?_⟩
  · have hread : s.readInfo = some ((s.advance m).advance n) :=
      (s.readInfo_eq_some_iff _).mpr ⟨m, n, hm, hn, State.advance_advance m n s⟩
    exact congrArg _ (doInfo_of_read hread params len)
  · have hread : s.readInfo = none := Option.eq_none_iff_forall_ne_some.mpr fun t ht => by
      obtain ⟨m, n, hm, hn, _⟩ := (s.readInfo_eq_some_iff t).mp ht
      exact hend m n hm hn
    exact congrArg _ (doInfo_of_end hread params len)

/-- Settles O21: the read answers exactly where 16 bytes remain and the name ends after them. -/
theorem libResult : Obligations.LibResult := by
  refine fun len s => ⟨fun n h16 hn => ?_, fun hend => ?_⟩
  · have hread : s.readLib = some ((s.advance 16).advance n) :=
      (s.readLib_eq_some_iff _).mpr ⟨h16, n, hn, State.advance_advance 16 n s⟩
    exact congrArg _ (doLib_of_read hread params len)
  · have hread : s.readLib = none := Option.eq_none_iff_forall_ne_some.mpr fun t ht => by
      obtain ⟨h16, n, hn, _⟩ := (s.readLib_eq_some_iff t).mp ht
      exact hend.elim (by omega) (· n hn)
    exact congrArg _ (doLib_of_end hread params len)

/-- Settles O22: the three fixed fields are one read of 17 bytes. -/
theorem threadResult : Obligations.ThreadResult := by
  refine fun len s => ⟨fun h17 => ?_, fun h17 => ?_⟩
  · exact congrArg _ ((doThread_eq params len s).trans (if_pos h17))
  · exact congrArg _ ((doThread_eq params len s).trans (if_neg (by omega)))

/-! ### EXEC (R111 to R113) -/

/-- Settles O26: the length check passes and the variable part is there. -/
theorem execSkipsValidMessage : Obligations.ExecSkipsValidMessage := by
  rintro len s _ _ rfl rfl hlen hrest
  have hskip : doExec params len s = s.advance (32 + (9 * (field64 s.rest 16).toNat + (field64 s.rest 24).toNat)) := by
    rw [doExec_eq, if_pos (by omega), if_pos ((lengthMatches_exec _ _ _).mpr hlen), if_pos (by omega)]
  rw [← Nat.add_assoc] at hskip
  exact congrArg _ hskip

/-- Settles O27: the comparator holds the computed length itself, so the check fails exactly where the numbers differ. -/
theorem execFramingViolation : Obligations.ExecFramingViolation := by
  rintro len s _ _ rfl rfl hrest hlen
  refine ⟨execComputed params (field64 s.rest 16) (field64 s.rest 24), execComputed_toNat _ _, ?_⟩
  exact congrArg _ ((doExec_eq params len s).trans ((if_pos hrest).trans (if_neg (mt (lengthMatches_exec _ _ _).mp hlen))))

/-- Settles O28: the fixed fields do not fit, or the length check passes and the variable part does not fit. -/
theorem execTruncated : Obligations.ExecTruncated := by
  rintro len s _ _ rfl rfl hcut
  have htrunc : doExec params len s = s.truncate params params.tagExec len := by
    rw [doExec_eq]
    obtain hfixed | ⟨hfixed, hlen, hvar⟩ := hcut
    · rw [if_neg (by omega)]
    · rw [if_pos hfixed, if_pos ((lengthMatches_exec _ _ _).mpr hlen), if_neg (by omega)]
  exact congrArg _ htrunc

/-! ### MEMORY (R115, R116, R130 to R136) -/

/-- A Memory message of the right length whose payload is there is consumed and observed (R115 to R117). -/
theorem doMemory_of_payload {len : Word} {s : State} (hlen : len.toNat = 42 + (field64 s.rest 25).toNat)
    (hrest : 33 + (field64 s.rest 25).toNat ≤ s.rest.length) :
    doMemory params len s = (s.advance (33 + (field64 s.rest 25).toNat)).observe params len
      (BitVec.ofNat 67 (hammingWeight ((s.rest.drop 33).take (field64 s.rest 25).toNat))) := by
  rw [doMemory_eq, if_pos (by omega), if_pos ((lengthMatches_mem _ _).mpr hlen), if_pos hrest]

theorem popcount8_le (b : Byte) : popcount8 b ≤ 8 := by
  have hbit (c : Bool) : c.toNat ≤ 1 := c.toNat_le
  unfold popcount8
  linarith [hbit b[0], hbit b[1], hbit b[2], hbit b[3], hbit b[4], hbit b[5], hbit b[6], hbit b[7]]

/-- At most 8 bits of each byte are set (R132, R133). -/
theorem hammingWeight_le (data : List Byte) : hammingWeight data ≤ 8 * data.length := by
  induction data with
  | nil => exact le_rfl
  | cons b bs ih =>
    have := popcount8_le b
    rw [hammingWeight, List.length_cons]
    omega

/-- The weight of a payload as long as its 64-bit length field says fits a slot (R8, R21). -/
theorem ofNat_hammingWeight_toNat {data : List Byte} (h : data.length < 2 ^ 64) :
    (BitVec.ofNat 67 (hammingWeight data)).toNat = hammingWeight data := by
  have := hammingWeight_le data
  rw [BitVec.toNat_ofNat, Nat.mod_eq_of_lt (by omega)]

/-- `Observe` on a qualifying record below the last value of `ctr` folds and counts it (R130). -/
theorem State.observe_of_inRange {s : State} (hctr : s.ctr.toNat < 2 ^ 64 - 1) (hrange : s.InRange) (declared : Word) (hw : Weight) :
    s.observe params declared hw = (s.fold params hw).countEvent := by
  have hnot : s.ctr ≠ BitVec.allOnes 64 := fun e => by simp [e] at hctr
  rw [State.observe_params, if_neg hnot, if_pos hrange]

/-- A folded and counted record with every field it leaves (R134 to R136). -/
theorem State.fold_countEvent_eq (hw : Weight) (s : State) :
    (s.fold params hw).countEvent =
      { s with
        buf := s.buf.set s.cursor hw
        sum := s.newSum params hw
        cursor := nextCursor params s.cursor
        ctr := s.ctr + 1
        out := if s.Warm params then s.out ++ [s.newSum params hw] else s.out
        delivered := if s.Warm params ∧ s.outReady = true then s.out.length + 1 else s.delivered } := by
  unfold State.fold
  by_cases hwarm : s.Warm params
  · simp only [hwarm, if_true, true_and]
    rfl
  · simp only [hwarm, if_false, false_and]
    rfl

/-- Settles O30: the payload is observed, and a qualifying record below the last value of `ctr` is folded and counted. -/
theorem memoryFoldsQualifyingRecord : Obligations.MemoryFoldsQualifyingRecord := by
  rintro len s _ _ rfl hrest rfl hlen hctr hmin hmax
  have hdata : ((s.rest.drop 33).take (field64 s.rest 25).toNat).length < 2 ^ 64 :=
    Nat.lt_of_le_of_lt (List.length_take_le _ _) (field64 s.rest 25).isLt
  refine ⟨_, s.newSum params _, ofNat_hammingWeight_toNat hdata, s.newSum_params _, ?_⟩
  refine congrArg _ ((doMemory_of_payload hlen hrest).trans ?_)
  rw [State.observe_of_inRange (s := s.advance _) hctr ⟨hmin, hmax⟩, State.fold_countEvent_eq, nextCursor_params]
  rfl

/-- Settles O32: the comparator holds the computed length itself, so the check fails exactly where the numbers differ. -/
theorem memoryFramingViolation : Obligations.MemoryFramingViolation := by
  rintro len s _ rfl hrest hlen
  refine ⟨memComputed params (field64 s.rest 25), memComputed_toNat _, ?_⟩
  exact congrArg _ ((doMemory_eq params len s).trans ((if_pos hrest).trans (if_neg (mt (lengthMatches_mem _ _).mp hlen))))

/-- Settles O33: the fixed fields do not fit, or the length check passes and the payload does not fit. -/
theorem memoryTruncated : Obligations.MemoryTruncated := by
  rintro len s _ rfl hcut
  have htrunc : doMemory params len s = s.truncate params params.tagMemory len := by
    rw [doMemory_eq]
    obtain hfixed | ⟨hfixed, hlen, hpayload⟩ := hcut
    · rw [if_neg (by omega)]
    · rw [if_pos hfixed, if_pos ((lengthMatches_mem _ _).mpr hlen), if_neg (by omega)]
  exact congrArg _ htrunc

/-! ### What no message touches (R123, R25, R62) -/

theorem Effect.sameOutside {p : Params} {s t : State} (h : Effect p s t) : s.SameOutside t := by
  obtain ⟨hmin, hmax, hinf⟩ := h.sameBounds
  exact ⟨hmin, hmax, hinf, h.input, h.outside⟩

theorem Effect.sameStatus_or_fatal {p : Params} {s t : State} (h : Effect p s t) : s.SameStatus t ∨ t.runState = .fatal := by
  cases h with
  | skipped n _ => exact .inl (.refl s)
  | raised n _ c => exact .inr (State.raise_runState p c _)
  | truncated => exact .inr rfl
  | observed n _ d w =>
    obtain ⟨_, e⟩ | ⟨_, _, e⟩ | ⟨_, _, e⟩ := (s.advance n).observe_cases p d w <;> rw [e]
    · exact .inr (State.raise_runState p _ _)
    · exact .inl (by simp [State.SameStatus])
    · exact .inl (.refl s)

/-- An effect does not move `pc` back, wherever it ends (R25). -/
theorem Effect.pc_le {p : Params} {s t : State} (h : Effect p s t) (hpc : s.pc ≤ s.input.length) : s.pc ≤ t.pc := by
  cases h with
  | skipped n _ => exact Nat.le_add_right _ _
  | raised n _ c => simp
  | truncated => exact hpc
  | observed n _ d w =>
    obtain ⟨_, e⟩ | ⟨_, _, e⟩ | ⟨_, _, e⟩ := (s.advance n).observe_cases p d w <;> simp [e]

/-- Settles O40, effect by effect. -/
theorem messageFrame : Obligations.MessageFrame := by
  intro i s t h
  obtain ⟨u, e, heff⟩ := exec_effect i s
  rw [h] at e
  cases e
  exact ⟨heff.sameOutside, heff.sameStatus_or_fatal, fun hpc => ⟨heff.pc_le hpc, heff.keeps_pc_le hpc⟩⟩

end Sys2Proof.Machine

/-!
PROOFS. The statements of 41_estimator.md: the Hamming weight, the window update, a Memory record that is counted or overflows the counter, the
samples of a run of records, and their rendering.
-/

namespace Sys2Proof.Machine

/-! ### Hamming weight (R132, R133) -/

/-- `popcount8` counts the bits that are 1 (R133). -/
theorem popcount8_eq_countP (b : Byte) : popcount8 b = (List.finRange 8).countP fun j => b.getLsbD j.val := by
  have hbit (c : Bool) : (if c = true then 1 else 0) = c.toNat := by cases c <;> rfl
  have hbits : List.finRange 8 = [0, 1, 2, 3, 4, 5, 6, 7] := by decide
  have hcount : ((List.finRange 8).countP fun j => b.getLsbD j.val) =
      b[7].toNat + b[6].toNat + b[5].toNat + b[4].toNat + b[3].toNat + b[2].toNat + b[1].toNat + b[0].toNat := by
    simp [hbits, List.countP_cons, hbit]
  rw [hcount, popcount8]
  ring

/-- Settles O29: the weight is a sum over the bytes, so neither their order nor anything but their bits matters. -/
theorem hammingWeightCountsSetBits : Obligations.HammingWeightCountsSetBits := by
  refine ⟨fun data => ⟨?_, hammingWeight_le data, fun data' hperm => ?_⟩, rfl, rfl, rfl⟩
  · rw [hammingWeight_eq_sum, funext popcount8_eq_countP]
  · rw [hammingWeight_eq_sum, hammingWeight_eq_sum, (hperm.map popcount8).sum_eq]

/-! ### The window update (R134, R139) -/

/-- Settles O35: the slot at the cursor is one of the terms of `sum`, so nothing is borrowed and nothing wraps. -/
theorem windowUpdateIsExact : Obligations.WindowUpdateIsExact := by
  intro s hw hsum
  have hslot : s.buf[s.cursor].toNat ≤ s.sum.toNat := hsum ▸ slot_le_bufTotal s s.cursor
  refine ⟨hslot, ?_, fun i => ?_, ?_⟩
  · have := newSum_toNat s hsum hw
    rw [State.updateWindow_sum]
    omega
  · simp [Vector.getElem_set, Fin.ext_iff, eq_comm]
  · rw [State.updateWindow_cursor, nextCursor_params, Fin.val_add]
    rfl

/-! ### MEMORY: records that are counted, and the last value of the counter (R137, R147) -/

/-- `Observe` on a record out of range below the last value of `ctr` counts it (R147). -/
theorem State.observe_of_not_inRange {s : State} (hctr : s.ctr.toNat < 2 ^ 64 - 1) (hrange : ¬ s.InRange) (declared : Word) (hw : Weight) :
    s.observe params declared hw = s.countEvent := by
  have hnot : s.ctr ≠ BitVec.allOnes 64 := fun e => by simp [e] at hctr
  rw [State.observe_params, if_neg hnot, if_neg hrange]

/-- `Observe` at the last value of `ctr` raises `CtrOverflow`, in range or not (R137). -/
theorem State.observe_of_ctr_full {s : State} (hctr : s.ctr.toNat = 2 ^ 64 - 1) (declared : Word) (hw : Weight) :
    s.observe params declared hw = s.raise params (.ctrOverflow declared) :=
  if_pos (show 2 ^ 64 - 1 ≤ s.ctr.toNat from hctr.ge)

/-- Settles O31: the payload is observed, and a record out of range is counted. -/
theorem memoryCountsRecordOutOfRange : Obligations.MemoryCountsRecordOutOfRange := by
  rintro len s _ rfl hrest hlen hctr hout
  have hrange : ¬ s.InRange := by
    rintro ⟨hmin, hmax⟩
    obtain hlow | ⟨hinf, hhigh⟩ := hout
    · omega
    · exact hmax.elim (by simp [hinf]) (by omega)
  exact congrArg _ ((doMemory_of_payload hlen hrest).trans (State.observe_of_not_inRange (s := s.advance _) hctr hrange _ _))

/-- Settles O34: the payload is observed, and the overflow test comes before every other effect. -/
theorem memoryCounterOverflow : Obligations.MemoryCounterOverflow := by
  rintro len s _ rfl hrest hlen hctr
  exact congrArg _ ((doMemory_of_payload hlen hrest).trans (State.observe_of_ctr_full (s := s.advance _) hctr _ _))

/-! ### The samples of a run of records (R140, R141) -/

theorem weightTotal_append_singleton (hs : List Weight) (hw : Weight) : weightTotal (hs ++ [hw]) = weightTotal hs + hw.toNat := by
  simp [weightTotal]

/-- The totals of every ten consecutive weights, in order: the samples they give (R141). -/
def tenTotals (hs : List Weight) : List Nat :=
  (List.range (hs.length - 9)).map fun j => weightTotal ((hs.drop j).take 10)

/-- Fewer than ten weights give no total of ten. -/
theorem tenTotals_of_short {hs : List Weight} (h : hs.length ≤ 9) : tenTotals hs = [] := by
  rw [tenTotals, Nat.sub_eq_zero_of_le h, List.range_zero, List.map_nil]

/-- From the tenth weight on, each further one gives one further sample: the total of the last ten. -/
theorem tenTotals_append_singleton {hs : List Weight} (h : 9 ≤ hs.length) (hw : Weight) :
    tenTotals (hs ++ [hw]) = tenTotals hs ++ [weightTotal (hs.drop (hs.length - 9) ++ [hw])] := by
  have hlen : (hs ++ [hw]).length - 9 = (hs.length - 9) + 1 := by
    rw [List.length_append, List.length_singleton]
    omega
  have hlast : ((hs ++ [hw]).drop (hs.length - 9)).take 10 = hs.drop (hs.length - 9) ++ [hw] := by
    rw [List.drop_append_of_le_length (by omega), List.take_of_length_le]
    rw [List.length_append, List.length_drop, List.length_singleton]
    omega
  have hearlier : ∀ j ∈ List.range (hs.length - 9),
      weightTotal (((hs ++ [hw]).drop j).take 10) = weightTotal ((hs.drop j).take 10) := fun j hj => by
    have hj := List.mem_range.mp hj
    rw [List.drop_append_of_le_length (by omega), List.take_append_of_le_length (by rw [List.length_drop]; omega)]
  rw [tenTotals, hlen, List.range_succ, List.map_append, List.map_singleton, hlast, List.map_congr_left hearlier, tenTotals]

/-- The estimator has folded records of weights `hs`, and nothing else: as many qualified, `sum` is the total of the last ten, each of these
stands at its place in the window, and the samples are the totals of every ten (R140, R141). -/
structure State.Folded (hs : List Weight) (s : State) : Prop where
  sumInv : s.SumInv
  windowInv : s.WindowInv
  qualified : s.qualified = hs.length
  sum : s.sum.toNat = weightTotal (hs.drop (hs.length - 10))
  slots : ∀ (j : Nat) (h : j < hs.length), hs.length ≤ j + 10 → s.buf[j % 10]'(Nat.mod_lt _ (by decide)) = hs[j]
  out : s.out.map BitVec.toNat = tenTotals hs

/-- A fresh estimator has folded nothing, whatever the bounds. -/
theorem State.folded_nil_of_fresh {s : State} (hbuf : s.buf = Vector.replicate 10 0) (hsum : s.sum = 0) (hcursor : s.cursor = 0)
    (hctr : s.ctr = 0) (hout : s.out = []) : s.Folded [] where
  sumInv := State.SumInv.of_eq (s := State.reset) (by decide) hsum hbuf
  windowInv := State.windowInv_of_fresh hctr hcursor hbuf hout
  qualified := by cases hinf : s.boundMaxInf <;> simp [State.qualified, hctr, hinf]
  sum := by rw [hsum]; rfl
  slots := fun j h => absurd h (Nat.not_lt_zero j)
  out := by rw [hout]; rfl

/-- The slot about to be overwritten holds the oldest of the last ten weights, or 0 while there are fewer than ten: `sum` without it is the total
of the last nine (R134, R140(c)). -/
theorem State.Folded.sum_eq_slot_add {hs : List Weight} {s : State} (h : s.Folded hs) :
    s.sum.toNat = s.buf[s.cursor].toNat + weightTotal (hs.drop (hs.length - 9)) := by
  obtain ⟨hcursor, hzero, _⟩ := h.windowInv
  rw [h.qualified] at hcursor hzero
  rw [h.sum]
  by_cases hfull : 10 ≤ hs.length
  · have hidx : s.cursor.val = (hs.length - 10) % 10 := by omega
    have hslot : s.buf[s.cursor] = hs[hs.length - 10] :=
      (getElem_congr_idx hidx).trans (h.slots (hs.length - 10) (by omega) (by omega))
    rw [hslot, List.drop_eq_getElem_cons (by omega), show hs.length - 10 + 1 = hs.length - 9 by omega]
    simp [weightTotal]
  · rw [hzero s.cursor (by omega), Nat.sub_eq_zero_of_le (by omega), Nat.sub_eq_zero_of_le (by omega)]
    simp

/-- A qualifying record is folded after those before it (R134, R135). -/
theorem State.Folded.fold {hs : List Weight} {s : State} (h : s.Folded hs) (hc : s.ctr ≠ BitVec.allOnes 64) (hr : s.InRange) (hw : Weight) :
    (s.fold params hw).countEvent.Folded (hs ++ [hw]) := by
  have hsum : (s.newSum params hw).toNat = weightTotal (hs.drop (hs.length - 9) ++ [hw]) := by
    have hexact := newSum_toNat s h.sumInv hw
    have hsplit := h.sum_eq_slot_add
    rw [weightTotal_append_singleton]
    omega
  have hlen : (hs ++ [hw]).length = hs.length + 1 := by simp
  refine ⟨h.sumInv.fold hw, h.windowInv.fold hc hr hw, ?qualified, ?sum, fun j hj hlast => ?slots, ?out⟩
  case qualified =>
    rw [State.qualified_congr (s := s.countEvent) (by simp) (by simp [State.SameBounds]), State.qualified_countEvent_of_inRange hc hr,
      h.qualified, hlen]
  case sum =>
    rw [State.countEvent_sum, State.fold_sum, hsum, hlen, List.drop_append_of_le_length (by omega), Nat.add_sub_add_right _ 1 9]
  case slots =>
    obtain ⟨hcursor, _⟩ := h.windowInv
    rw [h.qualified] at hcursor
    rw [hlen] at hj hlast
    simp only [State.countEvent_buf, State.fold_buf, Vector.getElem_set, hcursor]
    by_cases hnew : j = hs.length
    · simp [hnew]
    · rw [if_neg (by omega), h.slots j (by omega) (by omega), List.getElem_append_left]
  case out =>
    have hwarm : s.Warm params ↔ 9 ≤ hs.length := by rw [← h.qualified, State.qualified_of_inRange hr]; rfl
    rw [State.countEvent_out, State.fold_out, if_congr hwarm rfl rfl]
    split
    · rw [List.map_append, List.map_singleton, h.out, hsum, tenTotals_append_singleton ‹_›]
    · rw [h.out, tenTotals_of_short (by omega), tenTotals_of_short (by omega)]

/-- A record out of range is not folded (R147). -/
theorem State.Folded.countEvent {hs : List Weight} {s : State} (h : s.Folded hs) (hc : s.ctr ≠ BitVec.allOnes 64) (hr : ¬ s.InRange) :
    s.countEvent.Folded hs where
  sumInv := h.sumInv
  windowInv := h.windowInv.of_eq (State.qualified_countEvent_of_not_inRange hc hr) rfl rfl rfl
  qualified := (State.qualified_countEvent_of_not_inRange hc hr).trans h.qualified
  sum := h.sum
  slots := h.slots
  out := h.out

theorem drop_append_singleton (n : Nat) (ws : List Weight) (hw : Weight) :
    (ws ++ [hw]).drop n = if n ≤ ws.length then ws.drop n ++ [hw] else ws.drop n := by
  split
  · exact List.drop_append_of_le_length ‹_›
  · rw [List.drop_of_length_le (by rw [List.length_append, List.length_singleton]; omega), List.drop_of_length_le (by omega)]

/-- Whether the next of the weights qualifies is the range test at its index (R131). -/
theorem State.qualifying_append_singleton {s t : State} (ws : List Weight) (hw : Weight) (hbounds : s.SameBounds t)
    (hctr : t.ctr.toNat = ws.length) : s.qualifying (ws ++ [hw]) = if t.InRange then s.qualifying ws ++ [hw] else s.qualifying ws := by
  obtain ⟨hmin, hmax, hinf⟩ := hbounds
  simp only [State.InRange, hmin, hmax, hinf, hctr, State.qualifying]
  cases s.boundMaxInf with
  | true => simp only [true_or, and_true, cond_true, drop_append_singleton]
  | false =>
    simp only [Bool.false_eq_true, false_or, cond_false]
    by_cases hlow : ws.length < s.boundMax.toNat
    · have hall : (ws ++ [hw]).length ≤ s.boundMax.toNat := by rwa [List.length_append, List.length_singleton]
      simp only [hlow, and_true, List.take_of_length_le hall, List.take_of_length_le hlow.le, drop_append_singleton]
    · rw [if_neg (by omega), List.take_append_of_le_length (by omega)]

/-- After records of weights `ws` a fresh estimator has folded those that qualify (R141). -/
theorem State.observeAll_folded {s : State} (hfresh : s.Folded []) (hctr : s.ctr = 0) (hout : s.out = []) (ws : List Weight)
    (hlen : ws.length < 2 ^ 64) : (s.observeAll params ws).Folded (s.qualifying ws) := by
  induction ws using List.reverseRecOn with
  | nil => simpa [State.observeAll, State.qualifying] using hfresh
  | append_singleton ws hw ih =>
    rw [List.length_append, List.length_singleton] at hlen
    have hfolded := ih (by omega)
    obtain ⟨hcount, hbounds, _⟩ := State.observeAll_sampleInv (p := params) hctr hout ws (show ws.length < 2 ^ 64 by omega)
    have hlast : (s.observeAll params ws).ctr.toNat < 2 ^ 64 - 1 := by omega
    have hc : (s.observeAll params ws).ctr ≠ BitVec.allOnes 64 := fun e => by simp [e] at hlast
    rw [observeAll_append, State.qualifying_append_singleton ws hw hbounds hcount]
    by_cases hr : (s.observeAll params ws).InRange
    · rw [State.observe_of_inRange hlast hr, if_pos hr]
      exact hfolded.fold hc hr hw
    · rw [State.observe_of_not_inRange hlast hr, if_neg hr]
      exact hfolded.countEvent hc hr

/-- Settles O51, by induction on the records: each that qualifies replaces the oldest of the last ten. -/
theorem samplesAreTenRecordTotals : Obligations.SamplesAreTenRecordTotals := by
  rintro s _ ws _ hbuf hsum hcursor hctr hout hlen rfl rfl
  obtain ⟨hcount, _⟩ := State.observeAll_sampleInv (p := params) hctr hout ws hlen
  have h := State.observeAll_folded (State.folded_nil_of_fresh hbuf hsum hcursor hctr hout) hctr hout ws hlen
  exact ⟨hcount, h.sum, h.slots, h.out⟩

/-! ### The rendering of `OUT` (R143) -/

/-- The byte of a digit's character holds its code. -/
theorem toNat_ofNat_of_isDigit {c : Char} (h : c.isDigit = true) : (BitVec.ofNat 8 c.toNat).toNat = c.toNat := by
  have hcode : '0'.toNat ≤ c.toNat ∧ c.toNat ≤ '9'.toNat := Char.isDigit_iff_toNat.mp h
  have hnine : '9'.toNat < 2 ^ 8 := by decide
  rw [BitVec.toNat_ofNat, Nat.mod_eq_of_lt (by omega)]

/-- Every character of a decimal numeral is a digit. -/
theorem isDigit_of_mem_decimal {n : Nat} {c : Char} (h : c ∈ Nat.toDigits 10 n) : c.isDigit = true :=
  Nat.isDigit_of_mem_toDigits (by decide) le_rfl h

/-- A numeral is made of the digits 0 to 9. -/
theorem dec_digits (n : Nat) : ∀ b ∈ dec n, 0x30 ≤ b.toNat ∧ b.toNat ≤ 0x39 := by
  intro b hb
  obtain ⟨c, hc, rfl⟩ := List.mem_map.mp hb
  rw [toNat_ofNat_of_isDigit (isDigit_of_mem_decimal hc)]
  exact Char.isDigit_iff_toNat.mp (isDigit_of_mem_decimal hc)

/-- The value of `dec(n)` is `n`. -/
theorem dec_value (n : Nat) : (dec n).foldl (fun acc b => 10 * acc + (b.toNat - 0x30)) 0 = n := by
  have hdigit : ∀ acc, ∀ c ∈ Nat.toDigits 10 n,
      10 * acc + ((BitVec.ofNat 8 c.toNat).toNat - 0x30) = 10 * acc + (c.toNat - '0'.toNat) := fun acc c hc => by
    rw [toNat_ofNat_of_isDigit (isDigit_of_mem_decimal hc)]
    rfl
  calc (dec n).foldl (fun acc b => 10 * acc + (b.toNat - 0x30)) 0
      = (Nat.toDigits 10 n).foldl (fun acc c => 10 * acc + (c.toNat - '0'.toNat)) 0 := by
        rw [dec, List.foldl_map, List.foldl_ext _ _ _ hdigit]
    _ = n := by rw [← Nat.ofDigitChars_eq_foldl, Nat.ofDigitChars_ten_toDigits]

/-- From 10 on, a numeral starts with that of the number without its last digit. -/
theorem dec_head?_of_ten_le {n : Nat} (h : 10 ≤ n) : (dec n).head? = (dec (n / 10)).head? := by
  rw [dec, Nat.toDigits_of_base_le (by decide) h, List.map_append, List.head?_append_of_ne_nil _ (by simp [Nat.toDigits_ne_nil]), dec]

/-- No numeral but that of 0 starts with 0. -/
theorem dec_head?_ne_zero {n : Nat} (h : n ≠ 0) : (dec n).head? ≠ some 0x30 := by
  induction n using Nat.strongRecOn with
  | ind n ih =>
    by_cases hn : n < 10
    · exact (by decide : ∀ m < 10, m ≠ 0 → (dec m).head? ≠ some 0x30) n hn h
    · rw [dec_head?_of_ten_le (by omega)]
      exact ih (n / 10) (by omega) (by omega)

/-- Settles O60: the numeral by the facts above, the lines and the examples by computing them. -/
theorem renderingIsExact : Obligations.RenderingIsExact := by
  refine ⟨fun n => ⟨dec_value n, dec_digits n, dec_head?_ne_zero, rfl⟩, fun v => ?_, rfl, fun v out => rfl, by decide, by decide⟩
  simp [renderSample, Config.window]

end Sys2Proof.Machine

/-!
PROOFS. The statement of 42_byte_serial_fsm.md: from a message boundary the byte-serial machine reaches the state the message step answers.
-/

namespace Sys2Proof.Machine

/-! ### What dispatch and the end of the fixed part do, tag by tag (R163, R165) -/

theorem serialDispatch_info {m : Serial} (ht : m.scratch.tagR = params.tagInfo) :
    serialDispatch params m = { m with scratch := m.scratch.startString 128 false } :=
  if_pos ht

theorem serialDispatch_fixed {m : Serial} (hinfo : m.scratch.tagR ≠ params.tagInfo)
    (ht : m.scratch.tagR = params.tagLib ∨ m.scratch.tagR = params.tagExec ∨ m.scratch.tagR = params.tagMemory ∨
      m.scratch.tagR = params.tagThread) :
    serialDispatch params m = { m with scratch := { m.scratch with k := 0, phase := .fixed } } :=
  (if_neg hinfo).trans (if_pos ht)

theorem serialDispatch_unknown {m : Serial} (hinfo : m.scratch.tagR ≠ params.tagInfo)
    (ht : ¬ (m.scratch.tagR = params.tagLib ∨ m.scratch.tagR = params.tagExec ∨ m.scratch.tagR = params.tagMemory ∨
      m.scratch.tagR = params.tagThread)) :
    serialDispatch params m = { m with arch := m.arch.raise params (.unknownType m.scratch.tagR m.scratch.lenR) } :=
  (if_neg hinfo).trans (if_neg ht)

theorem serialEndFixed_lib {m : Serial} (ht : m.scratch.tagR = 0x01) :
    serialEndFixed params m = { m with scratch := m.scratch.startString 2048 true } :=
  if_pos ht

theorem serialEndFixed_exec {m : Serial} (ht : m.scratch.tagR = 0x02) :
    serialEndFixed params m =
      if LengthMatches params m.scratch.lenR (execComputed params m.scratch.nR m.scratch.cR) then
        { m with scratch := { m.scratch with
            rem := BitVec.ofNat 68 (9 * m.scratch.nR.toNat + m.scratch.cR.toNat)
            phase := if BitVec.ofNat 68 (9 * m.scratch.nR.toNat + m.scratch.cR.toNat) = 0 then .tag else .var } }
      else { m with arch :=
        m.arch.raise params (.framingExec m.scratch.execIdR m.scratch.lenR (execComputed params m.scratch.nR m.scratch.cR)) } := by
  have hlib : m.scratch.tagR ≠ params.tagLib := by rw [ht]; decide
  exact (if_neg hlib).trans (if_pos ht)

theorem serialEndFixed_memory {m : Serial} (ht : m.scratch.tagR = 0x03) :
    serialEndFixed params m =
      if LengthMatches params m.scratch.lenR (memComputed params m.scratch.cR) then
        if m.scratch.cR = 0 then
          serialCommit params { m with scratch := { m.scratch with rem := m.scratch.cR.setWidth 68, hwAcc := 0, phase := .var } }
        else { m with scratch := { m.scratch with rem := m.scratch.cR.setWidth 68, hwAcc := 0, phase := .var } }
      else { m with arch :=
        m.arch.raise params (.framingMemory m.scratch.execIdR m.scratch.lenR (memComputed params m.scratch.cR)) } := by
  have hlib : m.scratch.tagR ≠ params.tagLib := by rw [ht]; decide
  have hexec : m.scratch.tagR ≠ params.tagExec := by rw [ht]; decide
  exact (if_neg hlib).trans ((if_neg hexec).trans (if_pos ht))

theorem serialEndFixed_thread {m : Serial} (ht : m.scratch.tagR = 0x04) :
    serialEndFixed params m = { m with scratch := { m.scratch with phase := .tag } } := by
  have hlib : m.scratch.tagR ≠ params.tagLib := by rw [ht]; decide
  have hexec : m.scratch.tagR ≠ params.tagExec := by rw [ht]; decide
  have hmem : m.scratch.tagR ≠ params.tagMemory := by rw [ht]; decide
  exact (if_neg hlib).trans ((if_neg hexec).trans (if_neg hmem))

/-! ### What the fixed part has latched when it is complete (R164) -/

theorem Assembled.eq_field64 {bs : List Byte} {off : Nat} {v : Word} (h : Assembled (bs.drop off) 8 v) : v = field64 bs off := h.eq

theorem FixedInv.exec_fields {len : Word} {bs : List Byte} {c : Scratch} (h : FixedInv 0x02 len bs 32 c) :
    c.execIdR = field64 bs 0 ∧ c.nR = field64 bs 16 ∧ c.cR = field64 bs 24 := by
  obtain ⟨_, _, hexec, _⟩ := h
  obtain ⟨hid, hn, hc⟩ := hexec rfl
  exact ⟨hid.eq, hn.eq_field64, hc.eq_field64⟩

theorem FixedInv.memory_fields {len : Word} {bs : List Byte} {c : Scratch} (h : FixedInv 0x03 len bs 33 c) :
    c.execIdR = field64 bs 0 ∧ c.cR = field64 bs 25 := by
  obtain ⟨_, _, _, hmem⟩ := h
  obtain ⟨hid, hc⟩ := hmem rfl
  exact ⟨hid.eq, hc.eq_field64⟩

/-! ### Message by message, from dispatch on -/

/-- The length of an Exec message's variable part fits `rem` (R161, R165). -/
theorem execVariable_toNat (n c : Word) : (BitVec.ofNat 68 (9 * n.toNat + c.toNat)).toNat = 9 * n.toNat + c.toNat := by
  have hn := n.isLt
  have hc := c.isLt
  rw [BitVec.toNat_ofNat]
  omega

/-- A read goes on to the transition that ends the message or the run. -/
theorem Reads.last {n : Nat} {m m1 m2 : Serial} {t : State} (h : Reads n m m1) (h1 : serialNext params m1 = some m2) (ht : m2.arch = t)
    (hp : t.runState = .run → m2.scratch.phase = .tag) : Reaches m t :=
  ⟨n, m1, m2, h, h1, ht, hp⟩

/-- The variable part of an Exec message is skipped, that of a Memory message weighed and observed; or the stream ends inside it (R167, R170). -/
theorem reaches_variable {m : Serial} {tag : Byte} {len : Word} {n : Nat} (hs : m.arch.runState = .run) (hw : Memory.wf m.arch)
    (hp : m.scratch.phase = .var) (ht : m.scratch.tagR = tag) (hlen : m.scratch.lenR = len) (hrem : m.scratch.rem.toNat = n) (hn : n ≠ 0) :
    Reaches m (if n ≤ m.arch.rest.length then
        if tag = 0x03 then
          (m.arch.advance n).observe params len (m.scratch.hwAcc + BitVec.ofNat 67 (hammingWeight (m.arch.rest.take n)))
        else m.arch.advance n
      else m.arch.truncate params tag len) := by
  subst ht hlen
  obtain ⟨N, rfl⟩ := Nat.exists_eq_succ_of_ne_zero hn
  split
  · obtain ⟨m1, c, R, _, hlen, hacc, hnext⟩ := reads_variable_part hs hp N hrem ‹_›
    split
    · rename_i h3
      rw [if_pos h3] at hacc hnext
      exact R.last hnext (by simp only [serialCommit, hlen, hacc]) fun _ => rfl
    · rename_i h3
      rw [if_neg h3] at hnext
      exact R.last hnext rfl fun _ => rfl
  · exact reaches_variable_truncated hs hw hp (by omega)

/-- The name of a Lib message, the last field it has (R166). -/
theorem reaches_name {m : Serial} {tag : Byte} {len : Word} (hs : m.arch.runState = .run) (hw : Memory.wf m.arch) (hp : m.scratch.phase = .str)
    (hc : m.scratch.scnt = 0) (hcap : m.scratch.scap = 2048) (hlast : m.scratch.slast = true) (ht : m.scratch.tagR = tag)
    (hlen : m.scratch.lenR = len) : Reaches m ((m.arch.boundedRead 2048).getD (m.arch.truncate params tag len)) := by
  subst ht hlen
  have hname := reads_name hs hw hp hc hcap hlast
  cases hread : m.arch.boundedRead 2048 with
  | none => rwa [hread] at hname
  | some t =>
    rw [hread] at hname
    obtain ⟨n, m', hn, R, hphase, harch⟩ := hname
    exact R.done hn harch hphase

/-- A Thread message is its fixed part (R165). -/
theorem reaches_doThread {m : Serial} {len : Word} (hs : m.arch.runState = .run) (hw : Memory.wf m.arch) (hp : m.scratch.phase = .fixed)
    (hk : m.scratch.k = 0) (ht : m.scratch.tagR = 0x04) (hlen : m.scratch.lenR = len) : Reaches m (doThread params len m.arch) := by
  rw [doThread_eq]
  split
  · obtain ⟨m1, c, R, _, ⟨htag, _⟩, hnext⟩ := reads_fixed_part 0x04 len hs hp hk ht hlen 16 rfl ‹_›
    rw [serialEndFixed_thread htag] at hnext
    exact R.last hnext rfl fun _ => rfl
  · exact reaches_fixed_truncated 0x04 len hs hw hp hk ht hlen (Nat.lt_of_not_le ‹_›)

/-- `DoLib` with its reads evaluated (R108). -/
theorem doLib_eq (p : Params) (len : Word) (s : State) :
    doLib p len s = if 16 ≤ s.rest.length then ((s.advance 16).boundedRead 2048).getD (s.truncate p p.tagLib len)
      else s.truncate p p.tagLib len := by
  have hread : s.readLib = if 16 ≤ s.rest.length then (s.advance 16).boundedRead 2048 else none := by
    simp only [State.readLib, State.skip_eq, bind_guard, State.rest_advance, List.length_drop, guard_guard, State.advance_advance,
      Config.nameCap]
  unfold doLib
  rw [hread]
  split_ifs
  · cases (s.advance 16).boundedRead 2048 <;> rfl
  · rfl

/-- The fixed part of a Lib message, then its name (R165, R166). -/
theorem reaches_doLib {m : Serial} {len : Word} (hs : m.arch.runState = .run) (hw : Memory.wf m.arch) (hp : m.scratch.phase = .fixed)
    (hk : m.scratch.k = 0) (ht : m.scratch.tagR = 0x01) (hlen : m.scratch.lenR = len) : Reaches m (doLib params len m.arch) := by
  rw [doLib_eq]
  split
  · obtain ⟨m1, c, R, _, ⟨htag, hlenR, _⟩, hnext⟩ := reads_fixed_part 0x01 len hs hp hk ht hlen 15 rfl ‹_›
    rw [serialEndFixed_lib htag] at hnext
    exact (R.step hnext rfl).then_reaches (reaches_name hs (Memory.wf_advance hw ‹_›) rfl rfl rfl rfl htag hlenR)
  · exact reaches_fixed_truncated 0x01 len hs hw hp hk ht hlen (Nat.lt_of_not_le ‹_›)

/-- An Exec message ends with its fixed part where the variable part is empty or the length check fails (R165), else in the variable part. -/
theorem reaches_doExec {m : Serial} {len : Word} (hs : m.arch.runState = .run) (hw : Memory.wf m.arch) (hp : m.scratch.phase = .fixed)
    (hk : m.scratch.k = 0) (ht : m.scratch.tagR = 0x02) (hlen : m.scratch.lenR = len) : Reaches m (doExec params len m.arch) := by
  rw [doExec_eq]
  by_cases h32 : 32 ≤ m.arch.rest.length
  · rw [if_pos h32]
    obtain ⟨m1, c, R, _, hinv, hnext⟩ := reads_fixed_part 0x02 len hs hp hk ht hlen 31 rfl h32
    obtain ⟨hid, hn, hc⟩ := hinv.exec_fields
    obtain ⟨htag, hlenR, _⟩ := hinv
    rw [serialEndFixed_exec htag] at hnext
    simp only [hid, hn, hc, hlenR] at hnext
    have hrem := execVariable_toNat (field64 m.arch.rest 16) (field64 m.arch.rest 24)
    split
    · rename_i hmatch
      rw [if_pos hmatch] at hnext
      generalize 9 * (field64 m.arch.rest 16).toNat + (field64 m.arch.rest 24).toNat = v at hnext hrem ⊢
      by_cases hzero : v = 0
      · subst hzero
        rw [if_pos h32]
        exact R.last hnext rfl fun _ => rfl
      · have hne : BitVec.ofNat 68 v ≠ 0 := fun e => hzero (by rw [← hrem, e]; rfl)
        rw [if_neg hne] at hnext
        have hvar := (R.step hnext rfl).then_reaches
          (reaches_variable hs (Memory.wf_advance hw h32) rfl htag rfl hrem hzero)
        simpa [Nat.le_sub_iff_add_le' h32, show params.tagExec = 0x02 from rfl] using hvar
    · rename_i hmatch
      rw [if_neg hmatch] at hnext
      exact R.last hnext rfl (by simp)
  · rw [if_neg h32]
    exact reaches_fixed_truncated 0x02 len hs hw hp hk ht hlen (Nat.lt_of_not_le h32)

/-- A Memory message likewise; it ends with `Commit` (R165, R167, R168). -/
theorem reaches_doMemory {m : Serial} {len : Word} (hs : m.arch.runState = .run) (hw : Memory.wf m.arch) (hp : m.scratch.phase = .fixed)
    (hk : m.scratch.k = 0) (ht : m.scratch.tagR = 0x03) (hlen : m.scratch.lenR = len) : Reaches m (doMemory params len m.arch) := by
  rw [doMemory_eq]
  by_cases h33 : 33 ≤ m.arch.rest.length
  · rw [if_pos h33]
    obtain ⟨m1, c, R, _, hinv, hnext⟩ := reads_fixed_part 0x03 len hs hp hk ht hlen 32 rfl h33
    obtain ⟨hid, hc⟩ := hinv.memory_fields
    obtain ⟨htag, hlenR, _⟩ := hinv
    rw [serialEndFixed_memory htag] at hnext
    simp only [hid, hc, hlenR] at hnext
    split
    · rename_i hmatch
      rw [if_pos hmatch] at hnext
      by_cases hzero : field64 m.arch.rest 25 = 0
      · rw [if_pos hzero] at hnext
        rw [hzero, if_pos (show 33 + (0 : Word).toNat ≤ _ from h33)]
        exact R.last hnext rfl fun _ => rfl
      · rw [if_neg hzero] at hnext
        have hrem : ((field64 m.arch.rest 25).setWidth 68).toNat = (field64 m.arch.rest 25).toNat :=
          BitVec.toNat_setWidth_of_le (by decide)
        have hvar := (R.step hnext rfl).then_reaches
          (reaches_variable hs (Memory.wf_advance hw h33) rfl htag rfl hrem fun e => hzero (BitVec.eq_of_toNat_eq e))
        simpa [Nat.le_sub_iff_add_le' h33, show params.tagMemory = 0x03 from rfl] using hvar
    · rename_i hmatch
      rw [if_neg hmatch] at hnext
      exact R.last hnext rfl (by simp)
  · rw [if_neg h33]
    exact reaches_fixed_truncated 0x03 len hs hw hp hk ht hlen (Nat.lt_of_not_le h33)

/-- The two strings of an Info message, read whole or cut short (R166, R170). -/
theorem reaches_doInfo {m : Serial} {len : Word} (hs : m.arch.runState = .run) (hw : Memory.wf m.arch) (hp : m.scratch.phase = .str)
    (hc : m.scratch.scnt = 0) (hcap : m.scratch.scap = 128) (hlast : m.scratch.slast = false) (ht : m.scratch.tagR = 0x00)
    (hlen : m.scratch.lenR = len) : Reaches m (doInfo params len m.arch) := by
  obtain ⟨_, h⟩ | ⟨n, m', hn, R, hphase, harch⟩ := reaches_info hs hw ht hlen hp hc hcap hlast
  · exact h
  · exact R.done hn harch hphase

/-! ### The whole message -/

/-- From the last byte of the header on, the machine reaches what the dispatched instruction answers (R163 to R168). -/
theorem reaches_dispatched {m m1 c : Serial} {t : State} (hs : c.arch.runState = .run) (hw : Memory.wf c.arch) (R : Reads 8 m m1)
    (hnext : serialNext params m1 = some (serialDispatch params c)) (harch : c.arch = m.arch.advance 9)
    (h : exec (instrOf params c.scratch.tagR c.scratch.lenR) c.arch = .next t) : Reaches m t := by
  have dispatched {sc : Scratch} (e : serialDispatch params c = { c with scratch := sc }) (hrest : Reaches { c with scratch := sc } t) :
      Reaches m t := (R.step (hnext.trans (congrArg some e)) harch).then_reaches hrest
  unfold instrOf at h
  split_ifs at h with hinfo hlib hexec hmem hthread <;> cases h
  · exact dispatched (serialDispatch_info hinfo) (reaches_doInfo hs hw rfl rfl rfl rfl hinfo rfl)
  · exact dispatched (serialDispatch_fixed hinfo (.inl hlib)) (reaches_doLib hs hw rfl rfl hlib rfl)
  · exact dispatched (serialDispatch_fixed hinfo (.inr (.inl hexec))) (reaches_doExec hs hw rfl rfl hexec rfl)
  · exact dispatched (serialDispatch_fixed hinfo (.inr (.inr (.inl hmem)))) (reaches_doMemory hs hw rfl rfl hmem rfl)
  · exact dispatched (serialDispatch_fixed hinfo (.inr (.inr (.inr hthread)))) (reaches_doThread hs hw rfl rfl hthread rfl)
  · rw [serialDispatch_unknown hinfo (by simp [hlib, hexec, hmem, hthread])] at hnext
    exact R.last hnext rfl (by simp [doUnknown])

/-- The stream ends at a message boundary (R162). -/
theorem reaches_cleanEnd {m : Serial} (hs : m.arch.runState = .run) (hp : m.scratch.phase = .tag) (hr : m.arch.rest = []) :
    Reaches m m.arch.cleanEnd :=
  (Reads.zero m).last (serialNext_eos hs hr) (by simp only [serialEos, hp]) (by simp)

/-- The stream ends inside the header (R170). -/
theorem reaches_header_truncated {m : Serial} {tag : Byte} {r : List Byte} (hs : m.arch.runState = .run) (hw : Memory.wf m.arch)
    (hp : m.scratch.phase = .tag) (hr : m.arch.rest = tag :: r) (hlt : r.length < 8) : Reaches m (m.arch.truncate params tag 0) := by
  obtain ⟨c, ⟨hphase, htag, _, _⟩, R⟩ := reads_header hs hp hr r.length (by omega) le_rfl
  exact R.eos hs hw (by rw [hr, List.length_cons]; omega) (by simp only [serialEos, hphase, htag])

/-- From a message boundary the machine runs, reading only, to the transition that has the whole effect of the message step (R169, R170). -/
theorem messageStep_reaches {m : Serial} {t : State} (hp : m.scratch.phase = .tag) (hs : m.arch.runState = .run) (hw : Memory.wf m.arch)
    (h : messageStep m.arch = .next t) : Reaches m t := by
  obtain ⟨hr, e⟩ | ⟨tag, r, hr, hlt, e⟩ | ⟨tag, r, hr, h8, e⟩ := messageStep_cases m.arch <;> rw [h] at e
  · cases e
    exact reaches_cleanEnd hs hp hr
  · cases e
    exact reaches_header_truncated hs hw hp hr hlt
  · obtain ⟨c, m1, R, _, hnext, harch, htag, hlen⟩ := header_step hs hp hr h8
    have hw9 : Memory.wf (m.arch.advance 9) := Memory.wf_advance hw (by rw [hr, List.length_cons]; omega)
    exact reaches_dispatched (by rw [harch]; exact hs) (by rwa [harch]) R hnext harch (by rw [htag, hlen, harch, e])

/-- Settles O58: the machine reaches the transition with the message step's effect, and the hypothesis on the sink is that it need not wait. -/
theorem byteSerialRefinesMessageStep : Obligations.ByteSerialRefinesMessageStep := by
  intro m t hp hs hw h hsink
  refine (messageStep_reaches hp hs hw h).run ?_
  obtain hready | htaken | ⟨hout, hrun⟩ := hsink
  · exact State.not_mustWait_of_ready hready t
  · exact State.not_mustWait_of_taken htaken t
  · exact State.not_mustWait_of_silent hout hrun

end Sys2Proof.Machine

/-!
PROOFS. The statements of 60_exceptions.md: the fatal entry cause by cause, and what a step that ends the run fatally leaves as it was.
-/

namespace Sys2Proof.Machine

/-! ### The fatal entry (R180, R190) -/

/-- The fatal entry writes the latches of its cause and what R190 lists, and nothing else, at any parameters. -/
theorem State.raise_eq_fatalWith (p : Params) (c : Cause) (s : State) :
    s.raise p c = s.fatalWith c.code (s.latch p c).errTag (s.latch p c).errExecId (s.latch p c).errDeclared (s.latch p c).errComputed := by
  cases c <;> rfl

/-- Settles O37: what each cause latches is written out, and the latches it does not list are 0 in `RUN`. -/
theorem fatalEntryByCause : Obligations.FatalEntryByCause := by
  intro s tag execId declared computed hst hs
  obtain ⟨_, _, hid, _, hcomp⟩ := hst.latches_of_not_fatal (by simp [hs])
  have entry (c : Cause) := s.raise_eq_fatalWith params c
  refine ⟨?unknownType, ?framingExec, ?framingMemory, ?truncated, ?ctrOverflow, rfl, rfl, rfl, rfl, rfl, rfl⟩
  case framingExec => exact entry _
  case framingMemory => exact entry _
  case unknownType => simpa only [State.latch, Cause.code, hid, hcomp] using entry (.unknownType tag declared)
  case truncated => simpa only [State.latch, Cause.code, hid, hcomp] using entry (.truncated tag declared)
  case ctrOverflow => simpa only [State.latch, Cause.code, hid, hcomp, params] using entry (.ctrOverflow declared)

/-! ### A fatal end is precise (R57, R191) -/

/-- An effect that ends the run fatally is the fatal entry of some cause: before it, `pc` alone has moved. -/
theorem Effect.eq_raise_of_fatal {p : Params} {s t : State} (h : Effect p s t) (hs : s.runState ≠ .fatal) (ht : t.runState = .fatal) :
    ∃ n c, t = { s with pc := n }.raise p c := by
  cases h with
  | skipped n _ => exact absurd ht hs
  | raised n _ c => exact ⟨s.pc + n, c, rfl⟩
  | truncated tag d => exact ⟨s.input.length, .truncated tag d, rfl⟩
  | observed n _ d w =>
    obtain ⟨_, e⟩ | ⟨_, _, e⟩ | ⟨_, _, e⟩ := (s.advance n).observe_cases p d w
    · exact ⟨s.pc + n, .ctrOverflow d, e⟩
    · exact absurd (by simpa [e] using ht) hs
    · exact absurd (by simpa [e] using ht) hs

theorem runStep_eq_raise_of_fatal {s t : State} (hs : s.runState = .run) (h : runStep s = .next t) (ht : t.runState = .fatal) :
    ∃ n c, t = { s with pc := n }.raise params c := by
  have hnf : s.runState ≠ .fatal := by simp [hs]
  obtain ⟨rfl, _⟩ | ⟨h, _⟩ := runStep_cases h
  · exact absurd ht hnf
  obtain ⟨u, e, ⟨_, rfl⟩ | heff | ⟨_, heff⟩⟩ := messageStep_effect s <;> rw [h] at e <;> cases e
  · simp at ht
  · exact heff.eq_raise_of_fatal hnf ht
  · exact Effect.eq_raise_of_fatal (s := s.advance 9) heff hnf ht

/-- A step into `FATAL` is a message step in `RUN`: no event of the outside leads there (R192). -/
theorem runStep_of_step_into_fatal {s t : State} (hs : s.runState ≠ .fatal) (h : step s = .next t) (ht : t.runState = .fatal) :
    s.runState = .run ∧ ∃ es, runStep { s with events := es } = .next t := by
  have hrun : s.runState = .run := by
    obtain e | ⟨_, e, _⟩ | ⟨hrun, _⟩ | ⟨e, _⟩ := runStateTransitions s t h
    · exact absurd (e.symm.trans ht) hs
    · simp [e] at ht
    · exact hrun
    · simp [e] at ht
  refine ⟨hrun, ?_⟩
  obtain ⟨_, _, h⟩ | ⟨e, es, _, h⟩ := step_cases h
  · exact ⟨s.events, h⟩
  obtain ⟨a, d, rfl, rfl⟩ | ⟨rfl, rfl⟩ | ⟨rfl, rfl⟩ | ⟨b, rfl, rfl⟩ | ⟨rfl, _, h⟩ | ⟨rfl, hn, _⟩ := h
  · rw [State.regWrite_of_not_idle (by simp [hrun])] at ht
    exact absurd ht hs
  · simp [State.reset] at ht
  · exact absurd (by simpa using ht) hs
  · exact absurd ht hs
  · exact ⟨es, h⟩
  · exact absurd hrun hn

/-- Settles O38: such a step is a fatal entry, which keeps all but the status registers and the sink's progress. -/
theorem fatalEndIsPrecise : Obligations.FatalEndIsPrecise := by
  intro s t hs h ht
  obtain ⟨hrun, es, h⟩ := runStep_of_step_into_fatal hs h ht
  obtain ⟨n, c, rfl⟩ := runStep_eq_raise_of_fatal (s := { s with events := es }) hrun h ht
  obtain ⟨hcode, _⟩ := State.statusInv_raise params c { s with pc := n, events := es }
  refine ⟨State.sameEstimator_raise params c { s with pc := n, events := es }, ?_, ?_, ?_, ?_, ?_, ?_, ?_, hcode.mpr ht⟩ <;> simp

end Sys2Proof.Machine

/-!
PROOFS. The statements of 70_reset_and_hazards.md: reset, the output ports, and the output handshake at message level, along a run and byte by byte.
-/

namespace Sys2Proof.Machine

/-! ### Reset, the output ports and the sink's events (R210, R220, R222) -/

/-- Settles O2: a reset event is taken in every run state, and `resetLine` keeps what is not the MAE's. -/
theorem resetAcceptedInEveryState : Obligations.ResetAcceptedInEveryState :=
  fun _ _ he => step_of_event he

theorem State.accept_eq (s : State) :
    s.accept = { s with delivered := if s.delivered < s.out.length then s.delivered + 1 else s.delivered } := by
  unfold State.accept
  split <;> rfl

theorem step_of_accept {s : State} {es : List HostEvent} (he : s.events = .accept :: es) :
    step s = .next { s with events := es }.accept :=
  step_of_event he

theorem step_of_sinkReady {s : State} {level : Bool} {es : List HostEvent} (he : s.events = .sinkReady level :: es) :
    step s = .next ({ s with events := es }.setOutReady level) :=
  step_of_event he

/-- A message step under the handshake delivers nothing to a sink that is not ready, whether it is taken or waited with (R222). -/
theorem runStep_delivered_of_not_ready {s t : State} (hw : Memory.wf s) (hr : s.outReady = false) (h : runStep s = .next t) :
    t.delivered = s.delivered := by
  obtain ⟨rfl, _⟩ | ⟨h, hn⟩ := runStep_cases h
  · rfl
  · exact State.delivered_of_not_ready hw hr h hn

/-- Without an event that takes samples or resets, no step delivers to a sink that is not ready (R216, R222). -/
theorem step_delivered_of_not_ready {s t : State} (hw : Memory.wf s) (hr : s.outReady = false) (haccept : s.events.head? ≠ some .accept)
    (hready : s.events.head? ≠ some (.sinkReady true)) (hreset : s.events.head? ≠ some .reset) (h : step s = .next t) :
    t.delivered = s.delivered := by
  obtain ⟨_, _, h⟩ | ⟨e, es, he, h⟩ := step_cases h
  · exact runStep_delivered_of_not_ready hw hr h
  rw [he, List.head?_cons] at haccept hready hreset
  obtain ⟨a, d, rfl, rfl⟩ | ⟨rfl, rfl⟩ | ⟨rfl, rfl⟩ | ⟨level, rfl, rfl⟩ | ⟨rfl, _, h⟩ | ⟨rfl, _, rfl⟩ := h
  · exact State.regWrite_delivered ..
  · exact absurd rfl hreset
  · exact absurd rfl haccept
  · cases level with
    | true => exact absurd rfl hready
    | false => rfl
  · exact runStep_delivered_of_not_ready (s := { s with events := es }) hw hr h
  · rfl

/-- Settles O6: the ports are read off the state, each sink event is one update of it, and the handshake keeps every other step from delivering. -/
theorem outputPortsAndSink : Obligations.OutputPortsAndSink := by
  intro s
  refine ⟨decide_eq_true_iff, rfl, rfl, rfl, rfl, rfl, decide_eq_true_iff, fun es he => ?_, fun level es he => step_of_sinkReady he,
    fun t hw hr haccept hready hreset h => step_delivered_of_not_ready hw hr haccept hready hreset h⟩
  rw [step_of_accept he, State.accept_eq]

/-! ### States that differ in the sink alone -/

theorem State.eq_with_sink {s : State} {es : List HostEvent} {ready : Bool} {taken : Nat} (he : s.events = es) (hr : s.outReady = ready)
    (hd : s.delivered = taken) : { s with events := es, outReady := ready, delivered := taken } = s := by
  subst he hr hd
  rfl

/-- A slow sink put into a state that runs with one changes the events and its progress alone. -/
theorem State.withSlowSink_of_not_ready {s : State} (hs : s.runState = .run) (hr : s.outReady = false) (es : List HostEvent) (taken : Nat) :
    s.withSlowSink es taken = { s with events := es, delivered := taken } := by
  rw [State.withSlowSink_of_run hs, ← hr]

/-- The two states are the same but for the sink's readiness, its progress and the events to come. -/
def State.SameRun (s v : State) : Prop := s.withSlowSink [] 0 = v.withSlowSink [] 0

theorem State.SameRun.eq_with_sink {s v : State} (h : s.SameRun v) :
    s = { v with events := s.events, outReady := s.outReady, delivered := s.delivered } :=
  calc s = { s.withSlowSink [] 0 with events := s.events, outReady := s.outReady, delivered := s.delivered } := rfl
    _ = { v.withSlowSink [] 0 with events := s.events, outReady := s.outReady, delivered := s.delivered } := by rw [h]
    _ = { v with events := s.events, outReady := s.outReady, delivered := s.delivered } := rfl

theorem State.SameRun.symm {s v : State} (h : s.SameRun v) : v.SameRun s := Eq.symm h

theorem State.SameRun.trans {s v w : State} (h : s.SameRun v) (h' : v.SameRun w) : s.SameRun w := Eq.trans h h'

theorem State.SameRun.runState {s v : State} (h : s.SameRun v) : s.runState = v.runState := by rw [h.eq_with_sink]

theorem State.SameRun.out {s v : State} (h : s.SameRun v) : s.out = v.out := by rw [h.eq_with_sink]

theorem State.sameRun_accept (s : State) : s.accept.SameRun s := s.withSlowSink_of_accept [] 0

/-- A message step keeps two states that differ in the sink alone so (R222, R230). -/
theorem messageStep_sameRun {s v t : State} (hs : s.runState = .run) (h : s.SameRun v) (ht : messageStep s = .next t) :
    ∃ w, messageStep v = .next w ∧ t.SameRun w := by
  obtain ⟨w, hw, _⟩ := messageStep_outcome v
  have ht0 := messageStep_withSlowSink hs [] 0 ht
  have hw0 := messageStep_withSlowSink (h.runState.symm.trans hs) [] 0 hw
  rw [h, hw0] at ht0
  exact ⟨w, hw, (Host.Outcome.next.inj ht0).symm⟩

/-- Settles O15: the message step with the slow sink is the one with the ready sink, the slow sink put in afterwards; the handshake looks at
the samples and the run state, which the sink does not touch. -/
theorem sinkDecidesOnlyWhen : Obligations.SinkDecidesOnlyWhen := by
  intro s t taken hs he hr h
  rw [step_of_ready hs he hr] at h
  have hslow := messageStep_withSlowSink hs [] taken h
  have hevents : t.events = [] := (messageStep_outside h).2.trans he
  have hbefore : s.withSlowSink [] taken = { s with outReady := false, delivered := taken } := by
    rw [State.withSlowSink_of_run hs, ← he]
  have hafter : t.withSlowSink [] taken =
      { t with outReady := false, delivered := if t.runState = .run then taken else t.out.length } := by
    rw [State.withSlowSink, ← hevents]
  rw [hbefore, hafter] at hslow
  have hstep := (step_of_run (s := { s with outReady := false, delivered := taken }) he hs).trans (runStep_eq hslow)
  exact hstep.trans (congrArg Host.Outcome.next (if_congr (and_iff_right rfl) rfl rfl))

/-! ### Along a run (R61, R222) -/

theorem steps_trans {m : Nat} {s t : State} (h : steps m s = .next t) (n : Nat) : steps (m + n) s = steps n t := by
  induction m generalizing s with
  | zero =>
    cases h
    rw [Nat.zero_add]
  | succ m ih =>
    cases hstep : step s with
    | next u =>
      rw [steps_succ hstep] at h
      rw [Nat.succ_add_eq_add_succ, Nat.add_succ, steps_succ hstep, ih h]
    | fault r => simp [steps, hstep] at h
    | refused r => simp [steps, hstep] at h

/-- What a sink does, or nobody. -/
abbrev HostEvent.OfSink (e : HostEvent) : Prop := e = .quiet ∨ e = .accept ∨ ∃ level, e = .sinkReady level

/-- The state is one of a run with a ready sink and nothing else outside. -/
abbrev State.Unhindered (v : State) : Prop := v.events = [] ∧ v.outReady = true

theorem step_of_unhindered {v : State} (hv : v.Unhindered) (hs : v.runState = .run) : step v = messageStep v :=
  step_of_ready hs hv.1 hv.2

/-- `s` is, but for the sink, where the run with a ready sink stands at most `n` of its own steps after `v`. -/
def State.StageOf (n : Nat) (s v : State) : Prop :=
  ∃ j ≤ n, ∃ w : State, steps j v = .next w ∧ w.Unhindered ∧ s.SameRun w

theorem State.SameRun.stageOf {s v : State} (h : s.SameRun v) (hv : v.Unhindered) (n : Nat) : s.StageOf n v :=
  ⟨0, Nat.zero_le n, v, rfl, hv, h⟩

/-- A message step under any sink is waited with, or is the step of the run with a ready sink (R222). -/
theorem runStep_stageOf {s v : State} (hs : s.runState = .run) (h : s.SameRun v) (hv : v.Unhindered) :
    ∃ t, runStep s = .next t ∧ t.events = s.events ∧ t.StageOf 1 v := by
  obtain ⟨t, ht, _⟩ := messageStep_outcome s
  rw [runStep_eq ht]
  split
  · exact ⟨s, rfl, rfl, h.stageOf hv 1⟩
  · obtain ⟨w, hw, htw⟩ := messageStep_sameRun hs h ht
    obtain ⟨hready, hevents⟩ := messageStep_outside hw
    have hstep : step v = .next w := (step_of_unhindered hv (h.runState.symm.trans hs)).trans hw
    exact ⟨t, rfl, (messageStep_outside ht).2, 1, Nat.le_refl 1, w, steps_succ hstep 0, ⟨hevents.trans hv.1, hready.trans hv.2⟩, htw⟩

/-- An event of the sink leaves the run where it is, or lets it take one step of the run with a ready sink. -/
theorem step_stageOf {s v : State} {e : HostEvent} {es : List HostEvent} (he : s.events = e :: es) (hsink : e.OfSink) (h : s.SameRun v)
    (hv : v.Unhindered) : ∃ t, step s = .next t ∧ t.events = es ∧ t.StageOf 1 v := by
  have h' : State.SameRun { s with events := es } v := h
  obtain rfl | rfl | ⟨level, rfl⟩ := hsink
  · by_cases hs : s.runState = .run
    · rw [step_of_quiet he hs]
      exact runStep_stageOf hs h' hv
    · exact ⟨_, (step_of_event he).trans (if_neg hs), rfl, h'.stageOf hv 1⟩
  · exact ⟨_, step_of_accept he, State.accept_events _, ((State.sameRun_accept _).trans h').stageOf hv 1⟩
  · exact ⟨_, step_of_sinkReady he, rfl, h'.stageOf hv 1⟩

theorem steps_stageOf (es : List HostEvent) {s v : State} (he : s.events = es) (hsink : ∀ e ∈ es, e.OfSink) (h : s.SameRun v)
    (hv : v.Unhindered) : ∃ u, steps es.length s = .next u ∧ u.events = [] ∧ u.StageOf es.length v := by
  induction es generalizing s v with
  | nil => exact ⟨s, rfl, he, h.stageOf hv 0⟩
  | cons e es ih =>
    obtain ⟨hesink, hessink⟩ := List.forall_mem_cons.mp hsink
    obtain ⟨t, hstep, htes, j, hj, w, hw, hwv, htw⟩ := step_stageOf he hesink h hv
    obtain ⟨u, hu, hue, k, hk, x, hx, hxv, hux⟩ := ih htes hessink htw hwv
    refine ⟨u, (steps_succ hstep _).trans hu, hue, j + k, ?_, x, (steps_trans hw k).trans hx, hxv, hux⟩
    rw [List.length_cons]
    omega

/-- Settles O57, by induction on the events: each leaves the run where it is or lets it take one step of the run with a ready sink. -/
theorem anySinkGivesAStageOfTheSameRun : Obligations.AnySinkGivesAStageOfTheSameRun := by
  intro s hsink _
  obtain ⟨u, hu, hue, j, hj, v, hv, _, huv⟩ :=
    steps_stageOf s.events (v := { s with events := [], outReady := true }) rfl hsink rfl ⟨rfl, rfl⟩
  exact ⟨j, u, v, hu, hj, hv, by rw [← hue]; exact huv.eq_with_sink⟩

/-! ### A message or an end of the run that waits for the sink, and its release (R216, R222) -/

/-- In `RUN`, with one sample outstanding and the sink not ready, before a message step to `t` that emits or ends the run. -/
structure State.Held (s t : State) : Prop where
  run : s.runState = .run
  slow : s.outReady = false
  one : s.out.length = s.delivered + 1
  step : messageStep s = .next t
  due : s.out.length < t.out.length ∨ t.runState ≠ .run

theorem State.Held.mustWait {s t : State} (h : s.Held t) : s.MustWait t := ⟨h.slow, by rw [State.Outstanding, h.one]; omega, h.due⟩

theorem State.Held.events {s t : State} (h : s.Held t) : t.events = s.events := (messageStep_outside h.step).2

theorem State.Held.not_ready {s t : State} (h : s.Held t) : t.outReady = false := (messageStep_outside h.step).1.trans h.slow

/-- It waits, whatever the outside does later. -/
theorem State.Held.with_events {s t : State} (h : s.Held t) (es : List HostEvent) :
    State.Held { s with events := es } (t.withSlowSink es s.delivered) where
  run := h.run
  slow := h.slow
  one := h.one
  step := by
    have hstep := messageStep_withSlowSink h.run es s.delivered h.step
    rwa [State.withSlowSink_of_not_ready h.run h.slow] at hstep
  due := h.due

theorem State.Held.runStep_waits {s t : State} (h : s.Held t) (es : List HostEvent) :
    runStep { s with events := es } = .next { s with events := es } := by
  have hw := h.with_events es
  rw [runStep_eq hw.step, if_pos hw.mustWait]

theorem State.Held.steps_quiet {s t : State} (h : s.Held t) (n : Nat) (es : List HostEvent) :
    steps n { s with events := List.replicate n .quiet ++ es } = .next { s with events := es } := by
  induction n with
  | zero => rfl
  | succ n ih =>
    have hstep : Machine.step { s with events := List.replicate (n + 1) .quiet ++ es } =
        .next { s with events := List.replicate n .quiet ++ es } :=
      (step_of_quiet (s := { s with events := .quiet :: (List.replicate n .quiet ++ es) }) rfl h.run).trans (h.runStep_waits _)
    exact (steps_succ hstep n).trans ih

/-- The sink takes the one sample that is outstanding. -/
theorem State.accept_of_one {s : State} (hs : s.runState = .run) (hr : s.outReady = false) (hone : s.out.length = s.delivered + 1) :
    s.accept = s.withSlowSink s.events s.out.length := by
  rw [State.withSlowSink_of_not_ready hs hr, State.accept_eq, if_pos (by omega), hone]

/-- Then none is outstanding, and nothing waits. -/
theorem State.not_mustWait_of_accepted {s : State} (hone : s.out.length = s.delivered + 1) (t : State) : ¬ s.accept.MustWait t :=
  State.not_mustWait_of_taken (by rw [State.accept_out, State.accept_delivered, if_pos (by omega), hone]) t

/-- What was held has its whole effect, the sample taken in the meantime counted; an end of the run finds every sample taken. -/
theorem State.Held.released_eq {s t : State} (h : s.Held t) :
    t.withSlowSink s.events s.out.length = { t with delivered := s.out.length } := by
  have htaken : (if t.runState = .run then s.out.length else t.out.length) = s.out.length :=
    ite_eq_left_iff.mpr fun hend => by rw [(messageStep_of_end_of_run h.run h.step hend).1]
  rw [State.withSlowSink, htaken, ← h.events, ← h.not_ready]

theorem State.Held.step_accepted {s t : State} (h : s.Held t) (he : s.events = []) :
    Machine.step s.accept = .next { t with delivered := s.out.length } := by
  have hstep := messageStep_withSlowSink h.run s.events s.out.length h.step
  rw [← State.accept_of_one h.run h.slow h.one, h.released_eq] at hstep
  rw [step_of_run (s.accept_events.trans he) (s.accept_runState.trans h.run)]
  exact runStep_of_not_wait hstep (State.not_mustWait_of_accepted h.one _)

/-- A message step of a ready sink that emits or ends the run leaves every sample delivered, if all were. -/
theorem messageStep_delivered_of_ready {s t : State} (hs : s.runState = .run) (hr : s.outReady = true) (h : messageStep s = .next t)
    (hdue : s.out.length < t.out.length ∨ t.runState ≠ .run) : t.delivered = t.out.length := by
  obtain hemit | hend := hdue
  · obtain ⟨hout, hdel, _⟩ := messageStep_of_emit h hemit
    rw [hdel, hout, if_pos hr]
  · exact (messageStep_of_end_of_run hs h hend).2.1

/-- A sink that becomes ready takes what is outstanding, and at once what the message adds. -/
theorem State.Held.step_ready {s t : State} (h : s.Held t) (he : s.events = []) :
    Machine.step (s.setOutReady true) = .next { t with outReady := true, delivered := t.out.length } := by
  obtain ⟨w, hw, htw⟩ := messageStep_sameRun (v := s.setOutReady true) h.run rfl h.step
  have hready : w.outReady = true := (messageStep_outside hw).1
  have hevents : w.events = t.events := (messageStep_outside hw).2.trans h.events.symm
  have hout : w.out = t.out := htw.symm.out
  have hdue : s.out.length < w.out.length ∨ w.runState ≠ .run := by
    rw [hout, ← htw.runState]
    exact h.due
  have hdelivered := messageStep_delivered_of_ready (s := s.setOutReady true) h.run rfl hw hdue
  rw [step_of_ready (s := s.setOutReady true) h.run he rfl, hw]
  exact congrArg Host.Outcome.next (by rw [htw.symm.eq_with_sink, hready, hevents, hdelivered, hout])

/-- After any number of quiet turns and an acceptance, what was held has its whole effect. -/
theorem State.Held.steps_accept {s t : State} (h : s.Held t) (he : s.events = []) (n : Nat) :
    steps (n + 2) { s with events := List.replicate n .quiet ++ [.accept] } = .next { t with delivered := s.out.length } := by
  rw [steps_trans (h.steps_quiet n _), steps_succ (step_of_accept rfl), ← he]
  exact steps_succ (h.step_accepted he) 0

/-- After any number of quiet turns and the sink becoming ready, what was held has its whole effect, with every sample delivered. -/
theorem State.Held.steps_ready {s t : State} (h : s.Held t) (he : s.events = []) (n : Nat) :
    steps (n + 2) { s with events := List.replicate n .quiet ++ [.sinkReady true] } =
      .next { t with outReady := true, delivered := t.out.length } := by
  rw [steps_trans (h.steps_quiet n _), steps_succ (step_of_sinkReady rfl), ← he]
  exact steps_succ (h.step_ready he) 0

theorem State.Held.steps_waiting {s t : State} (h : s.Held t) (n : Nat) :
    steps n { s with events := List.replicate n .quiet } = .next { s with events := [] } := by
  have hquiet := h.steps_quiet n []
  rwa [List.append_nil] at hquiet

/-- Settles O13: the message is held, and released by the sink in either way. -/
theorem emittingMessageWaitsForTheSink : Obligations.EmittingMessageWaitsForTheSink := by
  intro s t i r hi hs hrest hr hone ht hemit
  have held : State.Held { s with events := [] } t :=
    ⟨hs, hr, hone, (messageStepWith_of_encode (s := { s with events := [] }) params_distinct hi hrest exec).trans ht, .inl hemit⟩
  exact ⟨held.steps_waiting, held.steps_accept rfl, held.steps_ready rfl⟩

/-- What the step with a ready sink does at an end of the run or an emission is held while the sink is not ready. -/
theorem State.held_of_ready {s t : State} (hs : s.runState = .run) (hr : s.outReady = false) (hone : s.out.length = s.delivered + 1)
    (h : messageStep { s with outReady := true } = .next t) (hdue : s.out.length < t.out.length ∨ t.runState ≠ .run) :
    s.Held (t.withSlowSink s.events s.delivered) where
  run := hs
  slow := hr
  one := hone
  step := by
    have hslow : messageStep (s.withSlowSink s.events s.delivered) = .next (t.withSlowSink s.events s.delivered) :=
      messageStep_withSlowSink (s := { s with outReady := true }) hs s.events s.delivered h
    rwa [State.withSlowSink_of_not_ready hs hr] at hslow
  due := hdue

/-- Settles O14: the end of the run is held, and what it has once released is the end with a ready sink, which delivers every sample. -/
theorem endOfRunWaitsForTheSink : Obligations.EndOfRunWaitsForTheSink := by
  intro s t hs hr hone h hend
  rw [step_of_ready (s := { s with events := [], outReady := true }) hs rfl rfl] at h
  obtain ⟨hout, hdelivered, hclosed⟩ := messageStep_of_end_of_run (s := { s with events := [], outReady := true }) hs h hend
  obtain ⟨hready, hevents⟩ := messageStep_outside h
  have held := State.held_of_ready (s := { s with events := [] }) hs hr hone h (.inr hend)
  refine ⟨hclosed, hout, hdelivered, held.steps_waiting, fun n => (held.steps_accept rfl n).trans (congrArg Host.Outcome.next ?_),
    fun n => (held.steps_ready rfl n).trans (congrArg Host.Outcome.next ?_)⟩
  · exact State.eq_with_sink (s := { t with outReady := false }) hevents rfl (hdelivered.trans (congrArg List.length hout))
  · exact State.eq_with_sink hevents hready hdelivered

/-! ### Byte by byte (R168, R169, R222) -/

/-- A message step does not run past the end of `IN` (R24). -/
theorem messageStep_pc_le {s t : State} (hpc : s.pc ≤ s.input.length) (h : messageStep s = .next t) : t.pc ≤ s.input.length := by
  obtain ⟨u, e, ⟨_, rfl⟩ | ⟨tag, rfl⟩ | ⟨h9, heff⟩⟩ := messageStep_outcome s <;> rw [h] at e <;> cases e
  · exact hpc
  · exact Nat.le_refl _
  · have hbody : (s.advance 9).pc ≤ (s.advance 9).input.length := Effect.keeps_pc_le (p := params) (.skipped 9 h9) hpc
    have hle := heff.keeps_pc_le hbody
    rwa [heff.input] at hle

/-- Where the last transition takes the end of the stream, it stands at the end of `IN` (R160, R170). -/
theorem serialNext_position {m m' : Serial} (h : serialNext params m = some m') (hpc : m'.arch.pc ≤ m.arch.input.length) :
    m'.arch.pc = m.arch.pc + 1 ∨
      (m'.arch.pc = m.arch.pc ∧ m'.arch.pc = m.arch.input.length ∧ m'.arch.runState ≠ .run) := by
  obtain hbyte | ⟨hsame, hrest, hend, _⟩ := serialNext_pc h
  · exact .inl hbyte
  · have hlen := m.arch.rest_length
    rw [hrest, List.length_nil] at hlen
    exact .inr ⟨hsame, by omega, hend⟩

/-- Once the sink has taken the sample, the withheld transition takes place, whatever has been read before it, and has its whole effect. -/
theorem State.Held.serialStep_accepted {s t : State} {m1 m2 : Serial} {n : Nat} (h : s.Held t) (harch : m1.arch = { s with pc := n })
    (hnext : serialNext params m1 = some m2) (ht : m2.arch = t) :
    ∃ m3, serialStep params { m1 with arch := m1.arch.accept } = some m3 ∧ m3.arch = { t with delivered := s.out.length } ∧
      m3.scratch = m2.scratch := by
  obtain ⟨a, c⟩ := m1
  subst harch
  have hslow := serialNext_withSlowSink s.events s.out.length hnext
  have haccept := State.accept_of_one (s := { s with pc := n }) h.run h.slow h.one
  refine ⟨m2.withSlowSink s.events s.out.length, serialStep_of_not_wait ?_
    (State.not_mustWait_of_accepted (s := { s with pc := n }) h.one _), ?_, rfl⟩
  · rw [haccept]
    exact hslow
  · rw [Serial.withSlowSink_arch, ht, h.released_eq]

/-- Settles O59: the serial machine reads up to the transition with the message step's effect, which is withheld until the sink has taken the
sample. -/
theorem byteSerialWithholdsCompletingByte : Obligations.ByteSerialWithholdsCompletingByte := by
  intro m t hp hs hw h hr hone hdue
  have held : m.arch.Held t := ⟨hs, hr, hone, h, hdue⟩
  obtain ⟨k, m1, m2, hrun, harch, hwithheld, hnext, rfl, hphase⟩ := (messageStep_reaches hp hs hw h).withheld held.mustWait
  obtain ⟨m3, hstep, harch3, hscratch⟩ := held.serialStep_accepted harch hnext rfl
  have hle := messageStep_pc_le hw.1 h
  have hpc := serialNext_position hnext (by rw [harch]; exact hle)
  rw [harch] at hpc
  exact ⟨k, m1, m3, hrun, harch, hpc, by rw [Serial.inReady, hwithheld]; rfl, hstep, by rwa [hscratch], harch3⟩

end Sys2Proof.Machine
